-- ==== Sys2Proof/Word.lean ====
section
/-! DEFINITION. Sys2Proof/Word.lean: the byte type, and a plain check that the members of a list differ. -/

namespace Sys2Proof

/-- R8: a byte is 8 bits, unsigned. -/
abbrev Byte := BitVec 8

/-- No member of the list occurs twice. -/
def allDistinct {α : Type} [BEq α] : List α → Bool
  | [] => true
  | a :: as => !as.contains a && allDistinct as

end Sys2Proof
end

