-- ==== Sys2Proof/Config.lean ====
section
/-! DEFINITION. Sys2Proof/Config.lean: the implementation parameters of 00_scope.md R7, and the free values (the
schedule and the draws of R6) as one opaque constant. -/

namespace Sys2Proof

/-- R2: the identifier string of the block. -/
def Config.identifier : String := "I2CM-MRE-v7"

/-- R62: the names of the 11 listed status codes. -/
inductive StatusSymbol
  | startSent
  | repeatedStartSent
  | addressAckedForWrite
  | addressNackedForWrite
  | dataByteAcked
  | dataByteNacked
  | arbitrationLost
  | addressAckedForRead
  | addressNackedForRead
  | dataByteAckedOnReceive
  | dataByteNackedOnReceive
deriving DecidableEq, Repr

/-- The 11 symbols in the order of R62's table. -/
def StatusSymbol.all : List StatusSymbol :=
  [.startSent, .repeatedStartSent, .addressAckedForWrite, .addressNackedForWrite, .dataByteAcked, .dataByteNacked,
   .arbitrationLost, .addressAckedForRead, .addressNackedForRead, .dataByteAckedOnReceive, .dataByteNackedOnReceive]

/-- R7, R62: the parameter STATUS_CODE, a byte for each status symbol. -/
structure StatusCodes where
  startSent : Byte
  repeatedStartSent : Byte
  addressAckedForWrite : Byte
  addressNackedForWrite : Byte
  dataByteAcked : Byte
  dataByteNacked : Byte
  arbitrationLost : Byte
  addressAckedForRead : Byte
  addressNackedForRead : Byte
  dataByteAckedOnReceive : Byte
  dataByteNackedOnReceive : Byte
deriving DecidableEq, Repr

/-- R11: a symbol in a rule stands for `STATUS_CODE` of it. -/
def StatusCodes.code (c : StatusCodes) : StatusSymbol → Byte
  | .startSent => c.startSent
  | .repeatedStartSent => c.repeatedStartSent
  | .addressAckedForWrite => c.addressAckedForWrite
  | .addressNackedForWrite => c.addressNackedForWrite
  | .dataByteAcked => c.dataByteAcked
  | .dataByteNacked => c.dataByteNacked
  | .arbitrationLost => c.arbitrationLost
  | .addressAckedForRead => c.addressAckedForRead
  | .addressNackedForRead => c.addressNackedForRead
  | .dataByteAckedOnReceive => c.dataByteAckedOnReceive
  | .dataByteNackedOnReceive => c.dataByteNackedOnReceive

/-- The symbol whose code is `s`, if `s` is listed. -/
def StatusCodes.symbolOf (c : StatusCodes) (s : Byte) : Option StatusSymbol :=
  StatusSymbol.all.find? (fun x => c.code x == s)

/-- R62: the default table, the AVR TWI master status codes. PRESUMED by the spec itself (log entry 8). -/
def StatusCodes.avr : StatusCodes :=
  { startSent := 0x08, repeatedStartSent := 0x10, addressAckedForWrite := 0x18, addressNackedForWrite := 0x20,
    dataByteAcked := 0x28, dataByteNacked := 0x30, arbitrationLost := 0x38, addressAckedForRead := 0x40,
    addressNackedForRead := 0x48, dataByteAckedOnReceive := 0x50, dataByteNackedOnReceive := 0x58 }

/-- R7, R31: the parameter CTRL_LAYOUT, the bit position of each control bit. Two control bits never share a position;
the eighth position is the reserved bit (log entry 20). -/
structure CtrlLayout where
  int : Fin 8
  ea : Fin 8
  sta : Fin 8
  sto : Fin 8
  wc : Fin 8
  en : Fin 8
  ie : Fin 8
  distinct : allDistinct [int, ea, sta, sto, wc, en, ie] = true
deriving DecidableEq, Repr

/-- R31, R65: the default layout, that of the AVR TWCR. PRESUMED by the spec itself (log entry 8). -/
def CtrlLayout.avr : CtrlLayout := ⟨7, 6, 5, 4, 3, 2, 0, by decide⟩

/-- R150: whether a repeated start survives a resume write that lands before it completes. -/
inductive ResumeRace
  | latched
  | mayDrop
deriving DecidableEq, Repr

/-- R151: whether a stop survives a write that lands before it completes. -/
inductive StopRace
  | sequenced
  | mayDrop
deriving DecidableEq, Repr

/-- R45: the platform parameter BC_REG_ADDR, which no rule reads (information only). -/
structure BcRegAddr where
  bitrate : Nat
  status : Nat
  data : Nat
  ctrl : Nat
deriving DecidableEq, Repr

/-- R7: the parameters of a model of I2CM. -/
structure Config where
  cap : Nat
  fClk : Nat
  fScl : Nat
  codes : StatusCodes
  statusMask : Byte
  layout : CtrlLayout
  arbLossAdmitted : Bool
  busErrorAdmitted : Bool
  resumeRace : ResumeRace
  stopRace : StopRace
  regAddr : BcRegAddr
deriving DecidableEq, Repr

/-- The values of R7. F_CLK and F_SCL are OPEN; the two numbers are those of CFG0 (DESIGN CHOICE, log entry 7). -/
def Config.default : Config :=
  { cap := 32, fClk := 16000000, fScl := 100000, codes := .avr, statusMask := 0xF8, layout := .avr,
    arbLossAdmitted := true, busErrorAdmitted := true, resumeRace := .mayDrop, stopRace := .mayDrop,
    regAddr := { bitrate := 0xB8, status := 0xB9, data := 0xBB, ctrl := 0xBC } }

/-- R5: the three agents. -/
inductive Agent
  | fg
  | eh
  | bc
deriving DecidableEq, Repr, Inhabited

/-- R78: what BC does in its turn, as a script line says it: `EV none`, or `EV <status>` with the byte of a receive. -/
inductive Ev
  | none
  | status (st : Byte) (x : Byte)
deriving DecidableEq, Repr, Inhabited

/-- R6: what the environment chooses for one step: which agent moves, the race draw of R150 and R151, and BC's outcome
(read in BC's turn only). DESIGN CHOICE (log entry 1). -/
structure Turn where
  agent : Agent
  drop : Bool
  ev : Ev
deriving DecidableEq, Repr, Inhabited

/-- R6: the free schedule and draws. It has no body: nothing can be proved of its values (log entry 1). -/
opaque Config.freeTurn : Nat → Turn

end Sys2Proof
end

