-- ==== Sys2Proof/Syntax.lean ====
section
/-! DEFINITION. Sys2Proof/Syntax.lean: one constructor for each row of the opcode table, in the table's order; the
names of the control words; the encoded forms (R77). -/

namespace Sys2Proof

/-- The rows of spec/opcode_table.json. -/
inductive Instr
  -- CMD32: the command port (R68)
  | init
  | write (addr : BitVec 7) (len : BitVec 8) (wait stop : Bool) (data : List Byte)
  | read (addr : BitVec 7) (len : BitVec 8) (stop : Bool)
  -- CTRL8: control words written to BC (R66)
  | cwInit
  | cwStart
  | cwResume
  | cwNextNoack
  | cwNextAck
  | cwStop
  | cwRepstart
  | cwRelease
  -- STAT8: statuses that BC reports (R62); `x` is the byte that a receive step shifts in (R146)
  | startSent
  | repeatedStartSent
  | addressAckedForWrite
  | addressNackedForWrite
  | dataByteAcked
  | dataByteNacked
  | arbitrationLost (x : Byte)
  | addressAckedForRead
  | addressNackedForRead
  | dataByteAckedOnReceive (x : Byte)
  | dataByteNackedOnReceive (x : Byte)
  -- EVT11: the rules of EH (R73); `s` is the masked status of a mode's default row
  | mtStartSent
  | mtRepeatedStartSent
  | mtAddressAckedForWrite
  | mtDataByteAcked
  | mtDataByteNacked
  | mtAddressNackedForWrite
  | mtArbitrationLost
  | mtOther (s : Byte)
  | mrStartSent
  | mrRepeatedStartSent
  | mrAddressAckedForRead
  | mrDataByteAckedOnReceive
  | mrDataByteNackedOnReceive
  | mrAddressNackedForRead
  | mrArbitrationLost
  | mrOther (s : Byte)
  | idleAny (s : Byte)
  | slaveTransmitAny (s : Byte)
  | slaveReceiveAny (s : Byte)
  | reserved5Any (s : Byte)
  | reserved6Any (s : Byte)
  | reserved7Any (s : Byte)
deriving DecidableEq, Repr

/-- R66: the names of the eight control words. -/
inductive CtrlName
  | init
  | start
  | resume
  | nextNoack
  | nextAck
  | stop
  | repstart
  | release
deriving DecidableEq, Repr

/-- The control bits that a control word sets, by name (R31). WC is read-only and the reserved bit is written 0. -/
structure CtrlBits where
  int : Bool
  ea : Bool
  sta : Bool
  sto : Bool
  en : Bool
  ie : Bool
deriving DecidableEq, Repr

/-- R67: the values of the 3-bit register MODE, the reserved ones included. -/
inductive Mode
  | idle
  | masterTransmit
  | masterReceive
  | slaveTransmit
  | slaveReceive
  | reserved5
  | reserved6
  | reserved7
deriving DecidableEq, Repr

/-- R77: the four fixed-length formats. -/
inductive Format
  | cmd32
  | ctrl8
  | stat8
  | evt11
deriving DecidableEq, Repr

/-- A value of one of the four formats, with what follows it: WRITE's byte sequence (R70), a receive step's byte
(R78, `EV <status> data=<b>`). -/
inductive Packet
  | cmd32 (w : BitVec 32) (data : List Byte)
  | ctrl8 (v : Byte)
  | stat8 (st : Byte) (x : Byte)
  | evt11 (k : BitVec 11)
deriving DecidableEq, Repr

/-- R91: what the host presents at the command port: a command word and a byte sequence. -/
structure Command where
  word : BitVec 32
  data : List Byte
deriving DecidableEq, Repr

end Sys2Proof
end

