-- ==== Sys2Proof/WellFormed.lean ====
section
/-! DEFINITION. Sys2Proof/WellFormed.lean: when a term of `Instr` stands for a value that the encodings of
30_encoding.md have. -/

namespace Sys2Proof

/-- The statuses that have an exact row in MasterTransmit (R73). -/
def StatusSymbol.inMt : StatusSymbol → Bool
  | .startSent | .repeatedStartSent | .addressAckedForWrite | .dataByteAcked | .dataByteNacked
  | .addressNackedForWrite | .arbitrationLost => true
  | .addressAckedForRead | .addressNackedForRead | .dataByteAckedOnReceive | .dataByteNackedOnReceive => false

/-- The statuses that have an exact row in MasterReceive (R73). -/
def StatusSymbol.inMr : StatusSymbol → Bool
  | .startSent | .repeatedStartSent | .addressAckedForRead | .dataByteAckedOnReceive | .dataByteNackedOnReceive
  | .addressNackedForRead | .arbitrationLost => true
  | .addressAckedForWrite | .addressNackedForWrite | .dataByteAcked | .dataByteNacked => false

/-- R70: a WRITE carries exactly LEN bytes. R73: a default row is taken only when no exact row of its mode matches. -/
def Instr.wf (c : Config) : Instr → Bool
  | .write _ len _ _ data => data.length == len.toNat
  | .mtOther s => !(StatusSymbol.all.any fun x => x.inMt && c.codes.code x == s)
  | .mrOther s => !(StatusSymbol.all.any fun x => x.inMr && c.codes.code x == s)
  | .init | .read _ _ _ => true
  | .cwInit | .cwStart | .cwResume | .cwNextNoack | .cwNextAck | .cwStop | .cwRepstart | .cwRelease => true
  | .startSent | .repeatedStartSent | .addressAckedForWrite | .addressNackedForWrite | .dataByteAcked
  | .dataByteNacked | .arbitrationLost _ | .addressAckedForRead | .addressNackedForRead
  | .dataByteAckedOnReceive _ | .dataByteNackedOnReceive _ => true
  | .mtStartSent | .mtRepeatedStartSent | .mtAddressAckedForWrite | .mtDataByteAcked | .mtDataByteNacked
  | .mtAddressNackedForWrite | .mtArbitrationLost => true
  | .mrStartSent | .mrRepeatedStartSent | .mrAddressAckedForRead | .mrDataByteAckedOnReceive
  | .mrDataByteNackedOnReceive | .mrAddressNackedForRead | .mrArbitrationLost => true
  | .idleAny _ | .slaveTransmitAny _ | .slaveReceiveAny _ => true
  | .reserved5Any _ | .reserved6Any _ | .reserved7Any _ => true

end Sys2Proof
end

