-- ==== Sys2Proof/Decode.lean ====
section
/-! DEFINITION. Sys2Proof/Decode.lean: decoding of the four formats, total and rejecting by name; the encoder after
it, from the tables of 30_encoding.md; the byte forms of both. -/

namespace Sys2Proof

/-! ## Control words (R65, R66) -/

/-- Bit `i` of a control word with the named bits `b` under the layout `l`; WC and the reserved bit are 0. -/
def CtrlBits.bitAt (l : CtrlLayout) (b : CtrlBits) (i : Fin 8) : Bool :=
  (i == l.int && b.int) || (i == l.ea && b.ea) || (i == l.sta && b.sta) || (i == l.sto && b.sto) ||
    (i == l.en && b.en) || (i == l.ie && b.ie)

/-- The byte with these bits, bit 7 first. -/
def byteOfBits (b7 b6 b5 b4 b3 b2 b1 b0 : Bool) : Byte :=
  BitVec.ofBool b7 ++ BitVec.ofBool b6 ++ BitVec.ofBool b5 ++ BitVec.ofBool b4 ++
    BitVec.ofBool b3 ++ BitVec.ofBool b2 ++ BitVec.ofBool b1 ++ BitVec.ofBool b0

/-- The control byte with the named bits set. -/
def CtrlBits.toByte (l : CtrlLayout) (b : CtrlBits) : Byte :=
  byteOfBits (b.bitAt l 7) (b.bitAt l 6) (b.bitAt l 5) (b.bitAt l 4) (b.bitAt l 3) (b.bitAt l 2) (b.bitAt l 1)
    (b.bitAt l 0)

/-- R138: `v.X` is bit X of v under CTRL_LAYOUT. -/
def CtrlBits.ofByte (l : CtrlLayout) (v : Byte) : CtrlBits :=
  { int := v.getLsbD l.int.val, ea := v.getLsbD l.ea.val, sta := v.getLsbD l.sta.val, sto := v.getLsbD l.sto.val,
    en := v.getLsbD l.en.val, ie := v.getLsbD l.ie.val }

/-- R66: the bits that each control word sets. -/
def CtrlName.bits : CtrlName → CtrlBits
  | .init => { int := false, ea := true, sta := false, sto := false, en := true, ie := true }
  | .start => { int := true, ea := true, sta := true, sto := false, en := true, ie := true }
  | .resume => { int := false, ea := true, sta := false, sto := false, en := true, ie := true }
  | .nextNoack => { int := true, ea := false, sta := false, sto := false, en := true, ie := true }
  | .nextAck => { int := true, ea := true, sta := false, sto := false, en := true, ie := true }
  | .stop => { int := true, ea := true, sta := false, sto := true, en := true, ie := true }
  | .repstart => { int := true, ea := true, sta := true, sto := false, en := true, ie := false }
  | .release => { int := true, ea := true, sta := false, sto := false, en := true, ie := true }

/-- R11: a control-word name stands for its byte under the chosen layout. -/
def CtrlName.byte (l : CtrlLayout) (n : CtrlName) : Byte := n.bits.toByte l

/-! ## MODE and the event key (R67, R73) -/

/-- R67: the 3-bit encoding of MODE. -/
def Mode.toBits : Mode → BitVec 3
  | .idle => 0
  | .masterTransmit => 1
  | .masterReceive => 2
  | .slaveTransmit => 3
  | .slaveReceive => 4
  | .reserved5 => 5
  | .reserved6 => 6
  | .reserved7 => 7

/-- R67: the value of MODE that three bits hold. -/
def Mode.ofBits (m : BitVec 3) : Mode :=
  if m = 0 then .idle else if m = 1 then .masterTransmit else if m = 2 then .masterReceive
  else if m = 3 then .slaveTransmit else if m = 4 then .slaveReceive else if m = 5 then .reserved5
  else if m = 6 then .reserved6 else .reserved7

/-- R73: `K = {MODE[2:0], s[7:0]}`. -/
def eventKey (m : Mode) (s : Byte) : BitVec 11 := m.toBits ++ s

/-! ## Decoding -/

/-- Why a value does not decode. -/
inductive DecodeError
  /-- R69: a reserved command word. -/
  | reservedCommand
  /-- A control byte that is none of the eight words of R66. -/
  | unnamedControlWord
  /-- A status that is none of the 11 codes of R62. -/
  | unlistedStatus
  /-- A byte string that ends inside a value, or an event key with a bit above bit 10. -/
  | malformedBytes
deriving DecidableEq, Repr

/-- R69: command decode. WRITE keeps the byte sequence presented with it; its length is checked at the port (R70). -/
def decodeCommand (w : BitVec 32) (data : List Byte) : Except DecodeError Instr :=
  let op := w.extractLsb' 0 2
  let wait := w.getLsbD 2
  let stop := w.getLsbD 3
  let addr := w.extractLsb' 4 7
  let len := w.extractLsb' 16 8
  if op = 0 then .error .reservedCommand
  else if w.extractLsb' 11 5 ≠ 0 ∨ w.extractLsb' 24 8 ≠ 0 then .error .reservedCommand
  else if op = 1 then
    if w.extractLsb' 2 30 ≠ 0 then .error .reservedCommand else .ok .init
  else if op = 3 then
    if wait = false then .error .reservedCommand else .ok (.read addr len stop)
  else .ok (.write addr len wait stop data)

/-- R66: the control word that a byte is. The bytes of CW_RESUME and CW_RELEASE are those of CW_INIT and CW_NEXT_ACK,
and decode to these (log entry 12). -/
def decodeControl (c : Config) (v : Byte) : Except DecodeError Instr :=
  if v = CtrlName.init.byte c.layout then .ok .cwInit
  else if v = CtrlName.start.byte c.layout then .ok .cwStart
  else if v = CtrlName.nextNoack.byte c.layout then .ok .cwNextNoack
  else if v = CtrlName.nextAck.byte c.layout then .ok .cwNextAck
  else if v = CtrlName.stop.byte c.layout then .ok .cwStop
  else if v = CtrlName.repstart.byte c.layout then .ok .cwRepstart
  else .error .unnamedControlWord

/-- The STAT8 row of a status symbol; `x` is the byte of a receive step. -/
def StatusSymbol.instr (x : Byte) : StatusSymbol → Instr
  | .startSent => .startSent
  | .repeatedStartSent => .repeatedStartSent
  | .addressAckedForWrite => .addressAckedForWrite
  | .addressNackedForWrite => .addressNackedForWrite
  | .dataByteAcked => .dataByteAcked
  | .dataByteNacked => .dataByteNacked
  | .arbitrationLost => .arbitrationLost x
  | .addressAckedForRead => .addressAckedForRead
  | .addressNackedForRead => .addressNackedForRead
  | .dataByteAckedOnReceive => .dataByteAckedOnReceive x
  | .dataByteNackedOnReceive => .dataByteNackedOnReceive x

/-- R62, R63: a status is compared after masking with STATUS_MASK. -/
def decodeStatus (c : Config) (st x : Byte) : Except DecodeError Instr :=
  match c.codes.symbolOf (st &&& c.statusMask) with
  | some sym => .ok (sym.instr x)
  | none => .error .unlistedStatus

/-- R73: within a mode an exact status row comes before the mode's default row. -/
def decodeEvent (c : Config) (m : Mode) (s : Byte) : Instr :=
  match m, c.codes.symbolOf s with
  | .masterTransmit, some .startSent => .mtStartSent
  | .masterTransmit, some .repeatedStartSent => .mtRepeatedStartSent
  | .masterTransmit, some .addressAckedForWrite => .mtAddressAckedForWrite
  | .masterTransmit, some .dataByteAcked => .mtDataByteAcked
  | .masterTransmit, some .dataByteNacked => .mtDataByteNacked
  | .masterTransmit, some .addressNackedForWrite => .mtAddressNackedForWrite
  | .masterTransmit, some .arbitrationLost => .mtArbitrationLost
  | .masterTransmit, _ => .mtOther s
  | .masterReceive, some .startSent => .mrStartSent
  | .masterReceive, some .repeatedStartSent => .mrRepeatedStartSent
  | .masterReceive, some .addressAckedForRead => .mrAddressAckedForRead
  | .masterReceive, some .dataByteAckedOnReceive => .mrDataByteAckedOnReceive
  | .masterReceive, some .dataByteNackedOnReceive => .mrDataByteNackedOnReceive
  | .masterReceive, some .addressNackedForRead => .mrAddressNackedForRead
  | .masterReceive, some .arbitrationLost => .mrArbitrationLost
  | .masterReceive, _ => .mrOther s
  | .idle, _ => .idleAny s
  | .slaveTransmit, _ => .slaveTransmitAny s
  | .slaveReceive, _ => .slaveReceiveAny s
  | .reserved5, _ => .reserved5Any s
  | .reserved6, _ => .reserved6Any s
  | .reserved7, _ => .reserved7Any s

/-- The instruction that a value of one of the four formats stands for. -/
def decode (c : Config) : Packet → Except DecodeError Instr
  | .cmd32 w data => decodeCommand w data
  | .ctrl8 v => decodeControl c v
  | .stat8 st x => decodeStatus c st x
  | .evt11 k => .ok (decodeEvent c (Mode.ofBits (k.extractLsb' 8 3)) (k.extractLsb' 0 8))

/-! ## Encoding -/

/-- R68: the command word of a WRITE. -/
def writeWord (addr : BitVec 7) (len : BitVec 8) (wait stop : Bool) : BitVec 32 :=
  0#8 ++ len ++ 0#5 ++ addr ++ BitVec.ofBool stop ++ BitVec.ofBool wait ++ 2#2

/-- R68: the command word of a READ. -/
def readWord (addr : BitVec 7) (len : BitVec 8) (stop : Bool) : BitVec 32 :=
  0#8 ++ len ++ 0#5 ++ addr ++ BitVec.ofBool stop ++ 1#1 ++ 3#2

/-- The words of an instruction: R68 (commands), R66 (control words), R62 (status codes), R73 (event keys). -/
def encode (c : Config) : Instr → Packet
  | .init => .cmd32 1 []
  | .write addr len wait stop data => .cmd32 (writeWord addr len wait stop) data
  | .read addr len stop => .cmd32 (readWord addr len stop) []
  | .cwInit => .ctrl8 (CtrlName.init.byte c.layout)
  | .cwStart => .ctrl8 (CtrlName.start.byte c.layout)
  | .cwResume => .ctrl8 (CtrlName.resume.byte c.layout)
  | .cwNextNoack => .ctrl8 (CtrlName.nextNoack.byte c.layout)
  | .cwNextAck => .ctrl8 (CtrlName.nextAck.byte c.layout)
  | .cwStop => .ctrl8 (CtrlName.stop.byte c.layout)
  | .cwRepstart => .ctrl8 (CtrlName.repstart.byte c.layout)
  | .cwRelease => .ctrl8 (CtrlName.release.byte c.layout)
  | .startSent => .stat8 c.codes.startSent 0
  | .repeatedStartSent => .stat8 c.codes.repeatedStartSent 0
  | .addressAckedForWrite => .stat8 c.codes.addressAckedForWrite 0
  | .addressNackedForWrite => .stat8 c.codes.addressNackedForWrite 0
  | .dataByteAcked => .stat8 c.codes.dataByteAcked 0
  | .dataByteNacked => .stat8 c.codes.dataByteNacked 0
  | .arbitrationLost x => .stat8 c.codes.arbitrationLost x
  | .addressAckedForRead => .stat8 c.codes.addressAckedForRead 0
  | .addressNackedForRead => .stat8 c.codes.addressNackedForRead 0
  | .dataByteAckedOnReceive x => .stat8 c.codes.dataByteAckedOnReceive x
  | .dataByteNackedOnReceive x => .stat8 c.codes.dataByteNackedOnReceive x
  | .mtStartSent => .evt11 (eventKey .masterTransmit c.codes.startSent)
  | .mtRepeatedStartSent => .evt11 (eventKey .masterTransmit c.codes.repeatedStartSent)
  | .mtAddressAckedForWrite => .evt11 (eventKey .masterTransmit c.codes.addressAckedForWrite)
  | .mtDataByteAcked => .evt11 (eventKey .masterTransmit c.codes.dataByteAcked)
  | .mtDataByteNacked => .evt11 (eventKey .masterTransmit c.codes.dataByteNacked)
  | .mtAddressNackedForWrite => .evt11 (eventKey .masterTransmit c.codes.addressNackedForWrite)
  | .mtArbitrationLost => .evt11 (eventKey .masterTransmit c.codes.arbitrationLost)
  | .mtOther s => .evt11 (eventKey .masterTransmit s)
  | .mrStartSent => .evt11 (eventKey .masterReceive c.codes.startSent)
  | .mrRepeatedStartSent => .evt11 (eventKey .masterReceive c.codes.repeatedStartSent)
  | .mrAddressAckedForRead => .evt11 (eventKey .masterReceive c.codes.addressAckedForRead)
  | .mrDataByteAckedOnReceive => .evt11 (eventKey .masterReceive c.codes.dataByteAckedOnReceive)
  | .mrDataByteNackedOnReceive => .evt11 (eventKey .masterReceive c.codes.dataByteNackedOnReceive)
  | .mrAddressNackedForRead => .evt11 (eventKey .masterReceive c.codes.addressNackedForRead)
  | .mrArbitrationLost => .evt11 (eventKey .masterReceive c.codes.arbitrationLost)
  | .mrOther s => .evt11 (eventKey .masterReceive s)
  | .idleAny s => .evt11 (eventKey .idle s)
  | .slaveTransmitAny s => .evt11 (eventKey .slaveTransmit s)
  | .slaveReceiveAny s => .evt11 (eventKey .slaveReceive s)
  | .reserved5Any s => .evt11 (eventKey .reserved5 s)
  | .reserved6Any s => .evt11 (eventKey .reserved6 s)
  | .reserved7Any s => .evt11 (eventKey .reserved7 s)

/-! ## Bytes (R49: least significant byte first) -/

/-- A 32-bit word from four bytes, the first the least significant. -/
def wordOfBytes (b0 b1 b2 b3 : Byte) : BitVec 32 := b3 ++ b2 ++ b1 ++ b0

/-- The bytes of a value. A status is followed by one byte, the receive byte, 0 where there is none (log entry 15); an
event key takes two bytes (log entry 16). -/
def Packet.bytes : Packet → List Byte
  | .cmd32 w data =>
    [w.extractLsb' 0 8, w.extractLsb' 8 8, w.extractLsb' 16 8, w.extractLsb' 24 8] ++ data
  | .ctrl8 v => [v]
  | .stat8 st x => [st, x]
  | .evt11 k => [k.extractLsb' 0 8, (k.extractLsb' 8 3).setWidth 8]

/-- The format of a value. -/
def Packet.format : Packet → Format
  | .cmd32 _ _ => .cmd32
  | .ctrl8 _ => .ctrl8
  | .stat8 _ _ => .stat8
  | .evt11 _ => .evt11

/-- Reads one instruction of the given format from a byte string, and answers the bytes after it. A WRITE takes the LEN
bytes that follow its word (R70). -/
def decodeBytes (c : Config) : Format → List Byte → Except DecodeError (Instr × List Byte)
  | .cmd32, b0 :: b1 :: b2 :: b3 :: rest =>
    match decodeCommand (wordOfBytes b0 b1 b2 b3) [] with
    | .error e => .error e
    | .ok (.write addr len wait stop _) =>
      if (rest.take len.toNat).length < len.toNat then .error .malformedBytes
      else .ok (.write addr len wait stop (rest.take len.toNat), rest.drop len.toNat)
    | .ok i => .ok (i, rest)
  | .ctrl8, v :: rest =>
    match decodeControl c v with
    | .error e => .error e
    | .ok i => .ok (i, rest)
  | .stat8, st :: x :: rest =>
    match decodeStatus c st x with
    | .error e => .error e
    | .ok i => .ok (i, rest)
  | .evt11, lo :: hi :: rest =>
    if hi.extractLsb' 3 5 ≠ 0 then .error .malformedBytes
    else .ok (decodeEvent c (Mode.ofBits (hi.extractLsb' 0 3)) lo, rest)
  | _, _ => .error .malformedBytes

/-! ## The opcode table's numbering -/

/-- The longest byte sequence that a WRITE can carry: LEN is 8 bits (R68). -/
def longestData : Nat := 255

/-- The bytes of a table word, laid out as a host serialises it, zeros above it. -/
def tableBytes (w : Nat) : List Byte :=
  [BitVec.ofNat 8 w, BitVec.ofNat 8 (w / 256), BitVec.ofNat 8 (w / 65536), BitVec.ofNat 8 (w / 16777216)] ++
    List.replicate longestData 0

/-- The format of a table word of `nbits` bits. Control words and status codes both have 8: a byte that is a control
word is read as one, any other byte as a status (log entry 14). -/
def tableFormat (c : Config) (nbits w : Nat) : Format :=
  if nbits ≤ 8 then
    match decodeControl c (BitVec.ofNat 8 w) with
    | .ok _ => .ctrl8
    | .error _ => .stat8
  else if nbits ≤ 16 then .evt11
  else .cmd32

/-- The instruction that the decoder reads from a table word under the default parameters. -/
def decodeTableWord (nbits w : Nat) : Option Instr :=
  match decodeBytes .default (tableFormat .default nbits w) (tableBytes w) with
  | .ok (i, _) => some i
  | .error _ => none

end Sys2Proof
end

