-- ==== Sys2Proof/Machine/State.lean ====
section
/-! DEFINITION. Sys2Proof/Machine/State.lean: everything the spec gives the machine, as plain data; its reset values;
the fault and the refusal. -/

namespace Sys2Proof.Machine

/-- R159: the reasons of `raise Refuse(reason)`. -/
inductive RefuseReason
  | reservedCommand
  | dataLength
  | notInitialized
  | zeroLengthRead
  | initPrecondition
  | badConfig
  | reservedMode
  | bufferIndex
  | unwrittenRead
  | busOverrun
deriving DecidableEq, Repr

/-- Why the machine stops. -/
inductive Fault
  /-- Raised by `step` and by every meaning on a state that carries the sticky refusal mark: R158, "no agent takes a
  further step". Safe: the spec gives such a run no further step. -/
  | runStopped (reason : RefuseReason)
deriving DecidableEq, Repr

/-- Why an instruction has no meaning here. -/
inductive Refusal
  /-- Raised by an arm of `exec` that gives its instruction no meaning yet; no arm of this model does. Safe. -/
  | notModelled (mnemonic : String)
deriving DecidableEq, Repr

/-- BUF: the pairs of index and byte that have been written, by rising index (R25, R44). -/
abbrev Memory := List Host.Cell

/-- R71: the answers of a WRITE. -/
inductive WriteResult
  | success
  | tooLarge
  | addressNacked
  | dataNacked
  | otherError
deriving DecidableEq, Repr

/-- R29: `fg.result`, "the result code or count". -/
inductive FgResult
  | code (r : WriteResult)
  | count (n : Nat)
deriving DecidableEq, Repr

/-- R29: the command being run. -/
inductive Op
  | init
  | write
  | read
deriving DecidableEq, Repr

/-- R92: the phases of FG. INIT is a single step and needs no phase of its own. -/
inductive Phase
  | ready
  | wCheck
  | wWaitIdle
  | wSetup
  | wTrigger
  | wWaitDone
  | wResult
  | rWaitIdle
  | rSetup
  | rTrigger
  | rWaitDone
  | rCopy
deriving DecidableEq, Repr

/-- R29: FG's private registers. `none` is the spec's "no value" (R43). -/
structure Fg where
  pc : Phase
  op : Option Op
  addr : Option (BitVec 7)
  len : Option (BitVec 8)
  wait : Option Bool
  stop : Option Bool
  data : Option (List Byte)
  out : Option (List Byte)
  result : Option FgResult
deriving DecidableEq, Repr

/-- R137: what the next shift does. -/
inductive BcPhase
  | none
  | addr
  | txData
  | rxData
deriving DecidableEq, Repr

/-- R137: the bus action that software has requested and BC has not yet performed. -/
inductive Pending
  | none
  | start
  | stop
  | stopStart
  | shift
deriving DecidableEq, Repr

/-- R137: BC's state. `data = none` is the spec's "no value" (R33, R42). -/
structure Bc where
  flag : Bool
  status : Byte
  data : Option Byte
  en : Bool
  ea : Bool
  sta : Bool
  sto : Bool
  ie : Bool
  wc : Bool
  bitrate : Byte
  owned : Bool
  phase : BcPhase
  pending : Pending
deriving DecidableEq, Repr

/-- R12, R154: the events of the trace. -/
inductive Event
  | ctrl (v : Byte)
  | data (b : Byte)
  | result (r : WriteResult)
  | count (n : Nat) (bytes : List Byte)
  | busStart
  | busRepStart
  | busByte (b : Byte) (acked : Bool)
  | busStop
  | busArbLost
  | busError (s : Byte)
deriving DecidableEq, Repr

/-- A control word that a test bench writes to BC's CTRL register on its own, and the race draw of that write
(log entry 11). -/
structure BenchWrite where
  word : Byte
  drop : Bool
deriving DecidableEq, Repr

/-- The machine. `cfg` is the configuration (R7), which no step changes. The fields from `host` on are the model's own:
the inputs of R6 and R91 as plain data (log entries 1, 3 and 11). -/
structure State where
  cfg : Config
  /-- R20. -/
  mode : Mode
  /-- R21; `none` is "no value" (R41). -/
  sendStop : Option Bool
  /-- R22. -/
  rsPending : Bool
  /-- R23. -/
  lastErr : Byte
  /-- R24; `none` is "no value" (R41). -/
  slaRw : Option Byte
  /-- R25; an index that is not listed holds no value (R41). -/
  buf : Memory
  /-- R26. -/
  len : BitVec 8
  /-- R27. -/
  idx : BitVec 8
  /-- R29. -/
  fg : Fg
  /-- R137. -/
  bc : Bc
  /-- R30. -/
  initDone : Bool
  /-- R30, R158. -/
  refused : Option RefuseReason
  /-- R12, oldest event first. -/
  trace : List Event
  /-- The commands the host will present, oldest first (R91). -/
  host : List Command
  /-- The turns the schedule will take, oldest first (R5, R6). -/
  sched : List Turn
  /-- How many turns have been taken from `Config.freeTurn`. -/
  tick : Nat
  /-- The race draw of the step being taken (R150, R151). -/
  drop : Bool
  /-- Control words written to BC on their own (log entry 11). -/
  bench : List BenchWrite
deriving DecidableEq, Repr

/-- R43: FG at reset. -/
def Fg.reset : Fg :=
  { pc := .ready, op := none, addr := none, len := none, wait := none, stop := none, data := none, out := none,
    result := none }

/-- R42: BC at reset. -/
def Bc.reset : Bc :=
  { flag := false, status := 0xF8, data := none, en := false, ea := false, sta := false, sto := false, ie := false,
    wc := false, bitrate := 0, owned := false, phase := .none, pending := .none }

/-- R175: the reset state; R41 for the block registers, R43 for the marks. The inputs are empty (log entry 3). -/
def State.reset : State :=
  { cfg := .default, mode := .idle, sendStop := none, rsPending := false, lastErr := 0xFF, slaRw := none, buf := [],
    len := 0, idx := 0, fg := .reset, bc := .reset, initDone := false, refused := none, trace := [], host := [],
    sched := [], tick := 0, drop := false, bench := [] }

end Sys2Proof.Machine
end

