-- ==== Sys2Proof/Machine/Ops.lean ====
section
/-! DEFINITION. Sys2Proof/Machine/Ops.lean: the named operations: taking a refusal, the trace, BUF, and BC's registers
(20_memory.md R44 to R54, 45_bus_controller.md R138 to R141, R150, R151, 60_exceptions.md R158). -/

namespace Sys2Proof.Machine

/-! ## Refusals (R158) -/

/-- R158, `raise Refuse(reason)`: the sticky mark is set. This is the one way an exceptional case is taken. -/
def State.raise (s : State) (r : RefuseReason) : State := { s with refused := some r }

/-- Statements separated by `;` take effect in order (R9); after a `raise` no further statement of the step takes effect
(R158; log entry 6). -/
def State.andThen (s : State) (f : State → State) : State :=
  match s.refused with
  | none => f s
  | some _ => s

/-- Goes on with a value that was read, or takes the refusal that the read ended in. -/
def State.use {α : Type} (s : State) (r : Except RefuseReason α) (f : α → State → State) : State :=
  match r with
  | .ok a => f a s
  | .error e => s.raise e

/-- One atomic step (R57, R111). A run that carries the mark takes no further step (R158). -/
def atomic (f : State → State) (s : State) : Host.Outcome State Fault Refusal :=
  match s.refused with
  | some r => .fault (.runStopped r)
  | none => .next (f s)

/-! ## Trace (R10, R12) -/

/-- R10: `Record(e)` appends event e to the trace. -/
def State.record (s : State) (e : Event) : State := { s with trace := s.trace ++ [e] }

/-! ## Registers that may hold no value (R41) -/

/-- R41: a register with no value takes `Refuse(UnwrittenRead)` when it is read. -/
def valued {α : Type} : Option α → Except RefuseReason α
  | some a => .ok a
  | none => .error .unwrittenRead

/-! ## BUF (R44, R48, R52) -/

/-- What index `i` holds: its byte, or `none` for no value. -/
def Memory.read : Memory → Nat → Option Byte
  | [], _ => none
  | (a, b) :: rest, i => if i = a then some b else Memory.read rest i

/-- Index `i` holds `v` after this; the list stays sorted by index. -/
def Memory.write : Memory → Nat → Byte → Memory
  | [], i, v => [(i, v)]
  | (a, b) :: rest, i, v =>
    if i < a then (i, v) :: (a, b) :: rest
    else if i = a then (i, v) :: rest
    else (a, b) :: Memory.write rest i v

/-- The canonical form: indices strictly rising. (An unlisted index holds no value, so no entry equals one.) -/
def Memory.wf : Memory → Bool
  | [] => true
  | (a, _) :: rest => rest.all (fun c => decide (a < c.1)) && Memory.wf rest

/-- R48, `MemRead(i, 1)`. R52: an index of CAP or above is `Refuse(BufferIndex)`. -/
def memRead (s : State) (i : Nat) : Except RefuseReason Byte :=
  if s.cfg.cap ≤ i then .error .bufferIndex else valued (s.buf.read i)

/-- R48, `MemWrite(i, 1, v)`. R52: an index of CAP or above is `Refuse(BufferIndex)`. -/
def memWrite (i : Nat) (v : Byte) (s : State) : State :=
  if s.cfg.cap ≤ i then s.raise .bufferIndex else { s with buf := s.buf.write i v }

/-! ## BC's registers as I2CM reaches them (R45, R138 to R141) -/

/-- R138: what every control write latches. A write of STO = 0 does not clear `bc.sto`. -/
def Bc.latch (bc : Bc) (b : CtrlBits) : Bc :=
  { bc with en := b.en, ea := b.ea, ie := b.ie, sta := b.sta, sto := b.sto || bc.sto }

/-- R151: this step's write drops the stop that it lands on. -/
def dropsStop (s : State) : Bool := s.cfg.stopRace == .mayDrop && s.drop

/-- R150: this step's write drops the start that it lands on. -/
def dropsStart (s : State) : Bool := s.cfg.resumeRace == .mayDrop && s.drop

/-- R151, `STOP_RACE_ON_START`: a start lands on a pending stop. -/
def stopRaceOnStart (s : State) : State :=
  { s with bc :=
      if dropsStop s then { s.bc with flag := false, sto := false, pending := .start }
      else { s.bc with flag := false, pending := .stopStart } }

/-- R151, `STOP_RACE_ON_WRITE`: a write with INT = 0 lands on a pending stop. -/
def stopRaceOnWrite (s : State) : State :=
  { s with bc := if dropsStop s then { s.bc with sto := false, pending := .none } else s.bc }

/-- R150, `RESUME_RACE_ON_WRITE`: a write with INT = 0 lands on a pending start. -/
def resumeRaceOnWrite (s : State) : State :=
  { s with bc := if dropsStart s then { s.bc with pending := .none } else s.bc }

/-- R138, the branch INT = 1: the flag is cleared and the requested action is launched. -/
def launch (b : CtrlBits) (s : State) : State :=
  match s.bc.pending with
  | .none =>
    { s with bc := { s.bc with
        flag := false, pending := if b.sta then .start else if b.sto then .stop else .shift } }
  | .stop => if b.sta then stopRaceOnStart s else s.raise .busOverrun
  | .start | .stopStart | .shift => s.raise .busOverrun

/-- R138, the branch INT = 0: only the races of R150 and R151. -/
def noLaunch (s : State) : State :=
  match s.bc.pending with
  | .start => resumeRaceOnWrite s
  | .stop => stopRaceOnWrite s
  | .none | .stopStart | .shift => s

/-- R138, `CtrlWrite(v)`. -/
def ctrlWrite (v : Byte) (s : State) : State :=
  let b := CtrlBits.ofByte s.cfg.layout v
  let s1 := { s.record (.ctrl v) with bc := s.bc.latch b }
  if b.int then launch b s1 else noLaunch s1

/-- `CtrlWrite` of a named control word (R11, R66). -/
def writeControl (n : CtrlName) (s : State) : State := ctrlWrite (n.byte s.cfg.layout) s

/-- R139, `DataWrite(b)`: a write while BC is busy is a collision, and the byte is lost. -/
def dataWrite (b : Byte) (s : State) : State :=
  let s1 := s.record (.data b)
  if s1.bc.flag then { s1 with bc := { s1.bc with data := some b, wc := false } }
  else { s1 with bc := { s1.bc with wc := true } }

/-- R140, `StatusRead()`. -/
def statusRead (s : State) : Byte := s.bc.status

/-- R140, `DataRead()`. -/
def dataRead (s : State) : Except RefuseReason Byte := valued s.bc.data

/-- R141, `BitrateWrite(d)`. -/
def bitrateWrite (d : Byte) (s : State) : State := { s with bc := { s.bc with bitrate := d } }

/-- Bit `i` of a CTRL read under the layout `l`; the reserved bit reads 0 (R31, R140). -/
def ctrlReadBit (l : CtrlLayout) (bc : Bc) (i : Fin 8) : Bool :=
  (i == l.int && bc.flag) || (i == l.ea && bc.ea) || (i == l.sta && bc.sta) || (i == l.sto && bc.sto) ||
    (i == l.wc && bc.wc) || (i == l.en && bc.en) || (i == l.ie && bc.ie)

/-- R140: what a read of CTRL returns. I2CM never reads it (R31). -/
def ctrlRead (s : State) : Byte :=
  let bit := ctrlReadBit s.cfg.layout s.bc
  byteOfBits (bit 7) (bit 6) (bit 5) (bit 4) (bit 3) (bit 2) (bit 1) (bit 0)

end Sys2Proof.Machine
end

