-- ==== Sys2Proof/Machine/Operands.lean ====
section
/-! DEFINITION. Sys2Proof/Machine/Operands.lean: the operand forms: the address byte, the lengths, the acknowledge
decision, the divisor (30_encoding.md R74, R75, 41_commands.md R94), and the check of the configuration (R177). -/

namespace Sys2Proof.Machine

/-- R74: `((zext_8(ADDR) << 1) & 0xFE) | dir`; `dir` is 0 for WRITE and 1 for READ. -/
def slaByte (addr : BitVec 7) (dir : Bool) : Byte :=
  ((addr.setWidth 8 <<< 1) &&& 0xFE#8) ||| (BitVec.ofBool dir).setWidth 8

/-- R144: the direction bit of an address byte, 1 = read. -/
def directionBit (b : Byte) : Bool := b.getLsbD 0

/-- R75: READ's effective length, `min(LEN, CAP)`. -/
def effectiveReadLength (c : Config) (len : BitVec 8) : Nat := min len.toNat c.cap

/-- R75: the receive acknowledge decision, `IDX + 1 < LEN` in unbounded naturals. -/
def acknowledges (idx len : BitVec 8) : Bool := decide (idx.toNat + 1 < len.toNat)

/-- R94: `((F_CLK div F_SCL) - 16) div 2`, or none where the configuration is refused. -/
def divisor (fClk fScl : Nat) : Option Byte :=
  if fScl = 0 then none
  else if fClk / fScl < 16 then none
  else if 255 < (fClk / fScl - 16) / 2 then none
  else some (BitVec.ofNat 8 ((fClk / fScl - 16) / 2))

/-- The bytes of a STATUS_CODE table, in R62's order. -/
def codeList (c : StatusCodes) : List Byte := StatusSymbol.all.map c.code

/-- R64: what a conforming STATUS_CODE meets: pairwise distinct, inside the mask, never the sentinel 0xFF. -/
def codesConform (c : Config) : Bool :=
  allDistinct (codeList c.codes) && (codeList c.codes).all (fun v => v &&& c.statusMask == v && v != 0xFF)

/-- R177: the configuration is valid. -/
def configOk (c : Config) : Bool :=
  decide (1 ≤ c.cap) && decide (c.cap ≤ 255) && (divisor c.fClk c.fScl).isSome && codesConform c

end Sys2Proof.Machine
end

