-- ==== Sys2Proof/Machine/Flags.lean ====
section
/-! DEFINITION. Sys2Proof/Machine/Flags.lean: the flags of 10_state.md R39 as rules read them, and the classification of
LAST_ERR (41_commands.md R102). -/

namespace Sys2Proof.Machine

/-- R23: the sentinel of LAST_ERR, "no error yet". -/
def noErrorYet : Byte := 0xFF

/-- R39: the no-error condition. -/
def noError (s : State) : Bool := s.lastErr == noErrorYet

/-- R35: the notification line, `bc.flag AND bc.ie`. -/
def irq (s : State) : Bool := s.bc.flag && s.bc.ie

/-- R63: the status that EH acts on, `StatusRead() & STATUS_MASK`. -/
def maskedStatus (s : State) : Byte := statusRead s &&& s.cfg.statusMask

/-- R102: CLASSIFY. Under a STATUS_MASK that admits it, a bus error may capture the unlisted status 0xFF, which R157's table
gives OtherError and R102 gives Success: the model follows R102 (DESIGN CHOICE, log entry 27). -/
def classify (c : StatusCodes) (e : Byte) : WriteResult :=
  if e = noErrorYet then .success
  else if e = c.addressNackedForWrite then .addressNacked
  else if e = c.dataByteNacked then .dataNacked
  else .otherError

/-- R71: the result byte. -/
def WriteResult.byte : WriteResult → Byte
  | .success => 0
  | .tooLarge => 1
  | .addressNacked => 2
  | .dataNacked => 3
  | .otherError => 4

end Sys2Proof.Machine
end

