-- ==== Sys2Proof/Machine/Sequencer.lean ====
section
/-! DEFINITION. Sys2Proof/Machine/Sequencer.lean: the actions of 40_sequencer.md R81 to R89. An action is not a step: it
runs inside the atomic step of the rule that names it. -/

namespace Sys2Proof.Machine

/-- R81. -/
def aTriggerStart (s : State) : State := writeControl .start s

/-- R82. -/
def aResume (s : State) : State := writeControl .resume { s with rsPending := false }

/-- R83. -/
def aLoadAddr (s : State) : State :=
  s.use (valued s.slaRw) fun b s => writeControl .nextNoack (dataWrite b s)

/-- R84. The caller checks `IDX < LEN`. -/
def aTxNext (s : State) : State :=
  s.use (memRead s s.idx.toNat) fun b s =>
    let s1 := dataWrite b s
    writeControl .nextNoack { s1 with idx := s1.idx + 1 }

/-- R85. -/
def aRxRequest (a : Bool) (s : State) : State :=
  if a then writeControl .nextAck s else writeControl .nextNoack s

/-- R86. -/
def aStore (s : State) : State :=
  if s.idx.toNat < s.len.toNat then
    s.use (dataRead s) fun x s =>
      (memWrite s.idx.toNat x s).andThen fun s => { s with idx := s.idx + 1 }
  else s

/-- R87. -/
def aComplete (s : State) : State :=
  s.use (valued s.sendStop) fun stop s =>
    if stop then (writeControl .stop s).andThen fun s => { s with mode := .idle }
    else (writeControl .repstart { s with rsPending := true }).andThen fun s => { s with mode := .idle }

/-- R88. -/
def aFail (e : Byte) (s : State) : State :=
  (writeControl .stop s).andThen fun s => { s with lastErr := e, mode := .idle }

/-- R89. -/
def aRelease (s : State) : State := writeControl .release s

end Sys2Proof.Machine
end

