-- ==== Sys2Proof/Machine/Foreground.lean ====
section
/-! DEFINITION. Sys2Proof/Machine/Foreground.lean: FG's micro-steps after a command is accepted (41_commands.md R96 to
R101, R104 to R108). -/

namespace Sys2Proof.Machine

/-- `fg.pc <- phase`. -/
def State.goto (s : State) (p : Phase) : State := { s with fg := { s.fg with pc := p } }

/-- R96. -/
def wCheck (s : State) : State :=
  s.use (valued s.fg.len) fun len s =>
    if s.cfg.cap < len.toNat then
      (({ s with fg := { s.fg with result := some (.code .tooLarge) } }).record (.result .tooLarge)).goto .ready
    else s.goto .wWaitIdle

/-- R97, R100, R104, R107: one read of MODE; the wait has no bound. -/
def waitIdle (next : Phase) (s : State) : State := if s.mode = .idle then s.goto next else s

/-- R98: `for k in 0 .. n-1: MemWrite(k, 1, fg.data[k])`. -/
def copyIn (data : List Byte) : Nat → State → State
  | 0, s => s
  | n + 1, s => (copyIn data n s).andThen fun s => s.use (valued data[n]?) fun b s => memWrite n b s

/-- R98. -/
def wSetup (s : State) : State :=
  let s := { s with mode := .masterTransmit }
  s.use (valued s.fg.stop) fun stop s =>
    let s := { s with sendStop := some stop, lastErr := noErrorYet }
    s.use (valued s.fg.len) fun len s =>
      s.use (valued s.fg.data) fun data s =>
        (copyIn data len.toNat s).andThen fun s =>
          let s := { s with len := len, idx := 0 }
          s.use (valued s.fg.addr) fun addr s =>
            ({ s with slaRw := some (slaByte addr false) }).goto .wTrigger

/-- The test and clear of RS_PENDING with its control write (R99, R106). -/
def trigger (s : State) : State := if s.rsPending then aResume s else aTriggerStart s

/-- R99. -/
def wTrigger (s : State) : State :=
  (trigger s).andThen fun s =>
    s.use (valued s.fg.wait) fun w s => if w then s.goto .wWaitDone else s.goto .wResult

/-- R101. -/
def wResult (s : State) : State :=
  let r := classify s.cfg.codes s.lastErr
  (({ s with fg := { s.fg with result := some (.code r) } }).record (.result r)).goto .ready

/-- R105. -/
def rSetup (s : State) : State :=
  let s := { s with mode := .masterReceive }
  s.use (valued s.fg.stop) fun stop s =>
    let s := { s with sendStop := some stop, lastErr := noErrorYet }
    s.use (valued s.fg.len) fun len s =>
      let s := { s with len := len, idx := 0 }
      s.use (valued s.fg.addr) fun addr s =>
        ({ s with slaRw := some (slaByte addr true) }).goto .rTrigger

/-- R106. -/
def rTrigger (s : State) : State := (trigger s).andThen fun s => s.goto .rWaitDone

/-- R108: `[MemRead(0, 1), ..., MemRead(n-1, 1)]`. -/
def copyOut (s : State) : Nat → Except RefuseReason (List Byte)
  | 0 => .ok []
  | n + 1 =>
    match copyOut s n with
    | .error e => .error e
    | .ok xs =>
      match memRead s n with
      | .error e => .error e
      | .ok b => .ok (xs ++ [b])

/-- R108. -/
def rCopy (s : State) : State :=
  s.use (copyOut s s.idx.toNat) fun out s =>
    (({ s with fg := { s.fg with out := some out, result := some (.count s.idx.toNat) } }).record
      (.count s.idx.toNat out)).goto .ready

/-- FG's micro-step in the phase it is in; in Ready it has none (R92). -/
def fgMicroStep (s : State) : State :=
  match s.fg.pc with
  | .ready => s
  | .wCheck => wCheck s
  | .wWaitIdle => waitIdle .wSetup s
  | .wSetup => wSetup s
  | .wTrigger => wTrigger s
  | .wWaitDone => waitIdle .wResult s
  | .wResult => wResult s
  | .rWaitIdle => waitIdle .rSetup s
  | .rSetup => rSetup s
  | .rTrigger => rTrigger s
  | .rWaitDone => waitIdle .rCopy s
  | .rCopy => rCopy s

end Sys2Proof.Machine
end

