-- ==== Sys2Proof/Machine/Commands.lean ====
section
/-! DEFINITION. Sys2Proof/Machine/Commands.lean: the meanings of the CMD32 rows: INIT (41_commands.md R93), and the
accept steps of WRITE (R95) and READ (R103). Their later phases are in Foreground.lean. -/

namespace Sys2Proof.Machine

/-- R93: INIT, one atomic step. R94: the divisor, or `Refuse(BadConfig)`. -/
def execInit (s : State) : Host.Outcome State Fault Refusal :=
  atomic (fun s =>
    if s.mode = .idle ∧ s.rsPending = false then
      match divisor s.cfg.fClk s.cfg.fScl with
      | none => s.raise .badConfig
      | some d =>
        (writeControl .init (bitrateWrite d { s with mode := .idle })).andThen fun s =>
          ({ s with initDone := true }).goto .ready
    else s.raise .initPrecondition) s

/-- R95: WRITE, accept. R70 and R162: a byte sequence of another length is refused first. -/
def execWrite (addr : BitVec 7) (len : BitVec 8) (wait stop : Bool) (data : List Byte) (s : State) :
    Host.Outcome State Fault Refusal :=
  atomic (fun s =>
    if data.length ≠ len.toNat then s.raise .dataLength
    else if s.initDone = false then s.raise .notInitialized
    else { s with fg := { s.fg with
        op := some .write, addr := some addr, len := some len, wait := some wait, stop := some stop,
        data := some data, pc := .wCheck } }) s

/-- R103: READ, accept; the length is clamped to CAP (R75). -/
def execRead (addr : BitVec 7) (len : BitVec 8) (stop : Bool) (s : State) : Host.Outcome State Fault Refusal :=
  atomic (fun s =>
    if s.initDone = false then s.raise .notInitialized
    else if effectiveReadLength s.cfg len = 0 then s.raise .zeroLengthRead
    else { s with fg := { s.fg with
        op := some .read, addr := some addr, len := some (BitVec.ofNat 8 (effectiveReadLength s.cfg len)),
        stop := some stop, wait := some true, pc := .rWaitIdle } }) s

end Sys2Proof.Machine
end

