-- ==== Sys2Proof/Machine/ControlWords.lean ====
section
/-! DEFINITION. Sys2Proof/Machine/ControlWords.lean: the meanings of the CTRL8 rows (30_encoding.md R66): BC accepts the
control word (45_bus_controller.md R138). What an action does beside its control write is the action's (log entry 10). -/

namespace Sys2Proof.Machine

/-- CW_INIT, written by INIT (R93). -/
def execCwInit (s : State) : Host.Outcome State Fault Refusal := atomic (writeControl .init) s

/-- CW_START, written by A_TRIGGER_START (R81). -/
def execCwStart (s : State) : Host.Outcome State Fault Refusal := atomic (writeControl .start) s

/-- CW_RESUME, written by A_RESUME (R82). -/
def execCwResume (s : State) : Host.Outcome State Fault Refusal := atomic (writeControl .resume) s

/-- CW_NEXT_NOACK, written by A_LOAD_ADDR, A_TX_NEXT and A_RX_REQUEST(0) (R83 to R85). -/
def execCwNextNoack (s : State) : Host.Outcome State Fault Refusal := atomic (writeControl .nextNoack) s

/-- CW_NEXT_ACK, written by A_RX_REQUEST(1) (R85). -/
def execCwNextAck (s : State) : Host.Outcome State Fault Refusal := atomic (writeControl .nextAck) s

/-- CW_STOP, written by A_COMPLETE and A_FAIL (R87, R88). -/
def execCwStop (s : State) : Host.Outcome State Fault Refusal := atomic (writeControl .stop) s

/-- CW_REPSTART, written by A_COMPLETE (R87). -/
def execCwRepstart (s : State) : Host.Outcome State Fault Refusal := atomic (writeControl .repstart) s

/-- CW_RELEASE, written by A_RELEASE (R89). -/
def execCwRelease (s : State) : Host.Outcome State Fault Refusal := atomic (writeControl .release) s

end Sys2Proof.Machine
end

