-- ==== Sys2Proof/Machine/MasterReceive.lean ====
section
/-! DEFINITION. Sys2Proof/Machine/MasterReceive.lean: the meanings of the EVT11 rows of MasterReceive
(44_master_receive.md R127 to R134). -/

namespace Sys2Proof.Machine

/-- R127. -/
def execMrStartSent (s : State) : Host.Outcome State Fault Refusal := atomic aLoadAddr s

/-- R128. -/
def execMrRepeatedStartSent (s : State) : Host.Outcome State Fault Refusal := atomic aLoadAddr s

/-- R129. -/
def execMrAddressAckedForRead (s : State) : Host.Outcome State Fault Refusal :=
  atomic (fun s => aRxRequest (acknowledges s.idx s.len) s) s

/-- R130; IDX is the value after the store. -/
def execMrDataByteAckedOnReceive (s : State) : Host.Outcome State Fault Refusal :=
  atomic (fun s => (aStore s).andThen fun s =>
    if s.len.toNat ≤ s.idx.toNat then aComplete s else aRxRequest (acknowledges s.idx s.len) s) s

/-- R131. -/
def execMrDataByteNackedOnReceive (s : State) : Host.Outcome State Fault Refusal :=
  atomic (fun s => (aStore s).andThen aComplete) s

/-- R132. -/
def execMrAddressNackedForRead (s : State) : Host.Outcome State Fault Refusal :=
  atomic (fun s => aFail s.cfg.codes.addressNackedForRead s) s

/-- R133. -/
def execMrArbitrationLost (s : State) : Host.Outcome State Fault Refusal :=
  atomic (fun s => aFail s.cfg.codes.arbitrationLost s) s

/-- R134. -/
def execMrOther (e : Byte) (s : State) : Host.Outcome State Fault Refusal := atomic (aFail e) s

end Sys2Proof.Machine
end

