-- ==== Sys2Proof/Machine/MasterTransmit.lean ====
section
/-! DEFINITION. Sys2Proof/Machine/MasterTransmit.lean: the meanings of the EVT11 rows of MasterTransmit
(43_master_transmit.md R118 to R125). -/

namespace Sys2Proof.Machine

/-- Load the next byte while there is one, else complete (R120, R121). -/
def txNextOrComplete (s : State) : State := if s.idx.toNat < s.len.toNat then aTxNext s else aComplete s

/-- R118. -/
def execMtStartSent (s : State) : Host.Outcome State Fault Refusal := atomic aLoadAddr s

/-- R119. -/
def execMtRepeatedStartSent (s : State) : Host.Outcome State Fault Refusal := atomic aLoadAddr s

/-- R120. -/
def execMtAddressAckedForWrite (s : State) : Host.Outcome State Fault Refusal := atomic txNextOrComplete s

/-- R121. -/
def execMtDataByteAcked (s : State) : Host.Outcome State Fault Refusal := atomic txNextOrComplete s

/-- R122. -/
def execMtDataByteNacked (s : State) : Host.Outcome State Fault Refusal :=
  atomic (fun s => aFail s.cfg.codes.dataByteNacked s) s

/-- R123. -/
def execMtAddressNackedForWrite (s : State) : Host.Outcome State Fault Refusal :=
  atomic (fun s => aFail s.cfg.codes.addressNackedForWrite s) s

/-- R124. -/
def execMtArbitrationLost (s : State) : Host.Outcome State Fault Refusal :=
  atomic (fun s => aFail s.cfg.codes.arbitrationLost s) s

/-- R125. -/
def execMtOther (e : Byte) (s : State) : Host.Outcome State Fault Refusal := atomic (aFail e) s

end Sys2Proof.Machine
end

