-- ==== Sys2Proof/Machine/OtherModes.lean ====
section
/-! DEFINITION. Sys2Proof/Machine/OtherModes.lean: the meanings of the EVT11 rows outside the master modes
(42_dispatch.md R114 to R116). None of these rules reads the status. -/

namespace Sys2Proof.Machine

/-- R114. -/
def execIdleAny (_e : Byte) (s : State) : Host.Outcome State Fault Refusal := atomic aRelease s

/-- R115, SlaveTransmit. -/
def execSlaveTransmitAny (_e : Byte) (s : State) : Host.Outcome State Fault Refusal := atomic aRelease s

/-- R115, SlaveReceive. -/
def execSlaveReceiveAny (_e : Byte) (s : State) : Host.Outcome State Fault Refusal := atomic aRelease s

/-- R116, MODE 5. -/
def execReserved5Any (_e : Byte) (s : State) : Host.Outcome State Fault Refusal :=
  atomic (fun s => s.raise .reservedMode) s

/-- R116, MODE 6. -/
def execReserved6Any (_e : Byte) (s : State) : Host.Outcome State Fault Refusal :=
  atomic (fun s => s.raise .reservedMode) s

/-- R116, MODE 7. -/
def execReserved7Any (_e : Byte) (s : State) : Host.Outcome State Fault Refusal :=
  atomic (fun s => s.raise .reservedMode) s

end Sys2Proof.Machine
end

