-- ==== Sys2Proof/Machine/BusController.lean ====
section
/-! DEFINITION. Sys2Proof/Machine/BusController.lean: the steps of BC (45_bus_controller.md R142 to R149). -/

namespace Sys2Proof.Machine

/-- The pending action is done, the flag is set and BC waits for software (the last line of R142 and R144 to R146). -/
def bcDone (s : State) : State := { s with bc := { s.bc with pending := .none, flag := true } }

/-- The bus is lost: ArbitrationLost (R144 to R146, R148). -/
def bcArbLost (s : State) : State :=
  ({ s with bc := { s.bc with status := s.cfg.codes.arbitrationLost, owned := false, phase := .none } }).record .busArbLost

/-- R142: perform a start. -/
def performStart (s : State) : State :=
  let s1 :=
    if s.bc.owned then
      ({ s with bc := { s.bc with status := s.cfg.codes.repeatedStartSent } }).record .busRepStart
    else ({ s with bc := { s.bc with status := s.cfg.codes.startSent } }).record .busStart
  bcDone { s1 with bc := { s1.bc with owned := true, phase := .addr } }

/-- R143: perform a stop. The start of a StopStart is a later step. -/
def performStop (s : State) : State :=
  let s1 := if s.bc.owned then s.record .busStop else s
  { s1 with bc := { s1.bc with
      owned := false, phase := .none, sto := false, status := 0xF8,
      pending := if s1.bc.pending = .stopStart then .start else .none } }

/-- The draw of an address or data step (R144, R145). -/
inductive Reply
  | ack
  | nack
  | arbLost
deriving DecidableEq, Repr

/-- R144: shift the address byte `b`. -/
def performAddress (o : Reply) (b : Byte) (s : State) : State :=
  match o with
  | .arbLost => bcDone (bcArbLost s)
  | .ack =>
    let s1 := s.record (.busByte b true)
    if directionBit b then
      bcDone { s1 with bc := { s1.bc with status := s.cfg.codes.addressAckedForRead, phase := .rxData } }
    else bcDone { s1 with bc := { s1.bc with status := s.cfg.codes.addressAckedForWrite, phase := .txData } }
  | .nack =>
    let s1 := s.record (.busByte b false)
    if directionBit b then
      bcDone { s1 with bc := { s1.bc with status := s.cfg.codes.addressNackedForRead, phase := .none } }
    else bcDone { s1 with bc := { s1.bc with status := s.cfg.codes.addressNackedForWrite, phase := .none } }

/-- R145: shift the data byte `b` out. -/
def performDataOut (o : Reply) (b : Byte) (s : State) : State :=
  match o with
  | .arbLost => bcDone (bcArbLost s)
  | .ack => bcDone (({ s with bc := { s.bc with status := s.cfg.codes.dataByteAcked } }).record (.busByte b true))
  | .nack =>
    bcDone (({ s with bc := { s.bc with status := s.cfg.codes.dataByteNacked, phase := .none } }).record
      (.busByte b false))

/-- R146: receive the byte `x`. The acknowledge is the master's, `bc.ea`; `lose` is the draw Lose, read when
`bc.ea = 0`. -/
def performDataIn (x : Byte) (lose : Bool) (s : State) : State :=
  let s1 := { s with bc := { s.bc with data := some x } }
  if s1.bc.ea then
    bcDone (({ s1 with bc := { s1.bc with status := s.cfg.codes.dataByteAckedOnReceive } }).record (.busByte x true))
  else if lose then bcDone (bcArbLost s1)
  else
    bcDone (({ s1 with bc := { s1.bc with status := s.cfg.codes.dataByteNackedOnReceive, phase := .none } }).record
      (.busByte x false))

/-- BC has the pending action `p` and may take a step on it (45_bus_controller.md section 3). -/
def bcEnabled (p : Pending) (s : State) : Bool := s.bc.en && decide (s.bc.pending = p)

/-- BC may perform a shift of the phase `f`. -/
def shiftEnabled (f : BcPhase) (s : State) : Bool := bcEnabled .shift s && decide (s.bc.phase = f)

/-- R142, for the one status that this start reports; BC takes no other step (log entry 13). -/
def bcStart (owned : Bool) (s : State) : State :=
  if bcEnabled .start s && s.bc.owned == owned then performStart s else s

/-- R144, for the one status that the reply `o` to an address of direction `dir` reports. -/
def bcAddress (o : Reply) (dir : Bool) (s : State) : State :=
  if shiftEnabled .addr s then
    s.use (dataRead s) fun b s => if directionBit b == dir then performAddress o b s else s
  else s

/-- R145. -/
def bcDataOut (o : Reply) (s : State) : State :=
  if shiftEnabled .txData s then s.use (dataRead s) fun b s => performDataOut o b s else s

/-- R146, for the one status that the acknowledge bit `ea` reports. -/
def bcDataIn (x : Byte) (ea : Bool) (s : State) : State :=
  if shiftEnabled .rxData s && s.bc.ea == ea then performDataIn x false s else s

/-- The draws ArbLost and Lose of R144 to R146, where ARB_LOSS_ADMITTED. -/
def bcArbitration (x : Byte) (s : State) : State :=
  if s.cfg.arbLossAdmitted && bcEnabled .shift s then
    match s.bc.phase with
    | .addr => s.use (dataRead s) fun b s => performAddress .arbLost b s
    | .txData => s.use (dataRead s) fun b s => performDataOut .arbLost b s
    | .rxData => if s.bc.ea then s else performDataIn x true s
    | .none => s
  else s

/-- The steps that report no status: a stop (R143), and a shift with nothing to shift (R147). -/
def bcSilent (s : State) : State :=
  if bcEnabled .stop s || bcEnabled .stopStart s then performStop s
  else if shiftEnabled .none s then { s with bc := { s.bc with pending := .none } }
  else s

/-- R149: the byte `e` may be drawn as the status of a bus error. -/
def busErrorStatus (c : Config) (e : Byte) : Bool := e &&& c.statusMask == e && (c.codes.symbolOf e).isNone

/-- R149: a bus error with status `e` in place of a shift. -/
def bcBusError (e : Byte) (s : State) : State :=
  if s.cfg.busErrorAdmitted && bcEnabled .shift s && !decide (s.bc.phase = .none) && busErrorStatus s.cfg e then
    ({ s with bc := { s.bc with
        status := e, owned := false, phase := .none, sto := false, pending := .none, flag := true } }).record
      (.busError e)
  else s

end Sys2Proof.Machine
end

