-- ==== Sys2Proof/Machine/StatusCodes.lean ====
section
/-! DEFINITION. Sys2Proof/Machine/StatusCodes.lean: the meanings of the STAT8 rows (30_encoding.md R62): BC performs its
pending action and reports the status (45_bus_controller.md R142 to R146). Where BC may not report it, BC takes no step
(log entry 13). -/

namespace Sys2Proof.Machine

/-- StartSent: a start on a free bus (R142). -/
def execStartSent (s : State) : Host.Outcome State Fault Refusal := atomic (bcStart false) s

/-- RepeatedStartSent: a start while I2CM holds the bus (R142). -/
def execRepeatedStartSent (s : State) : Host.Outcome State Fault Refusal := atomic (bcStart true) s

/-- AddressAckedForWrite: SLA+W acknowledged (R144). -/
def execAddressAckedForWrite (s : State) : Host.Outcome State Fault Refusal := atomic (bcAddress .ack false) s

/-- AddressNackedForWrite: SLA+W not acknowledged (R144). -/
def execAddressNackedForWrite (s : State) : Host.Outcome State Fault Refusal := atomic (bcAddress .nack false) s

/-- DataByteAcked: a data byte acknowledged (R145). -/
def execDataByteAcked (s : State) : Host.Outcome State Fault Refusal := atomic (bcDataOut .ack) s

/-- DataByteNacked: a data byte not acknowledged (R145). -/
def execDataByteNacked (s : State) : Host.Outcome State Fault Refusal := atomic (bcDataOut .nack) s

/-- ArbitrationLost: in an address or data byte, or in the master's NACK bit of the received byte `x` (R144 to R146). -/
def execArbitrationLost (x : Byte) (s : State) : Host.Outcome State Fault Refusal := atomic (bcArbitration x) s

/-- AddressAckedForRead: SLA+R acknowledged (R144). -/
def execAddressAckedForRead (s : State) : Host.Outcome State Fault Refusal := atomic (bcAddress .ack true) s

/-- AddressNackedForRead: SLA+R not acknowledged (R144). -/
def execAddressNackedForRead (s : State) : Host.Outcome State Fault Refusal := atomic (bcAddress .nack true) s

/-- DataByteAckedOnReceive: the byte `x` received, ACK returned (R146). -/
def execDataByteAckedOnReceive (x : Byte) (s : State) : Host.Outcome State Fault Refusal := atomic (bcDataIn x true) s

/-- DataByteNackedOnReceive: the byte `x` received, NACK returned (R146). -/
def execDataByteNackedOnReceive (x : Byte) (s : State) : Host.Outcome State Fault Refusal := atomic (bcDataIn x false) s

end Sys2Proof.Machine
end

