-- ==== Sys2Proof/Machine/Dispatch.lean ====
section
/-! DEFINITION. Sys2Proof/Machine/Dispatch.lean: one arm for each row of the opcode table. -/

namespace Sys2Proof.Machine

def exec (i : Instr) (s : State) : Host.Outcome State Fault Refusal :=
  match i with
  -- CMD32
  | .init => Sys2Proof.Machine.execInit s
  | .write addr len wait stop data => Sys2Proof.Machine.execWrite addr len wait stop data s
  | .read addr len stop => Sys2Proof.Machine.execRead addr len stop s
  -- CTRL8
  | .cwInit => Sys2Proof.Machine.execCwInit s
  | .cwStart => Sys2Proof.Machine.execCwStart s
  | .cwResume => Sys2Proof.Machine.execCwResume s
  | .cwNextNoack => Sys2Proof.Machine.execCwNextNoack s
  | .cwNextAck => Sys2Proof.Machine.execCwNextAck s
  | .cwStop => Sys2Proof.Machine.execCwStop s
  | .cwRepstart => Sys2Proof.Machine.execCwRepstart s
  | .cwRelease => Sys2Proof.Machine.execCwRelease s
  -- STAT8
  | .startSent => Sys2Proof.Machine.execStartSent s
  | .repeatedStartSent => Sys2Proof.Machine.execRepeatedStartSent s
  | .addressAckedForWrite => Sys2Proof.Machine.execAddressAckedForWrite s
  | .addressNackedForWrite => Sys2Proof.Machine.execAddressNackedForWrite s
  | .dataByteAcked => Sys2Proof.Machine.execDataByteAcked s
  | .dataByteNacked => Sys2Proof.Machine.execDataByteNacked s
  | .arbitrationLost x => Sys2Proof.Machine.execArbitrationLost x s
  | .addressAckedForRead => Sys2Proof.Machine.execAddressAckedForRead s
  | .addressNackedForRead => Sys2Proof.Machine.execAddressNackedForRead s
  | .dataByteAckedOnReceive x => Sys2Proof.Machine.execDataByteAckedOnReceive x s
  | .dataByteNackedOnReceive x => Sys2Proof.Machine.execDataByteNackedOnReceive x s
  -- EVT11
  | .mtStartSent => Sys2Proof.Machine.execMtStartSent s
  | .mtRepeatedStartSent => Sys2Proof.Machine.execMtRepeatedStartSent s
  | .mtAddressAckedForWrite => Sys2Proof.Machine.execMtAddressAckedForWrite s
  | .mtDataByteAcked => Sys2Proof.Machine.execMtDataByteAcked s
  | .mtDataByteNacked => Sys2Proof.Machine.execMtDataByteNacked s
  | .mtAddressNackedForWrite => Sys2Proof.Machine.execMtAddressNackedForWrite s
  | .mtArbitrationLost => Sys2Proof.Machine.execMtArbitrationLost s
  | .mtOther e => Sys2Proof.Machine.execMtOther e s
  | .mrStartSent => Sys2Proof.Machine.execMrStartSent s
  | .mrRepeatedStartSent => Sys2Proof.Machine.execMrRepeatedStartSent s
  | .mrAddressAckedForRead => Sys2Proof.Machine.execMrAddressAckedForRead s
  | .mrDataByteAckedOnReceive => Sys2Proof.Machine.execMrDataByteAckedOnReceive s
  | .mrDataByteNackedOnReceive => Sys2Proof.Machine.execMrDataByteNackedOnReceive s
  | .mrAddressNackedForRead => Sys2Proof.Machine.execMrAddressNackedForRead s
  | .mrArbitrationLost => Sys2Proof.Machine.execMrArbitrationLost s
  | .mrOther e => Sys2Proof.Machine.execMrOther e s
  | .idleAny e => Sys2Proof.Machine.execIdleAny e s
  | .slaveTransmitAny e => Sys2Proof.Machine.execSlaveTransmitAny e s
  | .slaveReceiveAny e => Sys2Proof.Machine.execSlaveReceiveAny e s
  | .reserved5Any e => Sys2Proof.Machine.execReserved5Any e s
  | .reserved6Any e => Sys2Proof.Machine.execReserved6Any e s
  | .reserved7Any e => Sys2Proof.Machine.execReserved7Any e s

end Sys2Proof.Machine
end

