-- ==== Sys2Proof/Machine/Schedule.lean ====
section
/-! DEFINITION. Sys2Proof/Machine/Schedule.lean: which agent moves (00_scope.md R5, R6), where each fetches the value that
selects its instruction (R69, R73, R63), and how a table word is placed there. -/

namespace Sys2Proof.Machine

/-- R91: the host presents a command and FG decodes it by R69. -/
def runCommand (c : Command) (s : State) : Host.Outcome State Fault Refusal :=
  match decode s.cfg (.cmd32 c.word c.data) with
  | .ok i => exec i s
  | .error _ => atomic (fun s => s.raise .reservedCommand) s

/-- FG's turn: the next micro-step, or in Ready the next command of the host; with none, FG has no step (R91, R92). -/
def fgTurn (s : State) : Host.Outcome State Fault Refusal :=
  match s.fg.pc, s.host with
  | .ready, [] => .next s
  | .ready, c :: rest => runCommand c { s with host := rest }
  | _, _ => atomic fgMicroStep s

/-- EH's turn. R110: enabled exactly while the notification line is high. R112: the event key selects the rule. -/
def ehTurn (s : State) : Host.Outcome State Fault Refusal :=
  if irq s then
    match decode s.cfg (.evt11 (eventKey s.mode (maskedStatus s))) with
    | .ok i => exec i s
    | .error _ => .next s
  else .next s

/-- BC's turn: the step that reports a listed status, a bus error (R149), or a step that reports none (R143, R147). -/
def bcTurn (e : Ev) (s : State) : Host.Outcome State Fault Refusal :=
  match e with
  | .none => atomic bcSilent s
  | .status st x =>
    match decode s.cfg (.stat8 st x) with
    | .ok i => exec i s
    | .error _ => atomic (bcBusError st) s

/-- The turn of the agent that the schedule picks (R5). An agent that is not enabled takes no step (log entry 2). -/
def runTurn (t : Turn) (s : State) : Host.Outcome State Fault Refusal :=
  match t.agent with
  | .fg => fgTurn s
  | .eh => ehTurn s
  | .bc => bcTurn t.ev s

/-- A control word written to CTRL on its own (log entry 11): a named word by its row, any other byte by R138. -/
def runBench (w : Byte) (s : State) : Host.Outcome State Fault Refusal :=
  match decode s.cfg (.ctrl8 w) with
  | .ok i => exec i s
  | .error _ => atomic (ctrlWrite w) s

/-- The next step of a run that carries no mark and whose configuration is valid: a bench write if one waits, else the
next scheduled turn, else a free turn. -/
def runNext (s : State) : Host.Outcome State Fault Refusal :=
  match s.bench, s.sched with
  | w :: rest, _ => runBench w.word { s with bench := rest, drop := w.drop }
  | [], t :: rest => runTurn t { s with sched := rest, drop := t.drop }
  | [], [] =>
    runTurn (Config.freeTurn s.tick) { s with tick := s.tick + 1, drop := (Config.freeTurn s.tick).drop }

/-- R158: a marked run takes no further step. R177: the configuration is checked before the first step. -/
def nextStep (s : State) : Host.Outcome State Fault Refusal :=
  match s.refused with
  | some r => .fault (.runStopped r)
  | none => if configOk s.cfg then runNext s else .next (s.raise .badConfig)

/-! ## Placing a table word where the next step fetches it (log entry 26) -/

/-- A byte with the direction bit `dir`: the byte in `d`, or zeros, with that bit. -/
def withDirection (d : Option Byte) (dir : Bool) : Option Byte :=
  some ((d.getD 0 &&& 0xFE#8) ||| (BitVec.ofBool dir).setWidth 8)

/-- BC, enabled and with the pending action that reports the status `sym`. -/
def armStatus (sym : StatusSymbol) (bc : Bc) : Bc :=
  let bc := { bc with en := true, flag := false }
  match sym with
  | .startSent => { bc with pending := .start, owned := false }
  | .repeatedStartSent => { bc with pending := .start, owned := true }
  | .addressAckedForWrite | .addressNackedForWrite | .arbitrationLost =>
    { bc with pending := .shift, phase := .addr, data := withDirection bc.data false }
  | .addressAckedForRead | .addressNackedForRead =>
    { bc with pending := .shift, phase := .addr, data := withDirection bc.data true }
  | .dataByteAcked | .dataByteNacked => { bc with pending := .shift, phase := .txData, data := some (bc.data.getD 0) }
  | .dataByteAckedOnReceive => { bc with pending := .shift, phase := .rxData, ea := true }
  | .dataByteNackedOnReceive => { bc with pending := .shift, phase := .rxData, ea := false }

/-- The turn is the next one. -/
def State.turnNext (s : State) (a : Agent) (e : Ev) : State :=
  { s with bench := [], sched := { agent := a, drop := false, ev := e } :: s.sched }

/-- A status stands in BC's outcome draw, and BC has the pending action that reports it. -/
def placeStatus (st : Byte) (s : State) : State :=
  let s := s.turnNext .bc (.status st 0)
  match s.cfg.codes.symbolOf (st &&& s.cfg.statusMask) with
  | some sym => { s with bc := armStatus sym s.bc }
  | none => s

/-- An event key stands in MODE and STATUS with the notification line high and, as R137 has it, nothing pending. -/
def placeEvent (k : BitVec 11) (s : State) : State :=
  let s := s.turnNext .eh .none
  { s with
    mode := Mode.ofBits (k.extractLsb' 8 3),
    bc := { s.bc with status := k.extractLsb' 0 8, flag := true, ie := true, pending := .none } }

/-- The bytes that follow a command word of zeros above it: LEN zeros after a WRITE (R70). -/
def zeroData (w : BitVec 32) : List Byte :=
  if w.extractLsb' 0 2 = 2#2 then List.replicate (w.extractLsb' 16 8).toNat 0 else []

/-- A command stands at the command port, and FG is Ready (R91). -/
def placeCommand (w : BitVec 32) (s : State) : State :=
  let s := s.turnNext .fg .none
  { s with fg := { s.fg with pc := .ready }, host := { word := w, data := zeroData w } :: s.host }

/-- A control word stands at BC's CTRL register. -/
def placeControl (v : Byte) (s : State) : State := { s with bench := { word := v, drop := false } :: s.bench }

/-- A table word stands where the next step fetches it. -/
def placeWord (nbits w : Nat) (s : State) : State :=
  match tableFormat s.cfg nbits w with
  | .cmd32 => placeCommand (BitVec.ofNat 32 w) s
  | .ctrl8 => placeControl (BitVec.ofNat 8 w) s
  | .stat8 => placeStatus (BitVec.ofNat 8 w) s
  | .evt11 => placeEvent (BitVec.ofNat 11 w) s

end Sys2Proof.Machine
end

