-- ==== Sys2Proof/Machine/Step.lean ====
section
/-! DEFINITION. Sys2Proof/Machine/Step.lean: one atomic step of one agent, and the placing of a table word. -/

namespace Sys2Proof.Machine

/-- R5: one atomic step. -/
def step (s : State) : Host.Outcome State Fault Refusal := nextStep s

/-- The table word `w` of `nbits` bits stands where `step` fetches its next instruction (log entry 26). -/
def State.withFetchWord (s : State) (nbits w : Nat) : State := placeWord nbits w s

end Sys2Proof.Machine
end

