-- ==== Sys2Proof/Safety.lean ====
section
/-! DEFINITION. Sys2Proof/Safety.lean: what a sound state of I2CM is (10_state.md R28, 45_bus_controller.md R137,
70_reset_and_hazards.md R180, R187), when a run has ended (00_scope.md R13) or hangs (60_exceptions.md R172), and the
fairness assumption of 45_bus_controller.md R152. -/

namespace Sys2Proof.Machine

/-- R159's column "reachable": the refusals that mark an input the spec forbids. The others mark a state that the
invariants exclude (R158). -/
def RefuseReason.byInput : RefuseReason → Bool
  | .reservedCommand | .dataLength | .notInitialized | .zeroLengthRead | .initPrecondition | .badConfig => true
  | .reservedMode | .bufferIndex | .unwrittenRead | .busOverrun => false

/-- FG is about to take a trigger step (R99, R106). -/
def atTrigger (s : State) : Prop := s.fg.pc = .wTrigger ∨ s.fg.pc = .rTrigger

/-- No transfer runs on the bus: I2CM is Idle, or a setup has been done and its trigger has not. -/
def Quiet (s : State) : Prop := s.mode = .idle ∨ atTrigger s

/-- The status is one after which a transfer may go on with a further bus step. -/
def Continues (c : StatusCodes) (st : Byte) : Prop :=
  st = c.startSent ∨ st = c.repeatedStartSent ∨ st = c.addressAckedForWrite ∨ st = c.dataByteAcked ∨
    st = c.addressAckedForRead ∨ st = c.dataByteAckedOnReceive

/-- FG holds the registers that its next micro-steps read (R29, R92). -/
def FgHolds (s : State) : Prop :=
  match s.fg.pc with
  | .wCheck =>
    ∃ len data, s.fg.len = some len ∧ s.fg.data = some data ∧ data.length = len.toNat ∧ s.fg.addr.isSome ∧
      s.fg.wait.isSome ∧ s.fg.stop.isSome
  | .wWaitIdle | .wSetup =>
    ∃ len data, s.fg.len = some len ∧ s.fg.data = some data ∧ data.length = len.toNat ∧ len.toNat ≤ s.cfg.cap ∧
      s.fg.addr.isSome ∧ s.fg.wait.isSome ∧ s.fg.stop.isSome
  | .wTrigger => s.fg.wait.isSome
  | .rWaitIdle | .rSetup =>
    ∃ len, s.fg.len = some len ∧ 1 ≤ len.toNat ∧ len.toNat ≤ s.cfg.cap ∧ s.fg.addr.isSome ∧ s.fg.stop.isSome
  | .rTrigger | .rWaitDone | .rCopy => s.fg.len = some s.len
  | .ready | .wWaitDone | .wResult => True

/-- The invariant of I2CM under BC's contract. -/
structure Invariant (s : State) : Prop where
  /-- R177. -/
  config : configOk s.cfg = true
  /-- No control word is written to BC from outside the three agents (log entry 11). -/
  noBench : s.bench = []
  /-- R28(a). -/
  bounds : s.idx.toNat ≤ s.len.toNat ∧ s.len.toNat ≤ s.cfg.cap
  /-- R28(b). -/
  modes : s.mode = .idle ∨ s.mode = .masterTransmit ∨ s.mode = .masterReceive
  /-- R28(c). -/
  repeatedStart : s.rsPending = true → Quiet s
  /-- R28(d), as far as one state shows it: LAST_ERR is the sentinel or a masked status. -/
  lastErr : s.lastErr = noErrorYet ∨ s.lastErr &&& s.cfg.statusMask = s.lastErr
  /-- R98, R105, R88: a transfer that has not ended has recorded no error. -/
  noErrorInTransfer : s.mode ≠ .idle → s.lastErr = noErrorYet
  /-- R137. -/
  flagPending : s.bc.flag = true → s.bc.pending = .none
  /-- R183: with no transfer on the bus and none held, BC has at most a stop pending. -/
  free : Quiet s → s.rsPending = false → s.bc.flag = false ∧ (s.bc.pending = .none ∨ s.bc.pending = .stop)
  /-- R187: after a repeated start the bus is held and the notification is masked. -/
  held : Quiet s → s.rsPending = true →
    s.bc.ie = false ∧ s.bc.owned = true ∧ (s.bc.flag = true ∨ s.bc.pending = .start)
  /-- A transfer on the bus ends before its stop is requested. -/
  running : ¬Quiet s → s.bc.pending ≠ .stop
  /-- R140, R146: what a completed step leaves for EH to read. -/
  reported : s.bc.flag = true →
    s.bc.status &&& s.cfg.statusMask = s.bc.status ∧
    (s.bc.status = s.cfg.codes.startSent ∨ s.bc.status = s.cfg.codes.repeatedStartSent ∨ s.bc.data.isSome)
  /-- R142 to R146: a status after which the transfer may go on leaves BC holding the bus, with something to shift. -/
  live : s.bc.flag = true → Continues s.cfg.codes s.bc.status → s.bc.owned = true ∧ s.bc.phase ≠ .none
  /-- R146: the NACKed last byte leaves BC holding the bus. -/
  lastByte : s.bc.flag = true → s.bc.status = s.cfg.codes.dataByteNackedOnReceive → s.bc.owned = true
  /-- R138, R147: a shift is requested only with something to shift. -/
  shifting : s.bc.pending = .shift → s.bc.owned = true ∧ s.bc.phase ≠ .none ∧ s.bc.data.isSome
  /-- R59, R180: MODE stays Idle between FG's check and its setup. -/
  setupIdle : s.fg.pc = .wSetup ∨ s.fg.pc = .rSetup → s.mode = .idle
  /-- R98, R105. -/
  triggerModes : (s.fg.pc = .wTrigger → s.mode = .masterTransmit) ∧ (s.fg.pc = .rTrigger → s.mode = .masterReceive)
  /-- R21, R24: a transfer's operands have been written. -/
  operands : s.mode ≠ .idle → s.slaRw.isSome ∧ s.sendStop.isSome
  /-- R103: READ's effective length is at least 1. -/
  receives : s.mode = .masterReceive → 1 ≤ s.len.toNat
  /-- R25: the bytes below IDX have been written. -/
  written : ∀ i, i < s.idx.toNat → (s.buf.read i).isSome
  /-- R98: the bytes that a transmit is to send have been written. -/
  toSend : s.mode = .masterTransmit → ∀ i, i < s.len.toNat → (s.buf.read i).isSome
  /-- R44: the buffer is in its canonical form and lists no index of CAP or above. -/
  buffer : s.buf.wf = true ∧ ∀ c ∈ s.buf, c.1 < s.cfg.cap
  /-- R29. -/
  foreground : FgHolds s
  /-- R140: STATUS holds a masked code, or the code that a stop leaves and reset gives (R143, R42). -/
  statusBits : s.bc.status &&& s.cfg.statusMask = s.bc.status ∨ s.bc.status = 0xF8

/-- R13: the run has ended. -/
def Ended (s : State) : Prop :=
  s.refused = none ∧ s.host = [] ∧ s.fg.pc = .ready ∧ s.mode = .idle ∧ s.bc.pending = .none ∧ irq s = false

/-- R172: FG is in a wait phase. -/
def waitPhase : Phase → Bool
  | .wWaitIdle | .wWaitDone | .rWaitIdle | .rWaitDone => true
  | .ready | .wCheck | .wSetup | .wTrigger | .wResult | .rSetup | .rTrigger | .rCopy => false

/-- R172, at one step of a run: FG is in a wait phase, MODE is not Idle and no EH step is enabled. BC may have an action
pending. A hang is no refusal. No control word waits on the bench (log entry 11). -/
def Waiting (s : State) : Prop :=
  s.refused = none ∧ waitPhase s.fg.pc = true ∧ s.mode ≠ .idle ∧ irq s = false ∧ s.bench = []

/-- R172, the hang that one state shows: FG waits and BC has nothing pending, because an action produced no notification
(R147, R150). The other hang, of a BC that never completes its pending action (R152), is a property of the run: `Hangs`. -/
def Hung (s : State) : Prop := Waiting s ∧ s.bc.pending = .none

/-- An infinite run of the machine. -/
def IsRun (run : Nat → State) : Prop := ∀ n, step (run n) = .next (run (n + 1))

/-- R172: the run hangs: from some step on FG waits, MODE is not Idle, and no EH step is ever enabled. -/
def Hangs (run : Nat → State) : Prop := IsRun run ∧ ∃ n, ∀ m, n ≤ m → Waiting (run m)

/-- R152, BC_FAIR: every action that stays pending is eventually performed. No rule assumes it (log entry 24). -/
def BcFair (run : Nat → State) : Prop :=
  ∀ n, (run n).bc.pending ≠ .none → ∃ m, n ≤ m ∧ (run m).bc.pending ≠ (run n).bc.pending

end Sys2Proof.Machine
end

