-- ==== Sys2Proof/Certificates/Slice0/Obligations.lean ====
section
/-! DEFINITION. Sys2Proof/Certificates/Slice0/Obligations.lean: the statements for the provers. -/

/-! ## What the statements share -/

namespace Sys2Proof.Machine

/-- An EH step may be taken and BC has nothing pending (R110, R137, R158). -/
abbrev EhStep (s : State) : Prop := s.refused = none ∧ s.bc.flag = true ∧ s.bc.pending = .none

/-- BC may perform a shift in the phase `f` (R144 to R147). -/
abbrev ShiftStep (f : BcPhase) (s : State) : Prop :=
  s.refused = none ∧ s.bc.en = true ∧ s.bc.pending = .shift ∧ s.bc.phase = f

/-- BC after CW_START with nothing pending (R66, R138). -/
def afterStart (bc : Bc) : Bc :=
  { bc with flag := false, en := true, ea := true, sta := true, ie := true, pending := .start }

/-- BC after CW_NEXT_NOACK with nothing pending (R66, R138). -/
def afterNextNoack (bc : Bc) : Bc :=
  { bc with flag := false, en := true, ea := false, sta := false, ie := true, pending := .shift }

/-- BC after CW_NEXT_ACK or CW_RELEASE with nothing pending (R66, R138). -/
def afterNextAck (bc : Bc) : Bc :=
  { bc with flag := false, en := true, ea := true, sta := false, ie := true, pending := .shift }

/-- BC after CW_STOP with nothing pending (R66, R138). -/
def afterStop (bc : Bc) : Bc :=
  { bc with flag := false, en := true, ea := true, sta := false, sto := true, ie := true, pending := .stop }

/-- BC after CW_REPSTART with nothing pending (R66, R138). -/
def afterRepstart (bc : Bc) : Bc :=
  { bc with flag := false, en := true, ea := true, sta := true, ie := false, pending := .start }

/-- BC after CW_INIT or CW_RESUME, which have INT = 0: the latched bits, and the races of R150 and R151. -/
def afterArm (s : State) : Bc :=
  let bc := { s.bc with en := true, ea := true, sta := false, ie := true }
  match s.bc.pending with
  | .start => if dropsStart s then { bc with pending := .none } else bc
  | .stop => if dropsStop s then { bc with pending := .none, sto := false } else bc
  | .none | .stopStart | .shift => bc

/-- BC after CW_START on a pending stop (R151). -/
def afterStartOnStop (s : State) : Bc :=
  if dropsStop s then { afterStart s.bc with sto := false } else { afterStart s.bc with pending := .stopStart }

/-- BC after a control word that is not launched: its bits are latched (R138). -/
def afterLatch (n : CtrlName) (bc : Bc) : Bc :=
  { bc with en := true, ea := n.bits.ea, sta := n.bits.sta, sto := n.bits.sto || bc.sto, ie := n.bits.ie }

/-- The byte of a control word under the machine's layout. -/
def State.cw (s : State) (n : CtrlName) : Byte := n.byte s.cfg.layout

/-- The machine with these events recorded. -/
def State.recorded (s : State) (es : List Event) : State := { s with trace := s.trace ++ es }

/-- The transfer's end in success (R87): a stop, or a repeated start that is held. -/
def completed (stop : Bool) (s : State) : State :=
  if stop then { s.recorded [.ctrl (s.cw .stop)] with bc := afterStop s.bc, mode := .idle }
  else { s.recorded [.ctrl (s.cw .repstart)] with bc := afterRepstart s.bc, mode := .idle, rsPending := true }

/-- The transfer's end in failure with the status `e` (R88). -/
def failed (e : Byte) (s : State) : State :=
  { s.recorded [.ctrl (s.cw .stop)] with bc := afterStop s.bc, lastErr := e, mode := .idle }

/-- BC after a step that completed with the status `st` in the phase `f` (R142, R144 to R146). -/
def reports (st : Byte) (f : BcPhase) (bc : Bc) : Bc :=
  { bc with status := st, phase := f, pending := .none, flag := true }

/-- The rows of the event handler (R73). -/
def isEventRow (i : Instr) : Bool := (encode .default i).format == .evt11

/-- The rows whose rule runs A_STORE (R86, R130, R131). -/
def isStoringRow (i : Instr) : Bool := i == .mrDataByteAckedOnReceive || i == .mrDataByteNackedOnReceive

/-- The six control words with INT = 1 (R66). -/
def isLaunching (n : CtrlName) : Bool := n != .init && n != .resume

/-- The CTRL8 row of a control word. -/
def controlRow : CtrlName → Instr
  | .init => .cwInit
  | .start => .cwStart
  | .resume => .cwResume
  | .nextNoack => .cwNextNoack
  | .nextAck => .cwNextAck
  | .stop => .cwStop
  | .repstart => .cwRepstart
  | .release => .cwRelease

end Sys2Proof.Machine

open Sys2Proof Sys2Proof.Machine

/-! ## Encoding -/

/-- Words written out from the encodings of R62, R66, R68 and R73 decode to the rows they stand for. -/
def Obligations.TableWordsDecode : Prop :=
  decodeTableWord 32 0x00000001 = some .init ∧
  decodeTableWord 32 0x0001070E = some (.write 0x70 1 true true [0]) ∧
  decodeTableWord 32 0x0028070F = some (.read 0x70 40 true) ∧
  decodeTableWord 32 0x00000802 = none ∧
  decodeTableWord 8 0xE5 = some .cwStart ∧
  decodeTableWord 8 0xD5 = some .cwStop ∧
  decodeTableWord 8 0x58 = some (.dataByteNackedOnReceive 0) ∧
  decodeTableWord 16 0x120 = some .mtAddressNackedForWrite ∧
  decodeTableWord 16 0x240 = some .mrAddressAckedForRead ∧
  decodeTableWord 16 0x228 = some (.mrOther 0x28) ∧
  decodeTableWord 16 0x608 = some (.reserved6Any 0x08)

/-- R69: every command word decodes to one of the three commands, or the port raises `Refuse(ReservedCommand)`. -/
def Obligations.CommandWordsDecodeOrRaiseReserved : Prop :=
  ∀ (w : BitVec 32) (data : List Byte) (s : State), s.refused = none →
    let op := w.extractLsb' 0 2
    let reserved := op = 0 ∨ w.extractLsb' 11 5 ≠ 0 ∨ w.extractLsb' 24 8 ≠ 0 ∨ (op = 1 ∧ w.extractLsb' 2 30 ≠ 0) ∨
      (op = 3 ∧ w.getLsbD 2 = false)
    (reserved → runCommand ⟨w, data⟩ s = .next { s with refused := some .reservedCommand }) ∧
    (¬reserved →
      decode s.cfg (.cmd32 w data) = .ok (
        if op = 1 then .init
        else if op = 2 then .write (w.extractLsb' 4 7) (w.extractLsb' 16 8) (w.getLsbD 2) (w.getLsbD 3) data
        else .read (w.extractLsb' 4 7) (w.extractLsb' 16 8) (w.getLsbD 3)))

/-- Decoding the encoding of a well-formed instruction gives it back, under every conforming STATUS_CODE and every
layout, and so does decoding its bytes (R49: least significant byte first), with whatever follows left over. CW_RESUME
and CW_RELEASE share their bytes with CW_INIT and CW_NEXT_ACK (R66; log entry 12). -/
def Obligations.DecodeOfEncode : Prop :=
  ∀ (c : Config) (i : Instr) (rest : List Byte), codesConform c = true → i.wf c = true →
    let j := if i = .cwResume then .cwInit else if i = .cwRelease then .cwNextAck else i
    decode c (encode c i) = .ok j ∧
    decodeBytes c (encode c i).format ((encode c i).bytes ++ rest) = .ok (j, rest)

/-- No bit of a command word, of WRITE's sequence, of a control word or of an event key is dropped: encoding what was
decoded gives the value back. (That INIT and READ drop a sequence presented with them: log entry 17.) Of a status, the
masked code comes back (R63). -/
def Obligations.EncodeOfDecode : Prop :=
  (∀ (c : Config) (w : BitVec 32) (data : List Byte) (i : Instr), decode c (.cmd32 w data) = .ok i →
    encode c i = .cmd32 w (if w.extractLsb' 0 2 = 2 then data else [])) ∧
  (∀ (c : Config) (v : Byte) (i : Instr), decode c (.ctrl8 v) = .ok i → encode c i = .ctrl8 v) ∧
  (∀ (c : Config) (k : BitVec 11) (i : Instr), decode c (.evt11 k) = .ok i → encode c i = .evt11 k) ∧
  (∀ (c : Config) (st x : Byte) (i : Instr), decode c (.stat8 st x) = .ok i →
    ∃ y : Byte, encode c i = .stat8 (st &&& c.statusMask) y)

/-- R66: the default bytes of the control words; no word has STA and STO; only CW_REPSTART has IE = 0; only CW_INIT and
CW_RESUME have INT = 0; the two pairs of equal bytes have equal meanings. -/
def Obligations.ControlWordComposition : Prop :=
  ([CtrlName.init, .start, .resume, .nextNoack, .nextAck, .stop, .repstart, .release].map (CtrlName.byte .avr) =
    [0x45, 0xE5, 0x45, 0x85, 0xC5, 0xD5, 0xE4, 0xC5]) ∧
  (∀ n : CtrlName, ¬(n.bits.sta = true ∧ n.bits.sto = true)) ∧
  (∀ n : CtrlName, n.bits.ie = false ↔ n = .repstart) ∧
  (∀ n : CtrlName, n.bits.int = false ↔ n = .init ∨ n = .resume) ∧
  (∀ n : CtrlName, n.bits.en = true) ∧
  (∀ c : Config, encode c .cwInit = encode c .cwResume ∧ encode c .cwNextAck = encode c .cwRelease) ∧
  (∀ s : State, exec .cwInit s = exec .cwResume s ∧ exec .cwNextAck s = exec .cwRelease s)

/-- R74: SLA_RW holds the address in bits 7:1 and the direction in bit 0. -/
def Obligations.AddressByteHoldsAddressAndDirection : Prop :=
  (∀ (a : BitVec 7) (dir : Bool),
    slaByte a dir = ((a.setWidth 8 <<< 1) &&& 0xFE#8) ||| (BitVec.ofBool dir).setWidth 8 ∧
    (slaByte a dir).extractLsb' 1 7 = a ∧ (slaByte a dir).getLsbD 0 = dir) ∧
  slaByte 0x70 false = 0xE0 ∧ slaByte 0x70 true = 0xE1 ∧ slaByte 0x7F false = 0xFE ∧ slaByte 0x7F true = 0xFF ∧
  slaByte 0x00 false = 0x00 ∧ slaByte 0x00 true = 0x01

/-! ## A step -/

/-- A step runs the instruction that its value decodes to: a command in FG's turn when FG is Ready (R91), the event key
in EH's turn while the notification line is high (R112), a status in BC's turn, a control word on the bench (log
entry 11). What the step does beside it: it takes the turn (or the bench write) with its race draw, and the command. -/
def Obligations.StepRunsTheDecodedInstruction : Prop :=
  ∀ (s : State) (i : Instr), s.refused = none → configOk s.cfg = true →
    (∀ (t : Turn) (ts : List Turn) (c : Command) (cs : List Command), s.bench = [] → s.sched = t :: ts →
      t.agent = .fg → s.fg.pc = .ready → s.host = c :: cs → decode s.cfg (.cmd32 c.word c.data) = .ok i →
      step s = exec i { s with sched := ts, drop := t.drop, host := cs }) ∧
    (∀ (t : Turn) (ts : List Turn), s.bench = [] → s.sched = t :: ts → t.agent = .eh → irq s = true →
      decode s.cfg (.evt11 (eventKey s.mode (maskedStatus s))) = .ok i →
      step s = exec i { s with sched := ts, drop := t.drop }) ∧
    (∀ (t : Turn) (ts : List Turn) (st x : Byte), s.bench = [] → s.sched = t :: ts → t.agent = .bc →
      t.ev = .status st x → decode s.cfg (.stat8 st x) = .ok i →
      step s = exec i { s with sched := ts, drop := t.drop }) ∧
    (∀ (w : BenchWrite) (ws : List BenchWrite), s.bench = w :: ws → decode s.cfg (.ctrl8 w.word) = .ok i →
      step s = exec i { s with bench := ws, drop := w.drop })

/-- R5, R6: a step is the turn of the agent that the schedule picks, the listed turn or a free one. -/
def Obligations.StepTakesAnAgentsTurn : Prop :=
  ∀ s : State, s.refused = none → configOk s.cfg = true → s.bench = [] →
    (∀ (t : Turn) (ts : List Turn), s.sched = t :: ts →
      step s = match t.agent with
        | .fg => fgTurn { s with sched := ts, drop := t.drop }
        | .eh => ehTurn { s with sched := ts, drop := t.drop }
        | .bc => bcTurn t.ev { s with sched := ts, drop := t.drop }) ∧
    (s.sched = [] → ∃ t : Turn,
      step s = match t.agent with
        | .fg => fgTurn { s with tick := s.tick + 1, drop := t.drop }
        | .eh => ehTurn { s with tick := s.tick + 1, drop := t.drop }
        | .bc => bcTurn t.ev { s with tick := s.tick + 1, drop := t.drop })

/-- R158: a run that carries the refusal mark takes no further step, and is never ended. (That the model says so by the
fault runStopped: log entry 6.) -/
def Obligations.RefusedRunTakesNoStep : Prop :=
  ∀ (s : State) (r : RefuseReason), s.refused = some r →
    step s = .fault (.runStopped r) ∧ (∀ i : Instr, exec i s = .fault (.runStopped r)) ∧ ¬Ended s

/-- R177: a configuration that is not valid is refused before anything else happens. -/
def Obligations.BadConfigurationIsRefused : Prop :=
  ∀ s : State, s.refused = none →
    (¬(1 ≤ s.cfg.cap ∧ s.cfg.cap ≤ 255 ∧ 1 ≤ s.cfg.fScl ∧ 16 ≤ s.cfg.fClk / s.cfg.fScl ∧
        (s.cfg.fClk / s.cfg.fScl - 16) / 2 ≤ 255 ∧ (codeList s.cfg.codes).Nodup ∧
        (∀ v ∈ codeList s.cfg.codes, v &&& s.cfg.statusMask = v ∧ v ≠ 0xFF)) →
      step s = .next { s with refused := some .badConfig })

/-- From a state without the mark a step always answers a next state, and keeps the configuration: ordinary data ends no
run. That EVERY such state has one is the model's totality and no rule of the spec: the turn of an agent that is not
enabled is a step that changes nothing (log entry 2), and a refusing step answers the marked state as its next one (log
entry 6). -/
def Obligations.StepAnswersNext : Prop :=
  ∀ s : State, s.refused = none → ∃ t, step s = .next t ∧ t.cfg = s.cfg

/-! ## Commands and FG -/

/-- R94: the divisor, the configurations that INIT refuses for it, and the rule's examples. -/
def Obligations.DivisorFormula : Prop :=
  (∀ f g : Nat, divisor f g =
    if g = 0 ∨ f / g < 16 ∨ 255 < (f / g - 16) / 2 then none else some (BitVec.ofNat 8 ((f / g - 16) / 2))) ∧
  divisor 16000000 100000 = some 72 ∧ divisor 16000000 400000 = some 12 ∧ divisor 8000000 100000 = some 32 ∧
  divisor 16000000 300000 = some 18 ∧ divisor 1000000 100000 = none ∧ divisor 16000000 10000 = none ∧
  (∀ s : State, s.refused = none → s.mode = .idle → s.rsPending = false → divisor s.cfg.fClk s.cfg.fScl = none →
    exec .init s = .next { s with refused := some .badConfig })

/-- R93: INIT arms BC, or raises InitPrecondition or BadConfig. Every other register is unchanged. -/
def Obligations.InitArmsTheController : Prop :=
  ∀ s : State, s.refused = none →
    (¬(s.mode = .idle ∧ s.rsPending = false) → exec .init s = .next { s with refused := some .initPrecondition }) ∧
    (s.mode = .idle → s.rsPending = false → divisor s.cfg.fClk s.cfg.fScl = none →
      exec .init s = .next { s with refused := some .badConfig }) ∧
    (∀ d, s.mode = .idle → s.rsPending = false → divisor s.cfg.fClk s.cfg.fScl = some d →
      exec .init s = .next { s.recorded [.ctrl (s.cw .init)] with
        mode := .idle, bc := { afterArm s with bitrate := d }, initDone := true, fg := { s.fg with pc := .ready } })

/-- R70, R95, R162: WRITE is accepted, or raises DataLength before NotInitialized. -/
def Obligations.WriteIsAccepted : Prop :=
  ∀ (s : State) (addr : BitVec 7) (len : BitVec 8) (wait stop : Bool) (data : List Byte), s.refused = none →
    (data.length ≠ len.toNat →
      exec (.write addr len wait stop data) s = .next { s with refused := some .dataLength }) ∧
    (data.length = len.toNat → s.initDone = false →
      exec (.write addr len wait stop data) s = .next { s with refused := some .notInitialized }) ∧
    (data.length = len.toNat → s.initDone = true →
      exec (.write addr len wait stop data) s = .next { s with fg := { s.fg with
        op := some .write, addr := some addr, len := some len, wait := some wait, stop := some stop,
        data := some data, pc := .wCheck } })

/-- R75, R103: READ is accepted with its length clamped to CAP, or raises NotInitialized before ZeroLengthRead. -/
def Obligations.ReadIsAccepted : Prop :=
  ∀ (s : State) (addr : BitVec 7) (len : BitVec 8) (stop : Bool), s.refused = none →
    (s.initDone = false → exec (.read addr len stop) s = .next { s with refused := some .notInitialized }) ∧
    (s.initDone = true → min len.toNat s.cfg.cap = 0 →
      exec (.read addr len stop) s = .next { s with refused := some .zeroLengthRead }) ∧
    (s.initDone = true → min len.toNat s.cfg.cap ≠ 0 → ∃ n : BitVec 8, n.toNat = min len.toNat s.cfg.cap ∧
      exec (.read addr len stop) s = .next { s with fg := { s.fg with
        op := some .read, addr := some addr, len := some n, stop := some stop, wait := some true, pc := .rWaitIdle } })

/-- R96: a WRITE longer than CAP answers TooLarge and touches nothing that EH or BC sees. -/
def Obligations.CheckAnswersTooLarge : Prop :=
  ∀ (s : State) (len : BitVec 8), s.refused = none → s.fg.pc = .wCheck → s.fg.len = some len →
    (s.cfg.cap < len.toNat →
      fgTurn s = .next { s.recorded [.result .tooLarge] with
        fg := { s.fg with result := some (.code .tooLarge), pc := .ready } }) ∧
    (len.toNat ≤ s.cfg.cap → fgTurn s = .next { s with fg := { s.fg with pc := .wWaitIdle } })

/-- R97, R100, R104, R107: a wait phase reads MODE once, and goes on exactly when it is Idle. -/
def Obligations.WaitPhasesReadMode : Prop :=
  ∀ (s : State) (p q : Phase), s.refused = none → s.fg.pc = p →
    (p, q) ∈ [(Phase.wWaitIdle, Phase.wSetup), (.wWaitDone, .wResult), (.rWaitIdle, .rSetup), (.rWaitDone, .rCopy)] →
    (s.mode = .idle → fgTurn s = .next { s with fg := { s.fg with pc := q } }) ∧
    (s.mode ≠ .idle → fgTurn s = .next s)

/-- R98: W_SETUP writes the transfer's registers and copies the data in, in one step; the bytes above keep theirs. -/
def Obligations.WriteSetup : Prop :=
  ∀ (s : State) (a : BitVec 7) (len : BitVec 8) (stop : Bool) (data : List Byte), s.refused = none →
    s.fg.pc = .wSetup → s.fg.addr = some a → s.fg.len = some len → s.fg.stop = some stop → s.fg.data = some data →
    data.length = len.toNat → len.toNat ≤ s.cfg.cap →
    ∃ m : Memory,
      fgTurn s = .next { s with
        mode := .masterTransmit, sendStop := some stop, lastErr := 0xFF, buf := m, len := len, idx := 0,
        slaRw := some (((a.setWidth 8 <<< 1) &&& 0xFE#8) ||| 0#8), fg := { s.fg with pc := .wTrigger } } ∧
      (∀ k, k < len.toNat → m.read k = data[k]?) ∧ (∀ k, len.toNat ≤ k → m.read k = s.buf.read k)

/-- R105: R_SETUP writes the transfer's registers; the buffer is not cleared. -/
def Obligations.ReadSetup : Prop :=
  ∀ (s : State) (a : BitVec 7) (len : BitVec 8) (stop : Bool), s.refused = none →
    s.fg.pc = .rSetup → s.fg.addr = some a → s.fg.len = some len → s.fg.stop = some stop →
    fgTurn s = .next { s with
      mode := .masterReceive, sendStop := some stop, lastErr := 0xFF, len := len, idx := 0,
      slaRw := some (((a.setWidth 8 <<< 1) &&& 0xFE#8) ||| 1#8), fg := { s.fg with pc := .rTrigger } }

/-- R99, R106: a trigger step consumes a pending repeated start, or requests a start. The start may land on a pending
stop (R151). The last clause, that on any other pending action it raises BusOverrun and stays in its phase, is the
model's (log entries 23 and 6). -/
def Obligations.TriggerConsumesOrStarts : Prop :=
  ∀ (s : State) (q : Phase), s.refused = none →
    ((s.fg.pc = .wTrigger ∧ s.fg.wait = some true ∧ q = .wWaitDone) ∨
      (s.fg.pc = .wTrigger ∧ s.fg.wait = some false ∧ q = .wResult) ∨ (s.fg.pc = .rTrigger ∧ q = .rWaitDone)) →
    (s.rsPending = true →
      fgTurn s = .next { s.recorded [.ctrl (s.cw .resume)] with
        rsPending := false, bc := afterArm s, fg := { s.fg with pc := q } }) ∧
    (s.rsPending = false → s.bc.pending = .none →
      fgTurn s = .next { s.recorded [.ctrl (s.cw .start)] with
        bc := afterStart s.bc, fg := { s.fg with pc := q } }) ∧
    (s.rsPending = false → s.bc.pending = .stop →
      fgTurn s = .next { s.recorded [.ctrl (s.cw .start)] with
        bc := afterStartOnStop s, fg := { s.fg with pc := q } }) ∧
    (s.rsPending = false → s.bc.pending ∈ [Pending.start, .stopStart, .shift] →
      fgTurn s = .next { s.recorded [.ctrl (s.cw .start)] with
        bc := afterLatch .start s.bc, refused := some .busOverrun })

/-- R101, R102: W_RESULT answers the class of LAST_ERR as it stands. -/
def Obligations.ResultClassifiesLastError : Prop :=
  ∀ s : State, s.refused = none → s.fg.pc = .wResult →
    let r : WriteResult :=
      if s.lastErr = 0xFF then .success
      else if s.lastErr = s.cfg.codes.addressNackedForWrite then .addressNacked
      else if s.lastErr = s.cfg.codes.dataByteNacked then .dataNacked
      else .otherError
    fgTurn s = .next { s.recorded [.result r] with fg := { s.fg with result := some (.code r), pc := .ready } }

/-- R108: R_COPY answers the count IDX and the bytes below it. -/
def Obligations.CopyAnswersTheBytesReceived : Prop :=
  ∀ s : State, s.refused = none → s.fg.pc = .rCopy → s.idx.toNat ≤ s.cfg.cap →
    (∀ i, i < s.idx.toNat → (s.buf.read i).isSome = true) →
    ∃ out : List Byte, out.length = s.idx.toNat ∧ (∀ i, i < s.idx.toNat → out[i]? = s.buf.read i) ∧
      fgTurn s = .next { s.recorded [.count s.idx.toNat out] with
        fg := { s.fg with out := some out, result := some (.count s.idx.toNat), pc := .ready } }

/-! ## BC's registers -/

/-- R138, R150, R151: what a control write of any byte does under any layout, one of the eight words or not. (What stays
of a write that raises BusOverrun, the recorded event and the latched bits: log entry 6.) -/
def Obligations.ControlWriteOfAnyByte : Prop :=
  ∀ (s : State) (v : Byte),
    let l := s.cfg.layout
    let int := v.getLsbD l.int.val
    let sta := v.getLsbD l.sta.val
    let sto := v.getLsbD l.sto.val
    let bc := { s.bc with
      en := v.getLsbD l.en.val, ea := v.getLsbD l.ea.val, ie := v.getLsbD l.ie.val, sta := sta, sto := sto || s.bc.sto }
    let s1 := s.recorded [.ctrl v]
    (int = true → s.bc.pending = .none → ctrlWrite v s = { s1 with
      bc := { bc with flag := false, pending := if sta then .start else if sto then .stop else .shift } }) ∧
    (int = true → s.bc.pending = .stop → sta = true → ctrlWrite v s = { s1 with
      bc := if s.cfg.stopRace = .mayDrop ∧ s.drop = true
        then { bc with flag := false, sto := false, pending := .start }
        else { bc with flag := false, pending := .stopStart } }) ∧
    (int = true → s.bc.pending ≠ .none → ¬(s.bc.pending = .stop ∧ sta = true) →
      ctrlWrite v s = { s1 with bc := bc, refused := some .busOverrun }) ∧
    (int = false → s.bc.pending = .start → ctrlWrite v s = { s1 with
      bc := if s.cfg.resumeRace = .mayDrop ∧ s.drop = true then { bc with pending := .none } else bc }) ∧
    (int = false → s.bc.pending = .stop → ctrlWrite v s = { s1 with
      bc := if s.cfg.stopRace = .mayDrop ∧ s.drop = true then { bc with sto := false, pending := .none } else bc }) ∧
    (int = false → s.bc.pending ≠ .start → s.bc.pending ≠ .stop → ctrlWrite v s = { s1 with bc := bc })

/-- R138: a control word with INT = 1, with nothing pending, clears the flag and launches its action. Nothing but the
trace and BC changes. -/
def Obligations.ControlWordsLaunch : Prop :=
  ∀ s : State, s.refused = none → s.bc.pending = .none →
    exec .cwStart s = .next { s.recorded [.ctrl (s.cw .start)] with bc := afterStart s.bc } ∧
    exec .cwNextNoack s = .next { s.recorded [.ctrl (s.cw .nextNoack)] with bc := afterNextNoack s.bc } ∧
    exec .cwNextAck s = .next { s.recorded [.ctrl (s.cw .nextAck)] with bc := afterNextAck s.bc } ∧
    exec .cwStop s = .next { s.recorded [.ctrl (s.cw .stop)] with bc := afterStop s.bc } ∧
    exec .cwRepstart s = .next { s.recorded [.ctrl (s.cw .repstart)] with bc := afterRepstart s.bc } ∧
    exec .cwRelease s = .next { s.recorded [.ctrl (s.cw .release)] with bc := afterNextAck s.bc }

/-- R138, R150, R151: CW_INIT and CW_RESUME have INT = 0: the flag stays, and only a race may drop a pending action. -/
def Obligations.ControlWordsArm : Prop :=
  ∀ s : State, s.refused = none →
    exec .cwInit s = .next { s.recorded [.ctrl (s.cw .init)] with bc := afterArm s } ∧
    exec .cwResume s = .next { s.recorded [.ctrl (s.cw .resume)] with bc := afterArm s }

/-- R151: a start request on a pending stop is sequenced after it, or drops it where the race and the draw allow. -/
def Obligations.StartOnPendingStop : Prop :=
  ∀ s : State, s.refused = none → s.bc.pending = .stop →
    exec .cwStart s = .next { s.recorded [.ctrl (s.cw .start)] with bc := afterStartOnStop s } ∧
    exec .cwRepstart s =
      .next { s.recorded [.ctrl (s.cw .repstart)] with bc := { afterStartOnStop s with ie := false } }

/-- R138: any other control write with INT = 1 on a pending action raises BusOverrun. That the recorded write and the
latched bits stay, beside the pending action and the flag, is the model's reading (log entry 6). -/
def Obligations.ControlWriteOnPendingActionOverruns : Prop :=
  ∀ (s : State) (n : CtrlName), s.refused = none → isLaunching n = true → s.bc.pending ≠ .none →
    ¬(s.bc.pending = .stop ∧ n.bits.sta = true) →
    exec (controlRow n) s = .next { s.recorded [.ctrl (s.cw n)] with
      bc := afterLatch n s.bc, refused := some .busOverrun }

/-- R139, R140, R141: the accesses to DATA, STATUS, CTRL (read) and BITRATE. A DATA write with the flag set is taken and
clears WC; else it is lost and sets WC (the AVR family's: log entry 8). Under the default mask STATUS bits 2:0 read 0. -/
def Obligations.RegisterAccesses : Prop :=
  ∀ s : State,
    (∀ b, s.bc.flag = true →
      dataWrite b s = { s.recorded [.data b] with bc := { s.bc with data := some b, wc := false } }) ∧
    (∀ b, s.bc.flag = false → dataWrite b s = { s.recorded [.data b] with bc := { s.bc with wc := true } }) ∧
    statusRead s = s.bc.status ∧
    (Invariant s → s.cfg.statusMask = 0xF8 → (statusRead s).extractLsb' 0 3 = 0) ∧
    (∀ b, s.bc.data = some b → dataRead s = .ok b) ∧ (s.bc.data = none → dataRead s = .error .unwrittenRead) ∧
    (s.cfg.layout = .avr →
      ctrlRead s = BitVec.ofBool s.bc.flag ++ BitVec.ofBool s.bc.ea ++ BitVec.ofBool s.bc.sta ++
        BitVec.ofBool s.bc.sto ++ BitVec.ofBool s.bc.wc ++ BitVec.ofBool s.bc.en ++ 0#1 ++ BitVec.ofBool s.bc.ie) ∧
    (∀ d, bitrateWrite d s = { s with bc := { s.bc with bitrate := d } })

/-! ## BC's steps -/

/-- R142: a start reports StartSent on a free bus and RepeatedStartSent on a held one. -/
def Obligations.StartIsReported : Prop :=
  ∀ s : State, s.refused = none → s.bc.en = true → s.bc.pending = .start →
    (s.bc.owned = false →
      exec .startSent s = .next { s.recorded [.busStart] with
        bc := { reports s.cfg.codes.startSent .addr s.bc with owned := true } }) ∧
    (s.bc.owned = true →
      exec .repeatedStartSent s = .next { s.recorded [.busRepStart] with
        bc := { reports s.cfg.codes.repeatedStartSent .addr s.bc with owned := true } })

/-- R143, R147: a stop releases the bus and notifies nobody (a start requested behind it stays pending), and a shift with
nothing to shift does nothing. -/
def Obligations.SilentSteps : Prop :=
  ∀ s : State, s.refused = none → s.bc.en = true →
    (s.bc.pending = .stop ∨ s.bc.pending = .stopStart →
      bcTurn .none s = .next { s.recorded (if s.bc.owned then [.busStop] else []) with
        bc := { s.bc with
          owned := false, phase := .none, sto := false, status := 0xF8,
          pending := if s.bc.pending = .stopStart then .start else .none } }) ∧
    (s.bc.pending = .shift → s.bc.phase = .none →
      bcTurn .none s = .next { s with bc := { s.bc with pending := .none } })

/-- R144: an address byte is acknowledged or not by the peripheral of its direction, or arbitration is lost; an address
byte without a value raises UnwrittenRead. -/
def Obligations.AddressShiftIsReported : Prop :=
  ∀ s : State, ShiftStep .addr s →
    (∀ b, s.bc.data = some b → b.getLsbD 0 = false →
      exec .addressAckedForWrite s = .next { s.recorded [.busByte b true] with
        bc := reports s.cfg.codes.addressAckedForWrite .txData s.bc } ∧
      exec .addressNackedForWrite s = .next { s.recorded [.busByte b false] with
        bc := reports s.cfg.codes.addressNackedForWrite .none s.bc }) ∧
    (∀ b, s.bc.data = some b → b.getLsbD 0 = true →
      exec .addressAckedForRead s = .next { s.recorded [.busByte b true] with
        bc := reports s.cfg.codes.addressAckedForRead .rxData s.bc } ∧
      exec .addressNackedForRead s = .next { s.recorded [.busByte b false] with
        bc := reports s.cfg.codes.addressNackedForRead .none s.bc }) ∧
    (∀ b x, s.bc.data = some b → s.cfg.arbLossAdmitted = true →
      exec (.arbitrationLost x) s = .next { s.recorded [.busArbLost] with
        bc := { reports s.cfg.codes.arbitrationLost .none s.bc with owned := false } }) ∧
    (s.bc.data = none →
      exec .addressAckedForWrite s = .next { s with refused := some .unwrittenRead } ∧
      exec .addressNackedForWrite s = .next { s with refused := some .unwrittenRead } ∧
      exec .addressAckedForRead s = .next { s with refused := some .unwrittenRead } ∧
      exec .addressNackedForRead s = .next { s with refused := some .unwrittenRead })

/-- R145: a data byte is acknowledged or not, or arbitration is lost. -/
def Obligations.DataByteOutIsReported : Prop :=
  ∀ (s : State) (b : Byte), ShiftStep .txData s → s.bc.data = some b →
    exec .dataByteAcked s = .next { s.recorded [.busByte b true] with
      bc := reports s.cfg.codes.dataByteAcked .txData s.bc } ∧
    exec .dataByteNacked s = .next { s.recorded [.busByte b false] with
      bc := reports s.cfg.codes.dataByteNacked .none s.bc } ∧
    (∀ x, s.cfg.arbLossAdmitted = true →
      exec (.arbitrationLost x) s = .next { s.recorded [.busArbLost] with
        bc := { reports s.cfg.codes.arbitrationLost .none s.bc with owned := false } })

/-- R146: a received byte is acknowledged by the master as `bc.ea` says; arbitration is lost only in the NACK bit. (That
the outcome ArbitrationLost at `bc.ea = 1`, which R146 does not admit, is a step that changes nothing: log entries 2 and
13.) -/
def Obligations.DataByteInIsReported : Prop :=
  ∀ (s : State) (x : Byte), ShiftStep .rxData s →
    (s.bc.ea = true →
      exec (.dataByteAckedOnReceive x) s = .next { s.recorded [.busByte x true] with
        bc := { reports s.cfg.codes.dataByteAckedOnReceive .rxData s.bc with data := some x } } ∧
      exec (.arbitrationLost x) s = .next s) ∧
    (s.bc.ea = false →
      exec (.dataByteNackedOnReceive x) s = .next { s.recorded [.busByte x false] with
        bc := { reports s.cfg.codes.dataByteNackedOnReceive .none s.bc with data := some x } } ∧
      (s.cfg.arbLossAdmitted = true →
        exec (.arbitrationLost x) s = .next { s.recorded [.busArbLost] with
          bc := { reports s.cfg.codes.arbitrationLost .none s.bc with owned := false, data := some x } }))

/-- R149: a bus error takes the place of a shift, with any unlisted status inside the mask, exactly where admitted. (That
the outcome is a step that changes nothing anywhere else: log entry 2.) -/
def Obligations.BusErrorTakesTheShiftsPlace : Prop :=
  ∀ (s : State) (e x : Byte), s.refused = none → e &&& s.cfg.statusMask = e →
    (∀ sym : StatusSymbol, s.cfg.codes.code sym ≠ e) →
    (s.cfg.busErrorAdmitted = true → s.bc.en = true → s.bc.pending = .shift → s.bc.phase ≠ .none →
      bcTurn (.status e x) s = .next { s.recorded [.busError e] with
        bc := { reports e .none s.bc with owned := false, sto := false } }) ∧
    (¬(s.cfg.busErrorAdmitted = true ∧ s.bc.en = true ∧ s.bc.pending = .shift ∧ s.bc.phase ≠ .none) →
      bcTurn (.status e x) s = .next s)

/-- R110 and 45_bus_controller.md section 3: EH takes no step while the notification line is low, and BC takes none while it
is disabled or has nothing pending. (That such a turn is a step that changes nothing: log entry 2.) -/
def Obligations.DisabledAgentsTakeNoStep : Prop :=
  ∀ (s : State) (e : Ev), s.refused = none →
    ((s.bc.flag = false ∨ s.bc.ie = false) → ehTurn s = .next s) ∧
    ((s.bc.en = false ∨ s.bc.pending = .none) → bcTurn e s = .next s)

/-- R155: what BC may report for the pending action. A step of BC that sets the flag reports a status of this list; of the
address statuses, only those of the direction in bit 0 of the address byte (R144). -/
def Obligations.BcReportsOnlyAdmittedStatuses : Prop :=
  ∀ (s t : State) (e : Ev), s.bc.flag = false → bcTurn e s = .next t → t.bc.flag = true →
    s.bc.en = true ∧
    ((s.bc.pending = .start ∧
        t.bc.status = if s.bc.owned then s.cfg.codes.repeatedStartSent else s.cfg.codes.startSent) ∨
     (s.bc.pending = .shift ∧ s.bc.phase = .addr ∧ ∃ b : Byte, s.bc.data = some b ∧
        (b.getLsbD 0 = false →
          (t.bc.status = s.cfg.codes.addressAckedForWrite ∧ t.bc.phase = .txData ∧
            t.trace = s.trace ++ [.busByte b true]) ∨
          (t.bc.status = s.cfg.codes.addressNackedForWrite ∧ t.bc.phase = .none ∧
            t.trace = s.trace ++ [.busByte b false])) ∧
        (b.getLsbD 0 = true →
          (t.bc.status = s.cfg.codes.addressAckedForRead ∧ t.bc.phase = .rxData ∧
            t.trace = s.trace ++ [.busByte b true]) ∨
          (t.bc.status = s.cfg.codes.addressNackedForRead ∧ t.bc.phase = .none ∧
            t.trace = s.trace ++ [.busByte b false]))) ∨
     (s.bc.pending = .shift ∧ s.bc.phase = .txData ∧
        t.bc.status ∈ [s.cfg.codes.dataByteAcked, s.cfg.codes.dataByteNacked]) ∨
     (s.bc.pending = .shift ∧ s.bc.phase = .rxData ∧
        t.bc.status = if s.bc.ea then s.cfg.codes.dataByteAckedOnReceive else s.cfg.codes.dataByteNackedOnReceive) ∨
     (s.bc.pending = .shift ∧ s.bc.phase ≠ .none ∧ ¬(s.bc.phase = .rxData ∧ s.bc.ea = true) ∧
        s.cfg.arbLossAdmitted = true ∧ t.bc.status = s.cfg.codes.arbitrationLost) ∨
     (s.bc.pending = .shift ∧ s.bc.phase ≠ .none ∧ s.cfg.busErrorAdmitted = true ∧
        ∀ sym : StatusSymbol, s.cfg.codes.code sym ≠ t.bc.status))

/-! ## EH -/

/-- R73, R112: in each mode an exact status row comes first, else the mode's default row. -/
def Obligations.EventKeySelectsTheRule : Prop :=
  ∀ s : State, codesConform s.cfg = true → irq s = true →
    let c := s.cfg.codes
    let e := maskedStatus s
    (s.mode = .masterTransmit →
      (e = c.startSent → ehTurn s = exec .mtStartSent s) ∧
      (e = c.repeatedStartSent → ehTurn s = exec .mtRepeatedStartSent s) ∧
      (e = c.addressAckedForWrite → ehTurn s = exec .mtAddressAckedForWrite s) ∧
      (e = c.dataByteAcked → ehTurn s = exec .mtDataByteAcked s) ∧
      (e = c.dataByteNacked → ehTurn s = exec .mtDataByteNacked s) ∧
      (e = c.addressNackedForWrite → ehTurn s = exec .mtAddressNackedForWrite s) ∧
      (e = c.arbitrationLost → ehTurn s = exec .mtArbitrationLost s) ∧
      (e ∉ [c.startSent, c.repeatedStartSent, c.addressAckedForWrite, c.dataByteAcked, c.dataByteNacked,
          c.addressNackedForWrite, c.arbitrationLost] → ehTurn s = exec (.mtOther e) s)) ∧
    (s.mode = .masterReceive →
      (e = c.startSent → ehTurn s = exec .mrStartSent s) ∧
      (e = c.repeatedStartSent → ehTurn s = exec .mrRepeatedStartSent s) ∧
      (e = c.addressAckedForRead → ehTurn s = exec .mrAddressAckedForRead s) ∧
      (e = c.dataByteAckedOnReceive → ehTurn s = exec .mrDataByteAckedOnReceive s) ∧
      (e = c.dataByteNackedOnReceive → ehTurn s = exec .mrDataByteNackedOnReceive s) ∧
      (e = c.addressNackedForRead → ehTurn s = exec .mrAddressNackedForRead s) ∧
      (e = c.arbitrationLost → ehTurn s = exec .mrArbitrationLost s) ∧
      (e ∉ [c.startSent, c.repeatedStartSent, c.addressAckedForRead, c.dataByteAckedOnReceive,
          c.dataByteNackedOnReceive, c.addressNackedForRead, c.arbitrationLost] → ehTurn s = exec (.mrOther e) s)) ∧
    (s.mode = .idle → ehTurn s = exec (.idleAny e) s) ∧
    (s.mode = .slaveTransmit → ehTurn s = exec (.slaveTransmitAny e) s) ∧
    (s.mode = .slaveReceive → ehTurn s = exec (.slaveReceiveAny e) s) ∧
    (s.mode = .reserved5 → ehTurn s = exec (.reserved5Any e) s) ∧
    (s.mode = .reserved6 → ehTurn s = exec (.reserved6Any e) s) ∧
    (s.mode = .reserved7 → ehTurn s = exec (.reserved7Any e) s)

/-- R118, R119, R127, R128: a start loads the address byte, then requests the next step with EA = 0. -/
def Obligations.StartLoadsTheAddress : Prop :=
  ∀ (s : State) (i : Instr) (b : Byte), EhStep s → s.slaRw = some b →
    i ∈ [Instr.mtStartSent, .mtRepeatedStartSent, .mrStartSent, .mrRepeatedStartSent] →
    exec i s = .next { s.recorded [.data b, .ctrl (s.cw .nextNoack)] with
      bc := { afterNextNoack s.bc with data := some b, wc := false } }

/-- R120, R121: an acknowledged address or data byte loads the next byte, or completes the transfer. -/
def Obligations.AcknowledgeSendsOrCompletes : Prop :=
  ∀ (s : State) (i : Instr), EhStep s → i ∈ [Instr.mtAddressAckedForWrite, .mtDataByteAcked] →
    (∀ b, s.idx.toNat < s.len.toNat → s.idx.toNat < s.cfg.cap → s.buf.read s.idx.toNat = some b →
      exec i s = .next { s.recorded [.data b, .ctrl (s.cw .nextNoack)] with
        idx := s.idx + 1, bc := { afterNextNoack s.bc with data := some b, wc := false } }) ∧
    (∀ stop, s.len.toNat ≤ s.idx.toNat → s.sendStop = some stop → exec i s = .next (completed stop s))

/-- R122 to R125, R132 to R134: every failure stops the bus, whatever SEND_STOP holds, and captures the status. -/
def Obligations.FailuresStopAndCapture : Prop :=
  ∀ (s : State) (e : Byte), EhStep s →
    exec .mtDataByteNacked s = .next (failed s.cfg.codes.dataByteNacked s) ∧
    exec .mtAddressNackedForWrite s = .next (failed s.cfg.codes.addressNackedForWrite s) ∧
    exec .mtArbitrationLost s = .next (failed s.cfg.codes.arbitrationLost s) ∧
    exec (.mtOther e) s = .next (failed e s) ∧
    exec .mrAddressNackedForRead s = .next (failed s.cfg.codes.addressNackedForRead s) ∧
    exec .mrArbitrationLost s = .next (failed s.cfg.codes.arbitrationLost s) ∧
    exec (.mrOther e) s = .next (failed e s)

/-- R129: the first byte will be ACKed exactly when it is not the last one expected. -/
def Obligations.ReadAddressRequestsTheFirstByte : Prop :=
  ∀ s : State, EhStep s →
    (s.idx.toNat + 1 < s.len.toNat →
      exec .mrAddressAckedForRead s = .next { s.recorded [.ctrl (s.cw .nextAck)] with bc := afterNextAck s.bc }) ∧
    (s.len.toNat ≤ s.idx.toNat + 1 →
      exec .mrAddressAckedForRead s = .next { s.recorded [.ctrl (s.cw .nextNoack)] with bc := afterNextNoack s.bc })

/-- R130: an ACKed byte is stored while there is room; then the next byte is requested, or a full buffer completes. -/
def Obligations.AckedByteIsStored : Prop :=
  ∀ (s : State) (x : Byte) (stop : Bool), EhStep s → s.bc.data = some x → s.sendStop = some stop →
    s.len.toNat ≤ s.cfg.cap →
    (s.idx.toNat < s.len.toNat → ∃ m : Memory,
      (∀ a, m.read a = if a = s.idx.toNat then some x else s.buf.read a) ∧
      exec .mrDataByteAckedOnReceive s = .next (
        if s.idx.toNat + 1 = s.len.toNat then completed stop { s with buf := m, idx := s.idx + 1 }
        else if s.idx.toNat + 2 < s.len.toNat then
          { s.recorded [.ctrl (s.cw .nextAck)] with buf := m, idx := s.idx + 1, bc := afterNextAck s.bc }
        else
          { s.recorded [.ctrl (s.cw .nextNoack)] with buf := m, idx := s.idx + 1, bc := afterNextNoack s.bc })) ∧
    (s.len.toNat ≤ s.idx.toNat → exec .mrDataByteAckedOnReceive s = .next (completed stop s))

/-- R131: the NACKed last byte is stored while there is room, and the transfer completes. -/
def Obligations.NackedByteCompletes : Prop :=
  ∀ (s : State) (x : Byte) (stop : Bool), EhStep s → s.bc.data = some x → s.sendStop = some stop →
    s.len.toNat ≤ s.cfg.cap →
    (s.idx.toNat < s.len.toNat → ∃ m : Memory,
      (∀ a, m.read a = if a = s.idx.toNat then some x else s.buf.read a) ∧
      exec .mrDataByteNackedOnReceive s = .next (completed stop { s with buf := m, idx := s.idx + 1 })) ∧
    (s.len.toNat ≤ s.idx.toNat → exec .mrDataByteNackedOnReceive s = .next (completed stop s))

/-- R114, R115, R116: a notification outside the master modes only clears the flag; a reserved MODE raises ReservedMode
and does nothing else. -/
def Obligations.OtherModesReleaseOrRefuse : Prop :=
  ∀ (s : State) (e : Byte),
    (EhStep s → ∀ i ∈ [Instr.idleAny e, .slaveTransmitAny e, .slaveReceiveAny e],
      exec i s = .next { s.recorded [.ctrl (s.cw .release)] with bc := afterNextAck s.bc }) ∧
    (s.refused = none → ∀ i ∈ [Instr.reserved5Any e, .reserved6Any e, .reserved7Any e],
      exec i s = .next { s with refused := some .reservedMode })

/-- R41, R52: a rule that reads a register or byte with no value raises UnwrittenRead, and one that reaches an index of
CAP or above raises BufferIndex; no value is used. That the statements before the raise keep their effect and those after
it have none (the byte that A_STORE stored stays where A_COMPLETE then finds no SEND_STOP; IDX does not advance where the
load or the store raises) is log entry 6; that a data shift, and ArbitrationLost, with nothing in DATA raise it too is log
entry 22. -/
def Obligations.ValuelessReadsRaise : Prop :=
  ∀ s : State, s.refused = none →
    (∀ i ∈ [Instr.mtStartSent, .mtRepeatedStartSent, .mrStartSent, .mrRepeatedStartSent],
      s.slaRw = none → exec i s = .next { s with refused := some .unwrittenRead }) ∧
    (∀ i ∈ [Instr.mtAddressAckedForWrite, .mtDataByteAcked],
      (s.len.toNat ≤ s.idx.toNat → s.sendStop = none → exec i s = .next { s with refused := some .unwrittenRead }) ∧
      (s.idx.toNat < s.len.toNat → s.idx.toNat < s.cfg.cap → s.buf.read s.idx.toNat = none →
        exec i s = .next { s with refused := some .unwrittenRead }) ∧
      (s.idx.toNat < s.len.toNat → s.cfg.cap ≤ s.idx.toNat →
        exec i s = .next { s with refused := some .bufferIndex })) ∧
    (∀ i ∈ [Instr.mrDataByteAckedOnReceive, .mrDataByteNackedOnReceive], s.idx.toNat < s.len.toNat →
      (s.bc.data = none → exec i s = .next { s with refused := some .unwrittenRead }) ∧
      (s.bc.data.isSome = true → s.cfg.cap ≤ s.idx.toNat → exec i s = .next { s with refused := some .bufferIndex })) ∧
    (s.sendStop = none →
      (s.len.toNat ≤ s.idx.toNat → ∀ i ∈ [Instr.mrDataByteAckedOnReceive, .mrDataByteNackedOnReceive],
        exec i s = .next { s with refused := some .unwrittenRead }) ∧
      (∀ x, s.idx.toNat < s.len.toNat → s.idx.toNat < s.cfg.cap → s.bc.data = some x → ∃ m : Memory,
        (∀ a, m.read a = if a = s.idx.toNat then some x else s.buf.read a) ∧
        exec .mrDataByteNackedOnReceive s =
          .next { s with buf := m, idx := s.idx + 1, refused := some .unwrittenRead } ∧
        (s.idx.toNat + 1 = s.len.toNat → exec .mrDataByteAckedOnReceive s =
          .next { s with buf := m, idx := s.idx + 1, refused := some .unwrittenRead }))) ∧
    (ShiftStep .txData s → s.bc.data = none → ∀ i ∈ [Instr.dataByteAcked, .dataByteNacked],
      exec i s = .next { s with refused := some .unwrittenRead }) ∧
    (ShiftStep .addr s ∨ ShiftStep .txData s → s.bc.data = none → s.cfg.arbLossAdmitted = true →
      ∀ x, exec (.arbitrationLost x) s = .next { s with refused := some .unwrittenRead })

/-- R80: an EH step that takes no refusal makes exactly one control write, as its last access to BC, after at most one
data write. -/
def Obligations.EhMakesOneControlWrite : Prop :=
  ∀ (i : Instr) (s t : State), isEventRow i = true → exec i s = .next t → t.refused = none →
    ∃ v : Byte, t.trace = s.trace ++ [.ctrl v] ∨ ∃ b : Byte, t.trace = s.trace ++ [.data b, .ctrl v]

/-- R113, R163: what an EH step leaves alone. BUF changes at most at IDX, and only in the two storing rows. -/
def Obligations.EhFrame : Prop :=
  ∀ (i : Instr) (s t : State), isEventRow i = true → exec i s = .next t →
    t.cfg = s.cfg ∧ t.fg = s.fg ∧ t.initDone = s.initDone ∧ t.sendStop = s.sendStop ∧ t.slaRw = s.slaRw ∧
    t.len = s.len ∧ t.host = s.host ∧ t.sched = s.sched ∧ t.tick = s.tick ∧ t.drop = s.drop ∧ t.bench = s.bench ∧
    t.bc.status = s.bc.status ∧ t.bc.bitrate = s.bc.bitrate ∧ t.bc.owned = s.bc.owned ∧ t.bc.phase = s.bc.phase ∧
    (∀ a, ¬(isStoringRow i = true ∧ a = s.idx.toNat) → t.buf.read a = s.buf.read a)

/-- R136: a step of BC changes no register of I2CM: only BC's own state, the trace and the refusal mark. -/
def Obligations.BcFrame : Prop :=
  ∀ (e : Ev) (s t : State), bcTurn e s = .next t →
    t = { s with bc := t.bc, trace := t.trace, refused := t.refused } ∧
    t.bc.en = s.bc.en ∧ t.bc.ea = s.bc.ea ∧ t.bc.sta = s.bc.sta ∧ t.bc.ie = s.bc.ie ∧ t.bc.wc = s.bc.wc ∧
    t.bc.bitrate = s.bc.bitrate

/-- R33, R161: FG never accesses DATA or STATUS, and no FG step sets the flag. -/
def Obligations.FgFrame : Prop :=
  ∀ s t : State, fgTurn s = .next t →
    t.cfg = s.cfg ∧ t.bc.data = s.bc.data ∧ t.bc.status = s.bc.status ∧ t.bc.wc = s.bc.wc ∧
    t.bc.owned = s.bc.owned ∧ t.bc.phase = s.bc.phase ∧ (t.bc.flag = true → s.bc.flag = true) ∧
    t.sched = s.sched ∧ t.tick = s.tick ∧ t.drop = s.drop ∧ t.bench = s.bench

/-! ## The machine as a whole -/

/-- R41, R43: the reset values of the block registers, of FG and of the model marks. -/
def Obligations.ResetValues : Prop :=
  let s := State.reset
  s.mode = .idle ∧ s.rsPending = false ∧ s.lastErr = 0xFF ∧ s.len = 0 ∧ s.idx = 0 ∧ s.sendStop = none ∧
  s.slaRw = none ∧ (∀ i, s.buf.read i = none) ∧ s.fg.pc = .ready ∧ s.fg.op = none ∧ s.fg.addr = none ∧
  s.fg.len = none ∧ s.fg.wait = none ∧ s.fg.stop = none ∧ s.fg.data = none ∧ s.fg.out = none ∧ s.fg.result = none ∧
  s.initDone = false ∧ s.refused = none ∧ s.trace = []

/-- The reset values of BC, which the spec takes from the AVR TWI (PRESUMED, log entry 8), and the masked line. -/
def Obligations.BcResetValues : Prop :=
  let s := State.reset
  ctrlRead s = 0x00 ∧ s.bc.status = 0xF8 ∧ s.bc.bitrate = 0x00 ∧ s.bc.data = none ∧ s.bc.flag = false ∧
  s.bc.wc = false ∧ s.bc.owned = false ∧ s.bc.phase = .none ∧ s.bc.pending = .none ∧ s.bc.en = false ∧
  s.bc.ea = false ∧ s.bc.sta = false ∧ s.bc.sto = false ∧ s.bc.ie = false ∧ irq s = false

/-- The invariant holds at reset. -/
def Obligations.InvariantAtReset : Prop := Invariant State.reset

/-- Every step keeps the invariant. -/
def Obligations.StepKeepsInvariant : Prop := ∀ s t : State, Invariant s → step s = .next t → Invariant t

/-- R158, R159: from a state of the invariant a step raises only refusals that an input causes: never ReservedMode,
BufferIndex, UnwrittenRead or BusOverrun. -/
def Obligations.NoUnreachableRefusal : Prop :=
  ∀ (s t : State) (r : RefuseReason), Invariant s → step s = .next t → t.refused = some r → r.byInput = true

/-- R117: the transitions of MODE. FG leaves Idle only in the setup steps, and only an EH step re-enters it, with no error
recorded or with the status it handled. -/
def Obligations.ModeTransitions : Prop :=
  ∀ s t : State, Invariant s → step s = .next t →
    (s.mode = .idle → t.mode = .idle ∨ (s.fg.pc = .wSetup ∧ t.mode = .masterTransmit) ∨
      (s.fg.pc = .rSetup ∧ t.mode = .masterReceive)) ∧
    (s.mode ≠ .idle → t.mode = s.mode ∨
      (t.mode = .idle ∧ irq s = true ∧ (t.lastErr = 0xFF ∨ t.lastErr = maskedStatus s)))

/-- R182: RS_PENDING is set only by an EH step that writes CW_REPSTART, and cleared only by a trigger step that writes
CW_RESUME. -/
def Obligations.RepeatedStartIsConsumedOnce : Prop :=
  ∀ s t : State, Invariant s → step s = .next t →
    (s.rsPending = false → t.rsPending = true →
      irq s = true ∧ s.sendStop = some false ∧ ∃ pre, t.trace = s.trace ++ pre ++ [.ctrl (s.cw .repstart)]) ∧
    (s.rsPending = true → t.rsPending = false → atTrigger s ∧ t.trace = s.trace ++ [.ctrl (s.cw .resume)])

/-- R114, R179: under BC's contract no notification is deliverable while MODE is Idle, and no write collision occurs. -/
def Obligations.NoStrayNotificationOrCollision : Prop :=
  ∀ s t : State, Invariant s → step s = .next t →
    (t.mode = .idle → irq t = false) ∧ (s.bc.wc = false → t.bc.wc = false)

/-- R185, R126(d): an EH step in a transfer either ends it, or leaves it running with a shift requested. -/
def Obligations.EhEndsOrShifts : Prop :=
  ∀ s t : State, Invariant s → s.mode ≠ .idle → irq s = true → s.refused = none → ehTurn s = .next t →
    t.refused = none ∧ (t.mode = .idle ∨ (t.mode = s.mode ∧ t.bc.pending = .shift ∧ t.bc.flag = false))

/-- R172: a hang is never left. While FG waits, MODE is not Idle and no EH step is enabled: FG's turn only repeats its wait
step, the state is not final, and a step that leaves BC's pending action as it is leaves the machine waiting, with nothing
recorded. So a state in which BC has nothing pending stays one, a run in which BC never completes its pending action
hangs, and for any number of steps the schedule admits that BC takes none (R152). (That a turn which changes nothing is a
step: log entry 2.) -/
def Obligations.HangPersists : Prop :=
  (∀ s : State, Waiting s → fgTurn s = .next s ∧ ¬Ended s) ∧
  (∀ s t : State, Invariant s → Waiting s → step s = .next t → t.bc.pending = s.bc.pending →
    Waiting t ∧ t.trace = s.trace) ∧
  (∀ s t : State, Invariant s → Hung s → step s = .next t → Hung t ∧ t.trace = s.trace) ∧
  (∀ (run : Nat → State) (n : Nat), IsRun run → Invariant (run n) → Waiting (run n) →
    (∀ m, n ≤ m → (run m).bc.pending = (run n).bc.pending) → Hangs run) ∧
  (∀ (s : State) (k : Nat), configOk s.cfg = true → Waiting s → s.drop = false →
    Host.Core.run Sys2Proof.core k { s with sched := List.replicate k { agent := .fg, drop := false, ev := .none } } =
      .next { s with sched := [] })

/-- R13: once a run has ended, no agent does anything more. (The turns that change nothing: log entry 2.) -/
def Obligations.EndedRunDoesNothing : Prop :=
  ∀ s t : State, Invariant s → Ended s → step s = .next t →
    t = { s with sched := t.sched, tick := t.tick, drop := t.drop } ∧ Ended t
end

