-- ==== Sys2Proof/Laws/Buffer.lean ====
section
/-! SUPPORT. Sys2Proof/Laws/Buffer.lean: BUF as a canonical list (R44, R48). -/

namespace Sys2Proof.Machine

/-- R48: a read after a write gives the byte written at its index, and what stood before at every other. -/
theorem Memory.read_write (m : Memory) (i : Nat) (v : Byte) (a : Nat) :
    (Memory.write m i v).read a = if a = i then some v else Memory.read m a := by
  induction m with
  | nil => simp [Memory.write, Memory.read]
  | cons c rest ih =>
    obtain ⟨b, w⟩ := c
    simp only [Memory.write]
    split
    · simp [Memory.read]
    · split
      · subst_vars
        simp only [Memory.read]
        split <;> simp_all
      · simp only [Memory.read, ih]
        split
        · split <;> simp_all
        · rfl

/-- A cell of a written buffer is the new one, or one that was there. -/
theorem Memory.mem_write {m : Memory} {i : Nat} {v : Byte} {c : Host.Cell} (h : c ∈ Memory.write m i v) :
    c = (i, v) ∨ c ∈ m := by
  induction m with
  | nil => simpa [Memory.write] using h
  | cons d rest ih =>
    obtain ⟨b, w⟩ := d
    simp only [Memory.write] at h
    split at h
    · simpa using h
    · split at h
      · simp only [List.mem_cons] at h ⊢
        tauto
      · simp only [List.mem_cons] at h ⊢
        rcases h with h | h
        · exact .inr (.inl h)
        · rcases ih h with h | h
          · exact .inl h
          · exact .inr (.inr h)

/-- A write keeps the canonical form. -/
theorem Memory.wf_write {m : Memory} (h : Memory.wf m = true) (i : Nat) (v : Byte) :
    Memory.wf (Memory.write m i v) = true := by
  induction m with
  | nil => simp [Memory.write, Memory.wf]
  | cons d rest ih =>
    obtain ⟨b, w⟩ := d
    simp only [Memory.wf, Bool.and_eq_true, List.all_eq_true, decide_eq_true_eq] at h
    simp only [Memory.write]
    split
    · rename_i hib
      simp only [Memory.wf, Bool.and_eq_true, List.all_eq_true, decide_eq_true_eq, List.mem_cons]
      refine ⟨?_, h.1, h.2⟩
      rintro c (rfl | hc)
      · exact hib
      · exact lt_trans hib (h.1 c hc)
    · split
      · subst_vars
        simpa only [Memory.wf, Bool.and_eq_true, List.all_eq_true, decide_eq_true_eq] using h
      · rename_i h1 h2
        simp only [Memory.wf, Bool.and_eq_true, List.all_eq_true, decide_eq_true_eq]
        refine ⟨fun c hc => ?_, ih h.2⟩
        rcases Memory.mem_write hc with rfl | hc
        · simp only; omega
        · exact h.1 c hc

/-- Reset's buffer, which lists nothing, has the canonical form. -/
theorem Memory.wf_nil : Memory.wf [] = true := rfl

end Sys2Proof.Machine
end

