-- ==== Sys2Proof/Laws/State.lean ====
section
/-! SUPPORT. Sys2Proof/Laws/State.lean: what the small updates of `State` leave in each field, and the equations of
`andThen`, `use` and `atomic`. -/

namespace Sys2Proof.Machine

@[simp] theorem State.raise_cfg (s : State) (r : RefuseReason) : (s.raise r).cfg = s.cfg := rfl
@[simp] theorem State.raise_mode (s : State) (r : RefuseReason) : (s.raise r).mode = s.mode := rfl
@[simp] theorem State.raise_sendStop (s : State) (r : RefuseReason) : (s.raise r).sendStop = s.sendStop := rfl
@[simp] theorem State.raise_rsPending (s : State) (r : RefuseReason) : (s.raise r).rsPending = s.rsPending := rfl
@[simp] theorem State.raise_lastErr (s : State) (r : RefuseReason) : (s.raise r).lastErr = s.lastErr := rfl
@[simp] theorem State.raise_slaRw (s : State) (r : RefuseReason) : (s.raise r).slaRw = s.slaRw := rfl
@[simp] theorem State.raise_buf (s : State) (r : RefuseReason) : (s.raise r).buf = s.buf := rfl
@[simp] theorem State.raise_len (s : State) (r : RefuseReason) : (s.raise r).len = s.len := rfl
@[simp] theorem State.raise_idx (s : State) (r : RefuseReason) : (s.raise r).idx = s.idx := rfl
@[simp] theorem State.raise_fg (s : State) (r : RefuseReason) : (s.raise r).fg = s.fg := rfl
@[simp] theorem State.raise_bc (s : State) (r : RefuseReason) : (s.raise r).bc = s.bc := rfl
@[simp] theorem State.raise_initDone (s : State) (r : RefuseReason) : (s.raise r).initDone = s.initDone := rfl
@[simp] theorem State.raise_refused (s : State) (r : RefuseReason) : (s.raise r).refused = some r := rfl
@[simp] theorem State.raise_trace (s : State) (r : RefuseReason) : (s.raise r).trace = s.trace := rfl
@[simp] theorem State.raise_host (s : State) (r : RefuseReason) : (s.raise r).host = s.host := rfl
@[simp] theorem State.raise_sched (s : State) (r : RefuseReason) : (s.raise r).sched = s.sched := rfl
@[simp] theorem State.raise_tick (s : State) (r : RefuseReason) : (s.raise r).tick = s.tick := rfl
@[simp] theorem State.raise_drop (s : State) (r : RefuseReason) : (s.raise r).drop = s.drop := rfl
@[simp] theorem State.raise_bench (s : State) (r : RefuseReason) : (s.raise r).bench = s.bench := rfl

@[simp] theorem State.record_cfg (s : State) (e : Event) : (s.record e).cfg = s.cfg := rfl
@[simp] theorem State.record_mode (s : State) (e : Event) : (s.record e).mode = s.mode := rfl
@[simp] theorem State.record_sendStop (s : State) (e : Event) : (s.record e).sendStop = s.sendStop := rfl
@[simp] theorem State.record_rsPending (s : State) (e : Event) : (s.record e).rsPending = s.rsPending := rfl
@[simp] theorem State.record_lastErr (s : State) (e : Event) : (s.record e).lastErr = s.lastErr := rfl
@[simp] theorem State.record_slaRw (s : State) (e : Event) : (s.record e).slaRw = s.slaRw := rfl
@[simp] theorem State.record_buf (s : State) (e : Event) : (s.record e).buf = s.buf := rfl
@[simp] theorem State.record_len (s : State) (e : Event) : (s.record e).len = s.len := rfl
@[simp] theorem State.record_idx (s : State) (e : Event) : (s.record e).idx = s.idx := rfl
@[simp] theorem State.record_fg (s : State) (e : Event) : (s.record e).fg = s.fg := rfl
@[simp] theorem State.record_bc (s : State) (e : Event) : (s.record e).bc = s.bc := rfl
@[simp] theorem State.record_initDone (s : State) (e : Event) : (s.record e).initDone = s.initDone := rfl
@[simp] theorem State.record_refused (s : State) (e : Event) : (s.record e).refused = s.refused := rfl
@[simp] theorem State.record_trace (s : State) (e : Event) : (s.record e).trace = s.trace ++ [e] := rfl
@[simp] theorem State.record_host (s : State) (e : Event) : (s.record e).host = s.host := rfl
@[simp] theorem State.record_sched (s : State) (e : Event) : (s.record e).sched = s.sched := rfl
@[simp] theorem State.record_tick (s : State) (e : Event) : (s.record e).tick = s.tick := rfl
@[simp] theorem State.record_drop (s : State) (e : Event) : (s.record e).drop = s.drop := rfl
@[simp] theorem State.record_bench (s : State) (e : Event) : (s.record e).bench = s.bench := rfl

@[simp] theorem State.goto_cfg (s : State) (p : Phase) : (s.goto p).cfg = s.cfg := rfl
@[simp] theorem State.goto_mode (s : State) (p : Phase) : (s.goto p).mode = s.mode := rfl
@[simp] theorem State.goto_sendStop (s : State) (p : Phase) : (s.goto p).sendStop = s.sendStop := rfl
@[simp] theorem State.goto_rsPending (s : State) (p : Phase) : (s.goto p).rsPending = s.rsPending := rfl
@[simp] theorem State.goto_lastErr (s : State) (p : Phase) : (s.goto p).lastErr = s.lastErr := rfl
@[simp] theorem State.goto_slaRw (s : State) (p : Phase) : (s.goto p).slaRw = s.slaRw := rfl
@[simp] theorem State.goto_buf (s : State) (p : Phase) : (s.goto p).buf = s.buf := rfl
@[simp] theorem State.goto_len (s : State) (p : Phase) : (s.goto p).len = s.len := rfl
@[simp] theorem State.goto_idx (s : State) (p : Phase) : (s.goto p).idx = s.idx := rfl
@[simp] theorem State.goto_fg (s : State) (p : Phase) : (s.goto p).fg = { s.fg with pc := p } := rfl
@[simp] theorem State.goto_bc (s : State) (p : Phase) : (s.goto p).bc = s.bc := rfl
@[simp] theorem State.goto_initDone (s : State) (p : Phase) : (s.goto p).initDone = s.initDone := rfl
@[simp] theorem State.goto_refused (s : State) (p : Phase) : (s.goto p).refused = s.refused := rfl
@[simp] theorem State.goto_trace (s : State) (p : Phase) : (s.goto p).trace = s.trace := rfl
@[simp] theorem State.goto_host (s : State) (p : Phase) : (s.goto p).host = s.host := rfl
@[simp] theorem State.goto_sched (s : State) (p : Phase) : (s.goto p).sched = s.sched := rfl
@[simp] theorem State.goto_tick (s : State) (p : Phase) : (s.goto p).tick = s.tick := rfl
@[simp] theorem State.goto_drop (s : State) (p : Phase) : (s.goto p).drop = s.drop := rfl
@[simp] theorem State.goto_bench (s : State) (p : Phase) : (s.goto p).bench = s.bench := rfl

/-- A statement after a step that raised nothing takes effect. -/
theorem State.andThen_of_running {s : State} (h : s.refused = none) (f : State → State) : s.andThen f = f s := by
  simp [State.andThen, h]

/-- A statement after a `raise` takes no effect (R158). -/
theorem State.andThen_of_refused {s : State} {r : RefuseReason} (h : s.refused = some r) (f : State → State) :
    s.andThen f = s := by
  simp [State.andThen, h]

@[simp] theorem State.use_ok {α : Type} (s : State) (a : α) (f : α → State → State) : s.use (.ok a) f = f a s := rfl

@[simp] theorem State.use_error {α : Type} (s : State) (e : RefuseReason) (f : α → State → State) :
    s.use (.error e) f = s.raise e := rfl

@[simp] theorem valued_some {α : Type} (a : α) : valued (some a) = .ok a := rfl

@[simp] theorem valued_none {α : Type} : valued (none : Option α) = .error .unwrittenRead := rfl

/-- An atomic step of a run without the mark answers next (R57, R111). -/
theorem atomic_of_running {s : State} (h : s.refused = none) (f : State → State) : atomic f s = .next (f s) := by
  simp [atomic, h]

/-- An atomic step of a marked run answers the fault (R158). -/
theorem atomic_of_refused {s : State} {r : RefuseReason} (h : s.refused = some r) (f : State → State) :
    atomic f s = .fault (.runStopped r) := by
  simp [atomic, h]

/-- An atomic step answers next exactly from a run without the mark. -/
theorem atomic_eq_next {s t : State} {f : State → State} : atomic f s = .next t ↔ s.refused = none ∧ f s = t := by
  cases h : s.refused <;> simp [atomic, h]

end Sys2Proof.Machine
end

