-- ==== Sys2Proof/Laws/BusController.lean ====
section
/-! SUPPORT. Sys2Proof/Laws/BusController.lean: what each step of BC does (45_bus_controller.md R142 to R149). -/

namespace Sys2Proof.Machine

/-- R142 on a free bus. -/
theorem performStart_free {s : State} (h : s.bc.owned = false) :
    performStart s = { s with
      trace := s.trace ++ [.busStart],
      bc := { s.bc with
        status := s.cfg.codes.startSent, owned := true, phase := .addr, pending := .none, flag := true } } := by
  simp [performStart, bcDone, h, State.record]

/-- R142 on a held bus. -/
theorem performStart_held {s : State} (h : s.bc.owned = true) :
    performStart s = { s with
      trace := s.trace ++ [.busRepStart],
      bc := { s.bc with
        status := s.cfg.codes.repeatedStartSent, owned := true, phase := .addr, pending := .none, flag := true } } := by
  simp [performStart, bcDone, h, State.record]

/-- R143. -/
theorem performStop_spec (s : State) :
    performStop s = { s with
      trace := s.trace ++ (if s.bc.owned then [.busStop] else []),
      bc := { s.bc with
        owned := false, phase := .none, sto := false, status := 0xF8,
        pending := if s.bc.pending = .stopStart then .start else .none } } := by
  cases h : s.bc.owned <;> simp [performStop, h, State.record]

/-- R144 to R146: the bus is lost. -/
theorem bcDone_bcArbLost (s : State) :
    bcDone (bcArbLost s) = { s with
      trace := s.trace ++ [.busArbLost],
      bc := { s.bc with
        status := s.cfg.codes.arbitrationLost, owned := false, phase := .none, pending := .none, flag := true } } := rfl

/-- R144, acknowledged. -/
theorem performAddress_ack (b : Byte) (s : State) :
    performAddress .ack b s = { s with
      trace := s.trace ++ [.busByte b true],
      bc := { s.bc with
        status := if directionBit b then s.cfg.codes.addressAckedForRead else s.cfg.codes.addressAckedForWrite,
        phase := if directionBit b then .rxData else .txData, pending := .none, flag := true } } := by
  cases h : directionBit b <;> simp [performAddress, bcDone, h, State.record]

/-- R144, not acknowledged. -/
theorem performAddress_nack (b : Byte) (s : State) :
    performAddress .nack b s = { s with
      trace := s.trace ++ [.busByte b false],
      bc := { s.bc with
        status := if directionBit b then s.cfg.codes.addressNackedForRead else s.cfg.codes.addressNackedForWrite,
        phase := .none, pending := .none, flag := true } } := by
  cases h : directionBit b <;> simp [performAddress, bcDone, h, State.record]

/-- R145, acknowledged. -/
theorem performDataOut_ack (b : Byte) (s : State) :
    performDataOut .ack b s = { s with
      trace := s.trace ++ [.busByte b true],
      bc := { s.bc with status := s.cfg.codes.dataByteAcked, pending := .none, flag := true } } := rfl

/-- R145, not acknowledged. -/
theorem performDataOut_nack (b : Byte) (s : State) :
    performDataOut .nack b s = { s with
      trace := s.trace ++ [.busByte b false],
      bc := { s.bc with status := s.cfg.codes.dataByteNacked, phase := .none, pending := .none, flag := true } } := rfl

/-- R146, with the master's acknowledge. -/
theorem performDataIn_ack {s : State} (x : Byte) (l : Bool) (h : s.bc.ea = true) :
    performDataIn x l s = { s with
      trace := s.trace ++ [.busByte x true],
      bc := { s.bc with data := some x, status := s.cfg.codes.dataByteAckedOnReceive, pending := .none, flag := true } } := by
  simp [performDataIn, bcDone, h, State.record]

/-- R146, without the master's acknowledge. -/
theorem performDataIn_nack {s : State} (x : Byte) (h : s.bc.ea = false) :
    performDataIn x false s = { s with
      trace := s.trace ++ [.busByte x false],
      bc := { s.bc with
        data := some x, status := s.cfg.codes.dataByteNackedOnReceive, phase := .none, pending := .none,
        flag := true } } := by
  simp [performDataIn, bcDone, h, State.record]

/-- R146, where the bus is lost in the master's NACK bit. -/
theorem performDataIn_lose {s : State} (x : Byte) (h : s.bc.ea = false) :
    performDataIn x true s = { s with
      trace := s.trace ++ [.busArbLost],
      bc := { s.bc with
        data := some x, status := s.cfg.codes.arbitrationLost, owned := false, phase := .none, pending := .none,
        flag := true } } := by
  simp [performDataIn, bcDone, bcArbLost, h, State.record]

/-- BC may take a step on the action `p`. -/
theorem bcEnabled_iff {p : Pending} {s : State} : bcEnabled p s = true ↔ s.bc.en = true ∧ s.bc.pending = p := by
  simp [bcEnabled]

/-- BC may perform a shift of the phase `f`. -/
theorem shiftEnabled_iff {f : BcPhase} {s : State} :
    shiftEnabled f s = true ↔ s.bc.en = true ∧ s.bc.pending = .shift ∧ s.bc.phase = f := by
  simp [shiftEnabled, bcEnabled, and_assoc]

end Sys2Proof.Machine
end

