-- ==== Sys2Proof/Laws/ControlBits.lean ====
section
/-! SUPPORT. Sys2Proof/Laws/ControlBits.lean: the control byte of named bits, under every layout (R31, R65). -/

namespace Sys2Proof

/-- The bits of a byte written out bit by bit. -/
theorem getLsbD_byteOfBits (f : Fin 8 → Bool) (i : Fin 8) :
    (byteOfBits (f 7) (f 6) (f 5) (f 4) (f 3) (f 2) (f 1) (f 0)).getLsbD i.val = f i := by
  have bits : ∀ b7 b6 b5 b4 b3 b2 b1 b0 : Bool,
      (byteOfBits b7 b6 b5 b4 b3 b2 b1 b0).getLsbD 0 = b0 ∧ (byteOfBits b7 b6 b5 b4 b3 b2 b1 b0).getLsbD 1 = b1 ∧
      (byteOfBits b7 b6 b5 b4 b3 b2 b1 b0).getLsbD 2 = b2 ∧ (byteOfBits b7 b6 b5 b4 b3 b2 b1 b0).getLsbD 3 = b3 ∧
      (byteOfBits b7 b6 b5 b4 b3 b2 b1 b0).getLsbD 4 = b4 ∧ (byteOfBits b7 b6 b5 b4 b3 b2 b1 b0).getLsbD 5 = b5 ∧
      (byteOfBits b7 b6 b5 b4 b3 b2 b1 b0).getLsbD 6 = b6 ∧ (byteOfBits b7 b6 b5 b4 b3 b2 b1 b0).getLsbD 7 = b7 := by
    decide
  obtain ⟨h0, h1, h2, h3, h4, h5, h6, h7⟩ := bits (f 7) (f 6) (f 5) (f 4) (f 3) (f 2) (f 1) (f 0)
  fin_cases i <;> assumption

/-- Bit `i` of a control byte is the named bit that the layout puts there. -/
theorem CtrlBits.getLsbD_toByte (l : CtrlLayout) (b : CtrlBits) (i : Fin 8) :
    (b.toByte l).getLsbD i.val = b.bitAt l i :=
  getLsbD_byteOfBits (b.bitAt l) i

/-- The positions of a layout differ. -/
theorem CtrlLayout.positions_differ (l : CtrlLayout) :
    [l.int, l.ea, l.sta, l.sto, l.wc, l.en, l.ie].Nodup := by
  have h := l.distinct
  simpa [allDistinct, List.nodup_cons, and_assoc] using h

/-- R31, R65: the named bits of a control byte read back as they were set. -/
theorem CtrlBits.ofByte_toByte (l : CtrlLayout) (b : CtrlBits) : CtrlBits.ofByte l (b.toByte l) = b := by
  have h := l.positions_differ
  simp only [List.nodup_cons, List.mem_cons, List.not_mem_nil, or_false, not_or] at h
  obtain ⟨⟨a1, a2, a3, a4, a5, a6⟩, ⟨b1, b2, b3, b4, b5⟩, ⟨c1, c2, c3, c4⟩, ⟨d1, d2, d3⟩, ⟨e1, e2⟩, f1, -⟩ := h
  have fwd {p q : Fin 8} (h : ¬p = q) : (p == q) = false := beq_eq_false_iff_ne.mpr h
  have bwd {p q : Fin 8} (h : ¬p = q) : (q == p) = false := beq_eq_false_iff_ne.mpr (Ne.symm h)
  cases b
  simp only [CtrlBits.ofByte, CtrlBits.getLsbD_toByte, CtrlBits.bitAt, fwd a1, fwd a2, fwd a3, fwd a5, fwd a6, fwd b1,
    fwd b2, fwd b4, fwd b5, fwd c1, fwd c3, fwd c4, fwd d2, fwd d3, fwd f1, bwd a1, bwd a2, bwd a3, bwd a5, bwd a6,
    bwd b1, bwd b2, bwd b4, bwd b5, bwd c1, bwd c3, bwd c4, bwd d2, bwd d3, bwd f1]
  simp

/-- The bits of a named control word, read back from its byte. -/
@[simp] theorem CtrlName.ofByte_byte (l : CtrlLayout) (n : CtrlName) : CtrlBits.ofByte l (n.byte l) = n.bits :=
  CtrlBits.ofByte_toByte l n.bits

/-- Two control words with one byte have the same bits. -/
theorem CtrlName.bits_eq_of_byte_eq {l : CtrlLayout} {m n : CtrlName} (h : m.byte l = n.byte l) : m.bits = n.bits := by
  rw [← CtrlName.ofByte_byte l m, h, CtrlName.ofByte_byte]

end Sys2Proof
end

