-- ==== Sys2Proof/Laws/Encoding.lean ====
section
/-! SUPPORT. Sys2Proof/Laws/Encoding.lean: the fields of command words and event keys, the symbols of status codes, and
the bytes of a command word (30_encoding.md R62 to R64, R67, R68, R73). -/

namespace Sys2Proof

/-! ## Status codes -/

/-- `symbolOf` answers a symbol of the code. -/
theorem StatusCodes.code_of_symbolOf {c : StatusCodes} {e : Byte} {x : StatusSymbol} (h : c.symbolOf e = some x) :
    c.code x = e := by
  simpa using List.find?_some h

/-- A byte without a symbol is no listed code. -/
theorem StatusCodes.symbolOf_eq_none {c : StatusCodes} {e : Byte} :
    c.symbolOf e = none ↔ ∀ x : StatusSymbol, c.code x ≠ e := by
  constructor
  · intro h x
    simp only [StatusCodes.symbolOf, StatusSymbol.all, List.find?_eq_none] at h
    have := h x (by cases x <;> decide)
    simpa using this
  · intro h
    simp [StatusCodes.symbolOf, h]

theorem allDistinct_iff_nodup {α : Type} [DecidableEq α] (l : List α) : allDistinct l = true ↔ l.Nodup := by
  induction l with
  | nil => simp [allDistinct]
  | cons a l ih => simp [allDistinct, ih]

namespace Machine

/-- R64(a): two symbols of one code are one symbol. -/
theorem code_injective {c : Config} (h : codesConform c = true) : Function.Injective c.codes.code := by
  simp only [codesConform, Bool.and_eq_true] at h
  have hn := (allDistinct_iff_nodup _).mp h.1
  have hm : ∀ x : StatusSymbol, x ∈ StatusSymbol.all := by intro x; cases x <;> decide
  exact fun x y e => List.inj_on_of_nodup_map hn (hm x) (hm y) e

/-- R64(a): a listed code has its own symbol. -/
theorem symbolOf_code {c : Config} (h : codesConform c = true) (x : StatusSymbol) :
    c.codes.symbolOf (c.codes.code x) = some x := by
  cases hs : c.codes.symbolOf (c.codes.code x) with
  | none => exact absurd rfl (StatusCodes.symbolOf_eq_none.mp hs x)
  | some y => rw [code_injective h (StatusCodes.code_of_symbolOf hs)]

/-- R64(b). -/
theorem code_masked {c : Config} (h : codesConform c = true) (x : StatusSymbol) :
    c.codes.code x &&& c.statusMask = c.codes.code x := by
  simp only [codesConform, Bool.and_eq_true, List.all_eq_true] at h
  have := h.2 (c.codes.code x) (List.mem_map.mpr ⟨x, by cases x <;> decide, rfl⟩)
  simpa using this.1

/-- R177: the codes of a valid configuration conform. -/
theorem codesConform_of_configOk {c : Config} (h : configOk c = true) : codesConform c = true := by
  simp only [configOk, Bool.and_eq_true] at h
  exact h.2

/-- R177: CAP fits the index registers. -/
theorem cap_le_of_configOk {c : Config} (h : configOk c = true) : c.cap ≤ 255 := by
  simp only [configOk, Bool.and_eq_true, decide_eq_true_eq] at h
  exact h.1.1.2

end Machine

/-! ## Event keys -/

@[simp] theorem Mode.ofBits_toBits (m : Mode) : Mode.ofBits m.toBits = m := by cases m <;> decide

@[simp] theorem Mode.toBits_ofBits (b : BitVec 3) : (Mode.ofBits b).toBits = b := by revert b; decide

/-- The mode bits of an event key. -/
@[simp] theorem eventKey_mode (m : Mode) (s : Byte) : (eventKey m s).extractLsb' 8 3 = m.toBits := by
  simp only [eventKey]; revert s; cases m <;> decide

/-- The status bits of an event key. -/
@[simp] theorem eventKey_status (m : Mode) (s : Byte) : (eventKey m s).extractLsb' 0 8 = s := by
  simp only [eventKey]; revert s; cases m <;> decide

/-- R112: what an event key decodes to. -/
theorem decode_eventKey (c : Config) (m : Mode) (s : Byte) :
    decode c (.evt11 (eventKey m s)) = .ok (decodeEvent c m s) := by
  simp only [decode, eventKey_mode, eventKey_status, Mode.ofBits_toBits]

/-! ## Command words -/

/-- A field of a bit vector, from its bits. -/
theorem extractLsb'_eq {n m k : Nat} {w : BitVec n} {v : BitVec m} (h : ∀ i, i < m → w.getLsbD (k + i) = v.getLsbD i) :
    w.extractLsb' k m = v := by
  apply BitVec.eq_of_getLsbD_eq
  intro i hi
  simp [hi, h i hi]

theorem writeWord_op (a : BitVec 7) (l : BitVec 8) (w t : Bool) : (writeWord a l w t).extractLsb' 0 2 = 2 := by
  refine extractLsb'_eq fun i hi => ?_
  simp only [writeWord, BitVec.getLsbD_append]
  interval_cases i <;> simp

theorem writeWord_wait (a : BitVec 7) (l : BitVec 8) (w t : Bool) : (writeWord a l w t).getLsbD 2 = w := by
  simp only [writeWord, BitVec.getLsbD_append]; simp

theorem writeWord_stop (a : BitVec 7) (l : BitVec 8) (w t : Bool) : (writeWord a l w t).getLsbD 3 = t := by
  simp only [writeWord, BitVec.getLsbD_append]; simp

theorem writeWord_addr (a : BitVec 7) (l : BitVec 8) (w t : Bool) : (writeWord a l w t).extractLsb' 4 7 = a := by
  refine extractLsb'_eq fun i hi => ?_
  simp only [writeWord, BitVec.getLsbD_append]
  interval_cases i <;> simp

theorem writeWord_reserved_low (a : BitVec 7) (l : BitVec 8) (w t : Bool) :
    (writeWord a l w t).extractLsb' 11 5 = 0 := by
  refine extractLsb'_eq fun i hi => ?_
  simp only [writeWord, BitVec.getLsbD_append]
  interval_cases i <;> simp

theorem writeWord_len (a : BitVec 7) (l : BitVec 8) (w t : Bool) : (writeWord a l w t).extractLsb' 16 8 = l := by
  refine extractLsb'_eq fun i hi => ?_
  simp only [writeWord, BitVec.getLsbD_append]
  interval_cases i <;> simp

theorem writeWord_reserved_high (a : BitVec 7) (l : BitVec 8) (w t : Bool) :
    (writeWord a l w t).extractLsb' 24 8 = 0 := by
  refine extractLsb'_eq fun i hi => ?_
  simp only [writeWord, BitVec.getLsbD_append]
  interval_cases i <;> simp

theorem readWord_op (a : BitVec 7) (l : BitVec 8) (t : Bool) : (readWord a l t).extractLsb' 0 2 = 3 := by
  refine extractLsb'_eq fun i hi => ?_
  simp only [readWord, BitVec.getLsbD_append]
  interval_cases i <;> simp

theorem readWord_wait (a : BitVec 7) (l : BitVec 8) (t : Bool) : (readWord a l t).getLsbD 2 = true := by
  simp only [readWord, BitVec.getLsbD_append]; simp

theorem readWord_stop (a : BitVec 7) (l : BitVec 8) (t : Bool) : (readWord a l t).getLsbD 3 = t := by
  simp only [readWord, BitVec.getLsbD_append]; simp

theorem readWord_addr (a : BitVec 7) (l : BitVec 8) (t : Bool) : (readWord a l t).extractLsb' 4 7 = a := by
  refine extractLsb'_eq fun i hi => ?_
  simp only [readWord, BitVec.getLsbD_append]
  interval_cases i <;> simp

theorem readWord_reserved_low (a : BitVec 7) (l : BitVec 8) (t : Bool) : (readWord a l t).extractLsb' 11 5 = 0 := by
  refine extractLsb'_eq fun i hi => ?_
  simp only [readWord, BitVec.getLsbD_append]
  interval_cases i <;> simp

theorem readWord_len (a : BitVec 7) (l : BitVec 8) (t : Bool) : (readWord a l t).extractLsb' 16 8 = l := by
  refine extractLsb'_eq fun i hi => ?_
  simp only [readWord, BitVec.getLsbD_append]
  interval_cases i <;> simp

theorem readWord_reserved_high (a : BitVec 7) (l : BitVec 8) (t : Bool) : (readWord a l t).extractLsb' 24 8 = 0 := by
  refine extractLsb'_eq fun i hi => ?_
  simp only [readWord, BitVec.getLsbD_append]
  interval_cases i <;> simp

/-- R49: the four bytes of a word, least significant first, give it back. -/
theorem wordOfBytes_bytes (w : BitVec 32) :
    wordOfBytes (w.extractLsb' 0 8) (w.extractLsb' 8 8) (w.extractLsb' 16 8) (w.extractLsb' 24 8) = w := by
  apply BitVec.eq_of_getLsbD_eq
  intro i hi
  simp only [wordOfBytes, BitVec.getLsbD_append, BitVec.getLsbD_extractLsb']
  interval_cases i <;> simp

end Sys2Proof
end

