-- ==== Sys2Proof/Laws/Ops.lean ====
section
/-! SUPPORT. Sys2Proof/Laws/Ops.lean: what each shared operation on BC's registers does (R138, R139, R150, R151). -/

namespace Sys2Proof.Machine

/-- R138: a control write with INT = 1 and nothing pending clears the flag and launches its action. -/
theorem writeControl_of_none {n : CtrlName} {s : State} (hi : n.bits.int = true) (hp : s.bc.pending = .none) :
    writeControl n s = { s.record (.ctrl (n.byte s.cfg.layout)) with
      bc := { s.bc with
        flag := false, en := n.bits.en, ea := n.bits.ea, sta := n.bits.sta, sto := n.bits.sto || s.bc.sto,
        ie := n.bits.ie, pending := if n.bits.sta then .start else if n.bits.sto then .stop else .shift } } := by
  simp [writeControl, ctrlWrite, launch, Bc.latch, hi, hp]

/-- R138: a control write with INT = 0 latches its bits; then only a race may act. -/
theorem writeControl_of_not_int {n : CtrlName} {s : State} (hi : n.bits.int = false) :
    writeControl n s =
      noLaunch { s.record (.ctrl (n.byte s.cfg.layout)) with bc := s.bc.latch n.bits } := by
  simp [writeControl, ctrlWrite, hi]

/-- R138, R150, R151: a control write with INT = 0 leaves the flag alone and requests nothing; a pending start or stop may
be dropped. -/
theorem writeControl_arms {n : CtrlName} {s : State} (hi : n.bits.int = false) :
    ∃ b : Bc, writeControl n s = { s with trace := s.trace ++ [.ctrl (n.byte s.cfg.layout)], bc := b } ∧
      b.flag = s.bc.flag ∧ b.ie = n.bits.ie ∧
      (b.pending = s.bc.pending ∨ b.pending = .none ∧ (s.bc.pending = .start ∨ s.bc.pending = .stop)) ∧
      b.status = s.bc.status ∧ b.data = s.bc.data ∧ b.owned = s.bc.owned ∧ b.phase = s.bc.phase ∧ b.wc = s.bc.wc ∧
      b.bitrate = s.bc.bitrate := by
  rw [writeControl_of_not_int hi]
  cases hp : s.bc.pending <;>
    simp only [noLaunch, Bc.latch, hp, State.record, resumeRaceOnWrite, stopRaceOnWrite]
  case start => split <;> exact ⟨_, rfl, by simp⟩
  case stop => split <;> exact ⟨_, rfl, by simp⟩
  all_goals exact ⟨_, rfl, by simp⟩

/-- R151: a start request on a pending stop. -/
theorem writeControl_of_stop {n : CtrlName} {s : State} (hi : n.bits.int = true) (ha : n.bits.sta = true)
    (hp : s.bc.pending = .stop) :
    writeControl n s =
      stopRaceOnStart { s.record (.ctrl (n.byte s.cfg.layout)) with bc := s.bc.latch n.bits } := by
  simp [writeControl, ctrlWrite, launch, Bc.latch, hi, ha, hp]

/-- A control write changes only the trace, BC and the refusal mark. -/
theorem ctrlWrite_frame (v : Byte) (s : State) :
    ctrlWrite v s = { s with
      trace := s.trace ++ [.ctrl v], bc := (ctrlWrite v s).bc, refused := (ctrlWrite v s).refused } := by
  simp only [ctrlWrite, launch, noLaunch, stopRaceOnStart, stopRaceOnWrite, resumeRaceOnWrite]
  split
  · split
    · rfl
    · split
      · split <;> rfl
      · rfl
    all_goals rfl
  · split
    · split <;> rfl
    · split <;> rfl
    all_goals rfl

/-- R138: what a control write never touches in BC. -/
theorem ctrlWrite_bc_frame (v : Byte) (s : State) :
    (ctrlWrite v s).bc.status = s.bc.status ∧ (ctrlWrite v s).bc.data = s.bc.data ∧
    (ctrlWrite v s).bc.wc = s.bc.wc ∧ (ctrlWrite v s).bc.bitrate = s.bc.bitrate ∧
    (ctrlWrite v s).bc.owned = s.bc.owned ∧ (ctrlWrite v s).bc.phase = s.bc.phase := by
  simp only [ctrlWrite, launch, noLaunch, stopRaceOnStart, stopRaceOnWrite, resumeRaceOnWrite, State.raise]
  split
  · split
    · simp [Bc.latch]
    · split
      · split <;> simp [Bc.latch]
      · simp [Bc.latch]
    all_goals simp [Bc.latch]
  · split
    · split <;> simp [Bc.latch]
    · split <;> simp [Bc.latch]
    all_goals simp [Bc.latch]

/-- R139: a DATA write with the flag set is taken. -/
theorem dataWrite_of_flag {s : State} (h : s.bc.flag = true) (b : Byte) :
    dataWrite b s = { s.record (.data b) with bc := { s.bc with data := some b, wc := false } } := by
  simp [dataWrite, h]

/-- R139: a DATA write without the flag is lost. -/
theorem dataWrite_of_not_flag {s : State} (h : s.bc.flag = false) (b : Byte) :
    dataWrite b s = { s.record (.data b) with bc := { s.bc with wc := true } } := by
  simp [dataWrite, h]

/-- R48, R52: a BUF write below CAP is made. -/
theorem memWrite_of_lt {s : State} {i : Nat} (h : i < s.cfg.cap) (v : Byte) :
    memWrite i v s = { s with buf := s.buf.write i v } := by
  simp [memWrite, Nat.not_le.mpr h]

/-- R48: a BUF read below CAP of a byte that holds a value. -/
theorem memRead_of_some {s : State} {i : Nat} {b : Byte} (h : i < s.cfg.cap) (hb : s.buf.read i = some b) :
    memRead s i = .ok b := by
  simp [memRead, Nat.not_le.mpr h, hb]

end Sys2Proof.Machine
end

