-- ==== Sys2Proof/Laws/Foreground.lean ====
section
/-! SUPPORT. Sys2Proof/Laws/Foreground.lean: what each micro-step of FG does (41_commands.md R96 to R108). -/

namespace Sys2Proof.Machine

/-- R98: the copy-in writes the first `n` bytes of `data` and leaves every other index alone. -/
theorem copyIn_spec (data : List Byte) (n : Nat) (s : State) (hs : s.refused = none) (hd : n ≤ data.length)
    (hc : n ≤ s.cfg.cap) :
    ∃ m : Memory, copyIn data n s = { s with buf := m } ∧
      (∀ k, m.read k = if k < n then data[k]? else s.buf.read k) ∧
      (s.buf.wf = true → m.wf = true) ∧ (∀ c ∈ m, c ∈ s.buf ∨ c.1 < n) := by
  induction n with
  | zero => exact ⟨s.buf, rfl, by simp, id, fun c hc => .inl hc⟩
  | succ n ih =>
    obtain ⟨m, hm, h1, h2, h3⟩ := ih (by omega) (by omega)
    have hb : data[n]? = some data[n] := by simp
    refine ⟨m.write n data[n], ?_, ?_, fun h => Memory.wf_write (h2 h) _ _, ?_⟩
    · rw [copyIn, hm, State.andThen_of_running (by simpa using hs), hb]
      simp only [valued_some, State.use_ok]
      rw [memWrite_of_lt (by simp only; omega)]
    · intro k
      rw [Memory.read_write, h1]
      by_cases e : k = n
      · subst e; simp
      · simp only [if_neg e]
        by_cases l : k < n
        · rw [if_pos l, if_pos (by omega)]
        · rw [if_neg l, if_neg (by omega)]
    · intro c hc
      rcases Memory.mem_write hc with rfl | hc
      · exact .inr (by simp)
      · rcases h3 c hc with h | h
        · exact .inl h
        · exact .inr (by omega)

/-- R98, with the registers that the accept step has written and a length that W_CHECK has passed. -/
theorem wSetup_spec {s : State} {a : BitVec 7} {len : BitVec 8} {stop : Bool} {data : List Byte}
    (hs : s.refused = none) (ha : s.fg.addr = some a) (hl : s.fg.len = some len) (hst : s.fg.stop = some stop)
    (hd : s.fg.data = some data) (hdl : data.length = len.toNat) (hlc : len.toNat ≤ s.cfg.cap) :
    ∃ m : Memory,
      wSetup s = { s with
        mode := .masterTransmit, sendStop := some stop, lastErr := noErrorYet, buf := m, len := len, idx := 0,
        slaRw := some (slaByte a false), fg := { s.fg with pc := .wTrigger } } ∧
      (∀ k, m.read k = if k < len.toNat then data[k]? else s.buf.read k) ∧
      (s.buf.wf = true → m.wf = true) ∧ (∀ c ∈ m, c ∈ s.buf ∨ c.1 < len.toNat) := by
  obtain ⟨m, hm, h⟩ := copyIn_spec data len.toNat
    { s with mode := .masterTransmit, sendStop := some stop, lastErr := noErrorYet } hs (by omega) hlc
  refine ⟨m, ?_, h⟩
  simp only at hm
  simp only [wSetup, hst, hl, hd, valued_some, State.use_ok]
  rw [hm, State.andThen_of_running]
  · simp only [ha, hl, hst, hd, valued_some, State.use_ok, State.goto]
  · exact hs

/-- R105, with the registers that the accept step has written. -/
theorem rSetup_spec {s : State} {a : BitVec 7} {len : BitVec 8} {stop : Bool}
    (ha : s.fg.addr = some a) (hl : s.fg.len = some len) (hst : s.fg.stop = some stop) :
    rSetup s = { s with
      mode := .masterReceive, sendStop := some stop, lastErr := noErrorYet, len := len, idx := 0,
      slaRw := some (slaByte a true), fg := { s.fg with pc := .rTrigger } } := by
  simp only [rSetup, ha, hst, hl, valued_some, State.use_ok, State.goto]

/-- R108: the copy-out of `n` bytes that have been written. -/
theorem copyOut_spec (s : State) (n : Nat) (hc : n ≤ s.cfg.cap) (h : ∀ i, i < n → (s.buf.read i).isSome = true) :
    ∃ out : List Byte, copyOut s n = .ok out ∧ out.length = n ∧ ∀ i, i < n → out[i]? = s.buf.read i := by
  induction n with
  | zero => exact ⟨[], rfl, rfl, by simp⟩
  | succ n ih =>
    obtain ⟨out, ho, hl, hi⟩ := ih (by omega) (fun i hi => h i (by omega))
    obtain ⟨b, hb⟩ := Option.isSome_iff_exists.mp (h n (by omega))
    refine ⟨out ++ [b], ?_, by simp [hl], ?_⟩
    · simp [copyOut, ho, memRead_of_some (show n < s.cfg.cap by omega) hb]
    · intro i hi'
      by_cases e : i < n
      · rw [List.getElem?_append_left (by omega)]; exact hi i e
      · obtain rfl : i = n := by omega
        rw [List.getElem?_append_right (by omega)]; simp [hl, hb]

/-- R108. -/
theorem rCopy_spec {s : State} (hc : s.idx.toNat ≤ s.cfg.cap)
    (h : ∀ i, i < s.idx.toNat → (s.buf.read i).isSome = true) :
    ∃ out : List Byte, out.length = s.idx.toNat ∧ (∀ i, i < s.idx.toNat → out[i]? = s.buf.read i) ∧
      rCopy s = { s with
        trace := s.trace ++ [.count s.idx.toNat out],
        fg := { s.fg with out := some out, result := some (.count s.idx.toNat), pc := .ready } } := by
  obtain ⟨out, ho, hl, hi⟩ := copyOut_spec s _ hc h
  exact ⟨out, hl, hi, by simp only [rCopy, ho, State.use_ok, State.record, State.goto]⟩

/-- R82, R99, R106: the trigger of a transfer that consumes a held repeated start. -/
theorem trigger_resume {s : State} (h : s.rsPending = true) :
    trigger s = writeControl .resume { s with rsPending := false } := by
  simp only [trigger, h, aResume, if_true]

/-- R81, R99, R106: the trigger of a transfer that starts afresh. -/
theorem trigger_start {s : State} (h : s.rsPending = false) : trigger s = writeControl .start s := by
  simp only [trigger, h, aTriggerStart, Bool.false_eq_true, if_false]

/-- R99: W_TRIGGER goes where WAIT says, when the trigger raised nothing. -/
theorem wTrigger_spec {s : State} {w : Bool} (hr : (trigger s).refused = none) (hw : (trigger s).fg.wait = some w) :
    wTrigger s = (trigger s).goto (if w then .wWaitDone else .wResult) := by
  simp only [wTrigger, State.andThen_of_running hr, hw, valued_some, State.use_ok]
  cases w <;> rfl

/-- R106, when the trigger raised nothing. -/
theorem rTrigger_spec {s : State} (hr : (trigger s).refused = none) : rTrigger s = (trigger s).goto .rWaitDone := by
  simp only [rTrigger, State.andThen_of_running hr]

end Sys2Proof.Machine
end

