-- ==== Sys2Proof/Laws/Invariant.lean ====
section
/-! SUPPORT. Sys2Proof/Laws/Invariant.lean: which updates of a state keep the invariant of Safety.lean, one lemma per kind
of step. -/

namespace Sys2Proof.Machine

/-- R110, R114: a notification is deliverable only while a transfer is on the bus, with nothing pending. -/
theorem Invariant.of_irq {s : State} (hi : Invariant s) (h : irq s = true) :
    ¬Quiet s ∧ s.rsPending = false ∧ s.bc.flag = true ∧ s.bc.ie = true ∧ s.bc.pending = .none := by
  simp only [irq, Bool.and_eq_true] at h
  have hq : ¬Quiet s := by
    intro q
    cases hr : s.rsPending
    · have := (hi.free q hr).1; simp_all
    · have := (hi.held q hr).1; simp_all
  refine ⟨hq, ?_, h.1, h.2, hi.flagPending h.1⟩
  cases hr : s.rsPending
  · rfl
  · exact absurd (hi.repeatedStart hr) hq

/-- R183: a pending shift belongs to a transfer on the bus. -/
theorem Invariant.not_quiet_of_shift {s : State} (hi : Invariant s) (hp : s.bc.pending = .shift) : ¬Quiet s := by
  intro q
  cases hr : s.rsPending
  · have := (hi.free q hr).2; simp_all
  · have := (hi.held q hr).2.2; have := hi.flagPending; simp_all

/-- The invariant does not read the inputs, the trace or the marks. -/
theorem Invariant.inputs {s : State} (hi : Invariant s) (host : List Command) (sched : List Turn) (tick : Nat)
    (drop : Bool) (refused : Option RefuseReason) (trace : List Event) (initDone : Bool) :
    Invariant { s with
      host := host, sched := sched, tick := tick, drop := drop, refused := refused, trace := trace,
      initDone := initDone } :=
  { config := hi.config, noBench := hi.noBench, bounds := hi.bounds, modes := hi.modes,
    repeatedStart := hi.repeatedStart, lastErr := hi.lastErr, noErrorInTransfer := hi.noErrorInTransfer,
    flagPending := hi.flagPending, free := hi.free, held := hi.held, running := hi.running, reported := hi.reported,
    live := hi.live, lastByte := hi.lastByte, shifting := hi.shifting, setupIdle := hi.setupIdle,
    triggerModes := hi.triggerModes, operands := hi.operands, receives := hi.receives, written := hi.written,
    toSend := hi.toSend, buffer := hi.buffer, foreground := hi.foreground, statusBits := hi.statusBits }

/-- An EH step that goes on with the transfer: it requests a shift. -/
theorem Invariant.shift {s t : State} (hi : Invariant s) (hq : ¬Quiet s) (hr : s.rsPending = false)
    (hcfg : t.cfg = s.cfg) (hbench : t.bench = s.bench) (hmode : t.mode = s.mode) (hrs : t.rsPending = s.rsPending)
    (hle : t.lastErr = s.lastErr) (hsla : t.slaRw = s.slaRw) (hstop : t.sendStop = s.sendStop) (hfg : t.fg = s.fg)
    (hlen : t.len = s.len) (hidx : t.idx.toNat ≤ s.len.toNat)
    (hbuf : ∀ i, (s.buf.read i).isSome → (t.buf.read i).isSome)
    (hw : ∀ i, i < t.idx.toNat → (t.buf.read i).isSome) (hwf : t.buf.wf = true ∧ ∀ c ∈ t.buf, c.1 < s.cfg.cap)
    (hflag : t.bc.flag = false) (hpend : t.bc.pending = .shift) (hown : t.bc.owned = true)
    (hphase : t.bc.phase ≠ .none) (hdata : t.bc.data.isSome) (hstatus : t.bc.status = s.bc.status) : Invariant t := by
  have hqt : ¬Quiet t := by
    unfold Quiet atTrigger at *
    rw [hmode, hfg]
    exact hq
  exact {
    config := by rw [hcfg]; exact hi.config
    noBench := by rw [hbench]; exact hi.noBench
    bounds := by rw [hlen, hcfg]; exact ⟨hidx, hi.bounds.2⟩
    modes := by rw [hmode]; exact hi.modes
    repeatedStart := by rw [hrs, hr]; simp
    lastErr := by rw [hle, hcfg]; exact hi.lastErr
    noErrorInTransfer := by rw [hmode, hle]; exact hi.noErrorInTransfer
    flagPending := by rw [hflag]; simp
    free := fun q => absurd q hqt
    held := fun q => absurd q hqt
    running := fun _ => by rw [hpend]; simp
    reported := by rw [hflag]; simp
    live := by rw [hflag]; simp
    lastByte := by rw [hflag]; simp
    shifting := fun _ => ⟨hown, hphase, hdata⟩
    setupIdle := by rw [hfg, hmode]; exact hi.setupIdle
    triggerModes := by rw [hfg, hmode]; exact hi.triggerModes
    operands := by rw [hmode, hsla, hstop]; exact hi.operands
    receives := by rw [hmode, hlen]; exact hi.receives
    written := hw
    toSend := by rw [hmode, hlen]; exact fun h i hil => hbuf i (hi.toSend h i hil)
    buffer := by rw [hcfg]; exact hwf
    foreground := by
      have := hi.foreground
      unfold FgHolds at *
      rw [hfg, hcfg, hlen]
      exact this
    statusBits := by rw [hstatus, hcfg]; exact hi.statusBits }

/-- An EH step that ends the transfer: a stop is requested, or a repeated start that is held. -/
theorem Invariant.transferEnd {s t : State} (hi : Invariant s) (hq : ¬Quiet s) (hcfg : t.cfg = s.cfg)
    (hbench : t.bench = s.bench) (hmode : t.mode = .idle) (hfg : t.fg = s.fg) (hlen : t.len = s.len)
    (hidx : t.idx.toNat ≤ s.len.toNat) (hw : ∀ i, i < t.idx.toNat → (t.buf.read i).isSome)
    (hwf : t.buf.wf = true ∧ ∀ c ∈ t.buf, c.1 < s.cfg.cap)
    (hle : t.lastErr = noErrorYet ∨ t.lastErr &&& s.cfg.statusMask = t.lastErr) (hflag : t.bc.flag = false)
    (hend : t.rsPending = false ∧ t.bc.pending = .stop ∨
      t.rsPending = true ∧ t.bc.pending = .start ∧ t.bc.ie = false ∧ t.bc.owned = true)
    (hstatus : t.bc.status = s.bc.status) : Invariant t := by
  have hqt : Quiet t := .inl hmode
  have ha : ¬atTrigger s := fun h => hq (.inr h)
  simp only [atTrigger, not_or] at ha
  exact {
    config := by rw [hcfg]; exact hi.config
    noBench := by rw [hbench]; exact hi.noBench
    bounds := by rw [hlen, hcfg]; exact ⟨hidx, hi.bounds.2⟩
    modes := .inl hmode
    repeatedStart := fun _ => hqt
    lastErr := by rw [hcfg]; exact hle
    noErrorInTransfer := by rw [hmode]; simp
    flagPending := by rw [hflag]; simp
    free := fun _ hr => by
      rcases hend with h | h
      · exact ⟨hflag, .inr h.2⟩
      · rw [hr] at h; simp at h
    held := fun _ hr => by
      rcases hend with h | h
      · rw [hr] at h; simp at h
      · exact ⟨h.2.2.1, h.2.2.2, .inr h.2.1⟩
    running := fun q => absurd hqt q
    reported := by rw [hflag]; simp
    live := by rw [hflag]; simp
    lastByte := by rw [hflag]; simp
    shifting := fun h => by rcases hend with e | e <;> simp_all
    setupIdle := fun _ => hmode
    triggerModes := by rw [hfg]; exact ⟨fun h => absurd h ha.1, fun h => absurd h ha.2⟩
    operands := by rw [hmode]; simp
    receives := by rw [hmode]; simp
    written := hw
    toSend := by rw [hmode]; simp
    buffer := by rw [hcfg]; exact hwf
    foreground := by
      have := hi.foreground
      unfold FgHolds at *
      rw [hfg, hcfg, hlen]
      exact this
    statusBits := by rw [hstatus, hcfg]; exact hi.statusBits }

/-- A BC step that completes an action and sets the flag. -/
theorem Invariant.completes {s : State} {b : Bc} {trace : List Event} (hi : Invariant s)
    (hq : Quiet s → s.rsPending = true ∧ b.owned = true) (hflag : b.flag = true) (hpend : b.pending = .none)
    (hie : b.ie = s.bc.ie) (hmask : b.status &&& s.cfg.statusMask = b.status)
    (hread : b.status = s.cfg.codes.startSent ∨ b.status = s.cfg.codes.repeatedStartSent ∨ b.data.isSome)
    (hlive : Continues s.cfg.codes b.status → b.owned = true ∧ b.phase ≠ .none)
    (hlast : b.status = s.cfg.codes.dataByteNackedOnReceive → b.owned = true) :
    Invariant { s with bc := b, trace := trace } :=
  { config := hi.config, noBench := hi.noBench, bounds := hi.bounds, modes := hi.modes,
    repeatedStart := hi.repeatedStart, lastErr := hi.lastErr, noErrorInTransfer := hi.noErrorInTransfer,
    flagPending := fun _ => hpend,
    free := fun q hr => by have := (hq q).1; simp_all
    held := fun q hr => ⟨by rw [hie]; exact (hi.held q hr).1, (hq q).2, .inl hflag⟩
    running := fun _ => by rw [hpend]; simp
    reported := fun _ => ⟨hmask, hread⟩, live := fun _ => hlive, lastByte := fun _ => hlast
    shifting := by rw [hpend]; simp
    setupIdle := hi.setupIdle, triggerModes := hi.triggerModes, operands := hi.operands, receives := hi.receives,
    written := hi.written, toSend := hi.toSend, buffer := hi.buffer, foreground := hi.foreground,
    statusBits := .inl hmask }

/-- An FG step, other than a setup or a trigger, that changes only FG's registers. -/
theorem Invariant.foregroundOnly {s : State} {f : Fg} (hi : Invariant s)
    (hs : s.fg.pc ≠ .wTrigger ∧ s.fg.pc ≠ .rTrigger) (hf : f.pc ≠ .wTrigger ∧ f.pc ≠ .rTrigger)
    (hidle : f.pc = .wSetup ∨ f.pc = .rSetup → s.mode = .idle) (hholds : FgHolds { s with fg := f }) :
    Invariant { s with fg := f } := by
  have hq : Quiet { s with fg := f } ↔ Quiet s := by
    simp only [Quiet, atTrigger, hs.1, hs.2, hf.1, hf.2]
  exact {
    config := hi.config, noBench := hi.noBench, bounds := hi.bounds, modes := hi.modes,
    repeatedStart := fun h => hq.mpr (hi.repeatedStart h), lastErr := hi.lastErr,
    noErrorInTransfer := hi.noErrorInTransfer, flagPending := hi.flagPending, free := fun q => hi.free (hq.mp q),
    held := fun q => hi.held (hq.mp q), running := fun q => hi.running (fun p => q (hq.mpr p)),
    reported := hi.reported, live := hi.live, lastByte := hi.lastByte, shifting := hi.shifting, setupIdle := hidle,
    triggerModes := ⟨fun h => absurd h hf.1, fun h => absurd h hf.2⟩, operands := hi.operands,
    receives := hi.receives, written := hi.written, toSend := hi.toSend, buffer := hi.buffer, foreground := hholds,
    statusBits := hi.statusBits }

end Sys2Proof.Machine
end

