-- ==== Sys2Proof/Laws/PerInstr.lean ====
section
/-! SUPPORT. Sys2Proof/Laws/PerInstr.lean: every instruction's word under the default parameters is a word of its row of
spec/opcode_table.json: it has the row's fixed bits. -/

namespace Sys2Proof.Laws.TableRow

/-- The fixed bits of each row of spec/opcode_table.json, as a mask and the value under it. -/
def row : Instr → BitVec 32 × BitVec 32
  | .init => (0xFFFFFFFF, 0x00000001)
  | .write _ _ _ _ _ => (0xFF00F803, 0x00000002)
  | .read _ _ _ => (0xFF00F807, 0x00000007)
  | .cwInit => (0x000000FF, 0x00000045)
  | .cwStart => (0x000000FF, 0x000000E5)
  | .cwResume => (0x000000FF, 0x00000045)
  | .cwNextNoack => (0x000000FF, 0x00000085)
  | .cwNextAck => (0x000000FF, 0x000000C5)
  | .cwStop => (0x000000FF, 0x000000D5)
  | .cwRepstart => (0x000000FF, 0x000000E4)
  | .cwRelease => (0x000000FF, 0x000000C5)
  | .startSent => (0x000000F8, 0x00000008)
  | .repeatedStartSent => (0x000000F8, 0x00000010)
  | .addressAckedForWrite => (0x000000F8, 0x00000018)
  | .addressNackedForWrite => (0x000000F8, 0x00000020)
  | .dataByteAcked => (0x000000F8, 0x00000028)
  | .dataByteNacked => (0x000000F8, 0x00000030)
  | .arbitrationLost _ => (0x000000F8, 0x00000038)
  | .addressAckedForRead => (0x000000F8, 0x00000040)
  | .addressNackedForRead => (0x000000F8, 0x00000048)
  | .dataByteAckedOnReceive _ => (0x000000F8, 0x00000050)
  | .dataByteNackedOnReceive _ => (0x000000F8, 0x00000058)
  | .mtStartSent => (0x000007FF, 0x00000108)
  | .mtRepeatedStartSent => (0x000007FF, 0x00000110)
  | .mtAddressAckedForWrite => (0x000007FF, 0x00000118)
  | .mtDataByteAcked => (0x000007FF, 0x00000128)
  | .mtDataByteNacked => (0x000007FF, 0x00000130)
  | .mtAddressNackedForWrite => (0x000007FF, 0x00000120)
  | .mtArbitrationLost => (0x000007FF, 0x00000138)
  | .mtOther _ => (0x00000700, 0x00000100)
  | .mrStartSent => (0x000007FF, 0x00000208)
  | .mrRepeatedStartSent => (0x000007FF, 0x00000210)
  | .mrAddressAckedForRead => (0x000007FF, 0x00000240)
  | .mrDataByteAckedOnReceive => (0x000007FF, 0x00000250)
  | .mrDataByteNackedOnReceive => (0x000007FF, 0x00000258)
  | .mrAddressNackedForRead => (0x000007FF, 0x00000248)
  | .mrArbitrationLost => (0x000007FF, 0x00000238)
  | .mrOther _ => (0x00000700, 0x00000200)
  | .idleAny _ => (0x00000700, 0x00000000)
  | .slaveTransmitAny _ => (0x00000700, 0x00000300)
  | .slaveReceiveAny _ => (0x00000700, 0x00000400)
  | .reserved5Any _ => (0x00000700, 0x00000500)
  | .reserved6Any _ => (0x00000700, 0x00000600)
  | .reserved7Any _ => (0x00000700, 0x00000700)

/-- The word of an instruction, zero-extended to 32 bits. -/
def word (i : Instr) : BitVec 32 :=
  match encode .default i with
  | .cmd32 w _ => w
  | .ctrl8 v => v.setWidth 32
  | .stat8 st _ => st.setWidth 32
  | .evt11 k => k.setWidth 32

/-- The instruction's word has the fixed bits of its row. -/
def Statement (i : Instr) : Prop := word i &&& (row i).1 = (row i).2

theorem init : Statement .init := by unfold Statement; decide

theorem write (a : BitVec 7) (l : BitVec 8) (w p : Bool) (d : List Byte) : Statement (.write a l w p d) := by
  show writeWord a l w p &&& 0xFF00F803#32 = 0x00000002#32
  apply BitVec.eq_of_getLsbD_eq
  intro i hi
  simp only [writeWord, BitVec.getLsbD_and, BitVec.getLsbD_append]
  interval_cases i <;> simp

theorem read (a : BitVec 7) (l : BitVec 8) (p : Bool) : Statement (.read a l p) := by
  show readWord a l p &&& 0xFF00F807#32 = 0x00000007#32
  apply BitVec.eq_of_getLsbD_eq
  intro i hi
  simp only [readWord, BitVec.getLsbD_and, BitVec.getLsbD_append]
  interval_cases i <;> simp

theorem cwInit : Statement .cwInit := by unfold Statement; decide

theorem cwStart : Statement .cwStart := by unfold Statement; decide

theorem cwResume : Statement .cwResume := by unfold Statement; decide

theorem cwNextNoack : Statement .cwNextNoack := by unfold Statement; decide

theorem cwNextAck : Statement .cwNextAck := by unfold Statement; decide

theorem cwStop : Statement .cwStop := by unfold Statement; decide

theorem cwRepstart : Statement .cwRepstart := by unfold Statement; decide

theorem cwRelease : Statement .cwRelease := by unfold Statement; decide

theorem startSent : Statement .startSent := by unfold Statement; decide

theorem repeatedStartSent : Statement .repeatedStartSent := by unfold Statement; decide

theorem addressAckedForWrite : Statement .addressAckedForWrite := by unfold Statement; decide

theorem addressNackedForWrite : Statement .addressNackedForWrite := by unfold Statement; decide

theorem dataByteAcked : Statement .dataByteAcked := by unfold Statement; decide

theorem dataByteNacked : Statement .dataByteNacked := by unfold Statement; decide

theorem arbitrationLost (x : Byte) : Statement (.arbitrationLost x) := by
  simp only [Statement, word, row, encode]; decide

theorem addressAckedForRead : Statement .addressAckedForRead := by unfold Statement; decide

theorem addressNackedForRead : Statement .addressNackedForRead := by unfold Statement; decide

theorem dataByteAckedOnReceive (x : Byte) : Statement (.dataByteAckedOnReceive x) := by
  simp only [Statement, word, row, encode]; decide

theorem dataByteNackedOnReceive (x : Byte) : Statement (.dataByteNackedOnReceive x) := by
  simp only [Statement, word, row, encode]; decide

theorem mtStartSent : Statement .mtStartSent := by unfold Statement; decide

theorem mtRepeatedStartSent : Statement .mtRepeatedStartSent := by unfold Statement; decide

theorem mtAddressAckedForWrite : Statement .mtAddressAckedForWrite := by unfold Statement; decide

theorem mtDataByteAcked : Statement .mtDataByteAcked := by unfold Statement; decide

theorem mtDataByteNacked : Statement .mtDataByteNacked := by unfold Statement; decide

theorem mtAddressNackedForWrite : Statement .mtAddressNackedForWrite := by unfold Statement; decide

theorem mtArbitrationLost : Statement .mtArbitrationLost := by unfold Statement; decide

theorem mtOther (s : Byte) : Statement (.mtOther s) := by
  unfold Statement word row; revert s; decide

theorem mrStartSent : Statement .mrStartSent := by unfold Statement; decide

theorem mrRepeatedStartSent : Statement .mrRepeatedStartSent := by unfold Statement; decide

theorem mrAddressAckedForRead : Statement .mrAddressAckedForRead := by unfold Statement; decide

theorem mrDataByteAckedOnReceive : Statement .mrDataByteAckedOnReceive := by unfold Statement; decide

theorem mrDataByteNackedOnReceive : Statement .mrDataByteNackedOnReceive := by unfold Statement; decide

theorem mrAddressNackedForRead : Statement .mrAddressNackedForRead := by unfold Statement; decide

theorem mrArbitrationLost : Statement .mrArbitrationLost := by unfold Statement; decide

theorem mrOther (s : Byte) : Statement (.mrOther s) := by
  unfold Statement word row; revert s; decide

theorem idleAny (s : Byte) : Statement (.idleAny s) := by
  unfold Statement word row; revert s; decide

theorem slaveTransmitAny (s : Byte) : Statement (.slaveTransmitAny s) := by
  unfold Statement word row; revert s; decide

theorem slaveReceiveAny (s : Byte) : Statement (.slaveReceiveAny s) := by
  unfold Statement word row; revert s; decide

theorem reserved5Any (s : Byte) : Statement (.reserved5Any s) := by
  unfold Statement word row; revert s; decide

theorem reserved6Any (s : Byte) : Statement (.reserved6Any s) := by
  unfold Statement word row; revert s; decide

theorem reserved7Any (s : Byte) : Statement (.reserved7Any s) := by
  unfold Statement word row; revert s; decide

end Sys2Proof.Laws.TableRow
end

