-- ==== Sys2Proof/Laws/Sequencer.lean ====
section
/-! SUPPORT. Sys2Proof/Laws/Sequencer.lean: what each action does inside an EH step, which finds the flag set and nothing
pending (40_sequencer.md R83 to R89). -/

namespace Sys2Proof.Machine

/-- R83. -/
theorem aLoadAddr_spec {s : State} {b : Byte} (hf : s.bc.flag = true) (hp : s.bc.pending = .none)
    (hb : s.slaRw = some b) :
    aLoadAddr s = { s with
      trace := s.trace ++ [.data b, .ctrl (CtrlName.nextNoack.byte s.cfg.layout)],
      bc := { s.bc with
        flag := false, en := true, ea := false, sta := false, ie := true, pending := .shift, data := some b,
        wc := false } } := by
  simp only [aLoadAddr, hb, valued_some, State.use_ok, dataWrite_of_flag hf]
  rw [writeControl_of_none]
  · simp [CtrlName.bits, State.record, hb]
  · rfl
  · exact hp

/-- R84. -/
theorem aTxNext_spec {s : State} {b : Byte} (hf : s.bc.flag = true) (hp : s.bc.pending = .none)
    (hc : s.idx.toNat < s.cfg.cap) (hb : s.buf.read s.idx.toNat = some b) :
    aTxNext s = { s with
      idx := s.idx + 1,
      trace := s.trace ++ [.data b, .ctrl (CtrlName.nextNoack.byte s.cfg.layout)],
      bc := { s.bc with
        flag := false, en := true, ea := false, sta := false, ie := true, pending := .shift, data := some b,
        wc := false } } := by
  simp only [aTxNext, memRead_of_some hc hb, State.use_ok, dataWrite_of_flag hf]
  rw [writeControl_of_none]
  · simp [CtrlName.bits, State.record]
  · rfl
  · exact hp

/-- R85. -/
theorem aRxRequest_spec {s : State} (a : Bool) (hp : s.bc.pending = .none) :
    aRxRequest a s = { s with
      trace := s.trace ++ [.ctrl ((if a then CtrlName.nextAck else CtrlName.nextNoack).byte s.cfg.layout)],
      bc := { s.bc with flag := false, en := true, ea := a, sta := false, ie := true, pending := .shift } } := by
  cases a <;> simp only [aRxRequest, Bool.false_eq_true, if_false, if_true] <;> rw [writeControl_of_none rfl hp] <;>
    simp [CtrlName.bits, State.record]

/-- R86: with room. -/
theorem aStore_spec {s : State} {x : Byte} (hs : s.refused = none) (hi : s.idx.toNat < s.len.toNat)
    (hc : s.idx.toNat < s.cfg.cap) (hx : s.bc.data = some x) :
    aStore s = { s with buf := s.buf.write s.idx.toNat x, idx := s.idx + 1 } := by
  simp only [aStore, if_pos hi, dataRead, hx, valued_some, State.use_ok, memWrite_of_lt hc]
  rw [State.andThen_of_running]
  exact hs

/-- R86: without room the byte is discarded. -/
theorem aStore_full {s : State} (hi : s.len.toNat ≤ s.idx.toNat) : aStore s = s := by
  simp [aStore, Nat.not_lt.mpr hi]

/-- R87 with SEND_STOP = 1. -/
theorem aComplete_stop {s : State} (hs : s.refused = none) (hp : s.bc.pending = .none) (h : s.sendStop = some true) :
    aComplete s = { s with
      mode := .idle, trace := s.trace ++ [.ctrl (CtrlName.stop.byte s.cfg.layout)],
      bc := { s.bc with
        flag := false, en := true, ea := true, sta := false, sto := true, ie := true, pending := .stop } } := by
  simp only [aComplete, h, valued_some, State.use_ok, if_true]
  rw [writeControl_of_none, State.andThen_of_running]
  · simp [CtrlName.bits, State.record, h]
  · simpa using hs
  · rfl
  · exact hp

/-- R87 with SEND_STOP = 0. -/
theorem aComplete_repstart {s : State} (hs : s.refused = none) (hp : s.bc.pending = .none)
    (h : s.sendStop = some false) :
    aComplete s = { s with
      mode := .idle, rsPending := true, trace := s.trace ++ [.ctrl (CtrlName.repstart.byte s.cfg.layout)],
      bc := { s.bc with flag := false, en := true, ea := true, sta := true, ie := false, pending := .start } } := by
  simp only [aComplete, h, valued_some, State.use_ok, Bool.false_eq_true, if_false]
  rw [writeControl_of_none, State.andThen_of_running]
  · simp [CtrlName.bits, State.record]
  · simpa using hs
  · rfl
  · exact hp

/-- R88. -/
theorem aFail_spec {s : State} (e : Byte) (hs : s.refused = none) (hp : s.bc.pending = .none) :
    aFail e s = { s with
      mode := .idle, lastErr := e, trace := s.trace ++ [.ctrl (CtrlName.stop.byte s.cfg.layout)],
      bc := { s.bc with
        flag := false, en := true, ea := true, sta := false, sto := true, ie := true, pending := .stop } } := by
  simp only [aFail]
  rw [writeControl_of_none, State.andThen_of_running]
  · simp [CtrlName.bits, State.record]
  · simpa using hs
  · rfl
  · exact hp

/-- R89. -/
theorem aRelease_spec {s : State} (hp : s.bc.pending = .none) :
    aRelease s = { s with
      trace := s.trace ++ [.ctrl (CtrlName.release.byte s.cfg.layout)],
      bc := { s.bc with flag := false, en := true, ea := true, sta := false, ie := true, pending := .shift } } := by
  simp only [aRelease]
  rw [writeControl_of_none]
  · simp [CtrlName.bits, State.record]
  · rfl
  · exact hp

end Sys2Proof.Machine
end

