-- ==== Sys2Proof/Laws/Step.lean ====
section
/-! SUPPORT. Sys2Proof/Laws/Step.lean: what a step can do: it is one agent's turn (00_scope.md R5, R6). -/

namespace Sys2Proof.Machine

/-- A step that answers next, of a run with a valid configuration and no bench write, is one agent's turn. -/
theorem step_cases {s t : State} (hc : configOk s.cfg = true) (hb : s.bench = []) (h : step s = .next t) :
    s.refused = none ∧ ∃ (sched : List Turn) (tick : Nat) (drop : Bool),
      fgTurn { s with sched := sched, tick := tick, drop := drop } = .next t ∨
      ehTurn { s with sched := sched, tick := tick, drop := drop } = .next t ∨
      ∃ e, bcTurn e { s with sched := sched, tick := tick, drop := drop } = .next t := by
  simp only [step, nextStep] at h
  split at h
  · simp at h
  · rename_i hs
    refine ⟨hs, ?_⟩
    rw [if_pos hc] at h
    unfold runNext at h
    split at h
    · rename_i hw
      rw [hb] at hw
      simp at hw
    · rename_i turn rest _ _
      refine ⟨rest, s.tick, turn.drop, ?_⟩
      simp only [runTurn] at h
      split at h
      · exact .inl h
      · exact .inr (.inl h)
      · exact .inr (.inr ⟨_, h⟩)
    · refine ⟨s.sched, s.tick + 1, (Config.freeTurn s.tick).drop, ?_⟩
      simp only [runTurn] at h
      split at h
      · exact .inl h
      · exact .inr (.inl h)
      · exact .inr (.inr ⟨_, h⟩)

/-- R69: a command word decodes to a command or to a reserved word. -/
theorem decodeCommand_cases (w : BitVec 32) (data : List Byte) :
    decodeCommand w data = .error .reservedCommand ∨ decodeCommand w data = .ok .init ∨
    (∃ a l v p, decodeCommand w data = .ok (.write a l v p data)) ∨ ∃ a l p, decodeCommand w data = .ok (.read a l p) := by
  simp only [decodeCommand]
  split
  · exact .inl rfl
  · split
    · exact .inl rfl
    · split
      · split
        · exact .inl rfl
        · exact .inr (.inl rfl)
      · split
        · split
          · exact .inl rfl
          · exact .inr (.inr (.inr ⟨_, _, _, rfl⟩))
        · exact .inr (.inr (.inl ⟨_, _, _, _, rfl⟩))

end Sys2Proof.Machine
end

