-- ==== Sys2Proof/Machine/Text.lean ====
section
/-! DEFINITION. Sys2Proof/Machine/Text.lean: the textual syntax of commands, script lines and trace entries
(30_encoding.md R78). No rule reads it. -/

namespace Sys2Proof.Machine

/-- One hexadecimal digit. -/
def hexDigit (n : Nat) : String :=
  ["0", "1", "2", "3", "4", "5", "6", "7", "8", "9", "A", "B", "C", "D", "E", "F"].getD n "?"

/-- A byte as hexadecimal with `0x`. -/
def hexByte (b : Byte) : String := "0x" ++ hexDigit (b.toNat / 16) ++ hexDigit (b.toNat % 16)

/-- Bytes separated by a comma and a space. -/
def commaBytes : List Byte → String
  | [] => ""
  | [b] => hexByte b
  | b :: rest => hexByte b ++ ", " ++ commaBytes rest

/-- A byte sequence in brackets. -/
def bytesText (bs : List Byte) : String := "[" ++ commaBytes bs ++ "]"

/-- `0` or `1`. -/
def bitText (b : Bool) : String := if b then "1" else "0"

/-- `INIT`. -/
def initText : String := "INIT"

/-- `WRITE <addr>, [<b0>, ..., <bn-1>], wait=<0|1>, stop=<0|1>`. -/
def writeText (addr : BitVec 7) (wait stop : Bool) (data : List Byte) : String :=
  "WRITE " ++ hexByte (addr.setWidth 8) ++ ", " ++ bytesText data ++ ", wait=" ++ bitText wait ++ ", stop=" ++ bitText stop

/-- `READ <addr>, <maxLength>, stop=<0|1>`. -/
def readText (addr : BitVec 7) (len : BitVec 8) (stop : Bool) : String :=
  "READ " ++ hexByte (addr.setWidth 8) ++ ", " ++ len.toNat.repr ++ ", stop=" ++ bitText stop

/-- `EV <status>`, for a step that BC completes with that status. -/
def evStatusText (st : Byte) : String := "EV " ++ hexByte st

/-- `EV <status> data=<b>`, for a receive step that shifted in b. -/
def evReceiveText (st x : Byte) : String := "EV " ++ hexByte st ++ " data=" ++ hexByte x

/-- `EV none`, for a stop. -/
def evNoneText : String := "EV none"

/-- R71: the names of the results. -/
def WriteResult.text : WriteResult → String
  | .success => "Success"
  | .tooLarge => "TooLarge"
  | .addressNacked => "AddressNacked"
  | .dataNacked => "DataNacked"
  | .otherError => "OtherError"

/-- A trace entry. -/
def Event.text : Event → String
  | .ctrl v => "CTRL " ++ hexByte v
  | .data b => "DATA " ++ hexByte b
  | .result r => "RESULT " ++ r.text
  | .count n bs => "COUNT " ++ n.repr ++ " " ++ bytesText bs
  | .busStart => "BusStart"
  | .busRepStart => "BusRepStart"
  | .busByte b acked => "BusByte(" ++ hexByte b ++ ", " ++ bitText acked ++ ")"
  | .busStop => "BusStop"
  | .busArbLost => "BusArbLost"
  | .busError s => "BusError(" ++ hexByte s ++ ")"

end Sys2Proof.Machine
end

