-- ==== Sys2Proof/Tests/Slice0.lean ====
section
/-! SUPPORT. Sys2Proof/Tests/Slice0.lean: the smoke test of WellFormed, decode tests on words written out from
30_encoding.md, one-step tests from the vectors of 95_test_vectors.md (named in each comment), and a witness for the
hypotheses of each statement. -/

namespace Sys2Proof.Tests

open Sys2Proof Sys2Proof.Machine

/-! ## Small states -/

/-- The next state, if there is one. -/
def after (o : Host.Outcome State Fault Refusal) : Option State :=
  match o with
  | .next t => some t
  | .fault _ => none
  | .refused _ => none

/-- The machine after INIT (V-CMD-1), with an empty trace. -/
def initialized : State :=
  { State.reset with
    initDone := true, bc := { Bc.reset with en := true, ea := true, ie := true, bitrate := 72 } }

/-- A transfer in the mode `m` whose last bus step reported `st` in the phase `p`. -/
def notified (m : Mode) (st : Byte) (p : BcPhase) : State :=
  { initialized with
    mode := m, sendStop := some true, slaRw := some 0xE0,
    bc := { initialized.bc with flag := true, status := st, owned := true, phase := p, data := some 0x12 } }

/-- A master transmit of `len` bytes with `idx` of them loaded. -/
def transmitting (st : Byte) (len idx : BitVec 8) (stop : Bool) : State :=
  { notified .masterTransmit st .txData with
    len := len, idx := idx, sendStop := some stop, buf := [(0, 0x21), (1, 0x22), (31, 0x7E)] }

/-- A master receive of `len` bytes with `idx` of them stored, and the byte `x` in DATA. -/
def receiving (st : Byte) (len idx : BitVec 8) (stop : Bool) (x : Byte) : State :=
  let s := notified .masterReceive st .rxData
  { s with
    len := len, idx := idx, sendStop := some stop, slaRw := some 0xE1, buf := [(0, 0x10), (1, 0x11)],
    bc := { s.bc with data := some x } }

/-- BC with a shift pending in the phase `p`. -/
def shifting (p : BcPhase) (x : Byte) (ea : Bool) : State :=
  { initialized with
    mode := .masterTransmit,
    bc := { initialized.bc with pending := .shift, owned := true, phase := p, data := some x, ea := ea } }

/-- BC with the action `p` pending. -/
def pendingOf (p : Pending) (owned : Bool) : State :=
  { initialized with bc := { initialized.bc with pending := p, owned := owned } }

/-- FG in the phase `p` of `WRITE 0x70, [0x21], wait=1, stop=1` (or of a READ, which uses fewer registers). -/
def foreground (p : Phase) : State :=
  { initialized with
    fg := { initialized.fg with
      pc := p, op := some .write, addr := some 0x70, len := some 1, wait := some true, stop := some true,
      data := some [0x21] } }

/-- The next turn, alone in the schedule. -/
def turn (a : Agent) (e : Ev) (s : State) : State := { s with sched := [{ agent := a, drop := false, ev := e }] }

/-! ## WellFormed: each check refuses an ill-formed term -/

theorem test_wf_refuses_write_of_wrong_length : (Instr.write 0x70 2 true true [0x21]).wf .default = false := by decide

theorem test_wf_refuses_exact_status_in_mtOther : (Instr.mtOther 0x28).wf .default = false := by decide

theorem test_wf_refuses_exact_status_in_mrOther : (Instr.mrOther 0x50).wf .default = false := by decide

theorem test_wf_accepts_default_rows : (Instr.mtOther 0x50).wf .default = true ∧ (Instr.mrOther 0x28).wf .default = true ∧
    (Instr.write 0x70 1 true true [0x21]).wf .default = true := by decide

/-! ## Decoding: words written out from R62, R66, R68 and R73 -/

/-- R68: 31:24 reserved, 23:16 LEN, 15:11 reserved, 10:4 ADDR, 3 STOP, 2 WAIT, 1:0 OP. -/
theorem test_decode_init : decodeTableWord 32 0b00000000000000000000000000000001 = some .init := by decide

/-- LEN 0b00000010, ADDR 0b1010000, STOP 0, WAIT 1, OP 0b10. -/
theorem test_decode_write :
    decodeTableWord 32 0b00000000000000100000010100000110 = some (.write 0x50 2 true false [0, 0]) := by decide

/-- V-DEC-6: LEN 1, ADDR 0x70, STOP 1, WAIT 0, OP 0b10. -/
theorem test_decode_write_no_wait :
    decodeTableWord 32 0b00000000000000010000011100001010 = some (.write 0x70 1 false true [0]) := by decide

/-- V-DEC-18: LEN 0xFF, ADDR 0x7F, STOP 0, WAIT 1, OP 0b11. -/
theorem test_decode_read :
    decodeTableWord 32 0b00000000111111110000011111110111 = some (.read 0x7F 255 false) := by decide

/-- V-DEC-2, 3, 4, 13, 14, 19, 21. -/
theorem test_decode_reserved_commands :
    decodeTableWord 32 0x00000000 = none ∧ decodeTableWord 32 0x00000005 = none ∧
    decodeTableWord 32 0x00010001 = none ∧ decodeTableWord 32 0x00000802 = none ∧
    decodeTableWord 32 0x01000002 = none ∧ decodeTableWord 32 0x0002050B = none ∧
    decodeTableWord 32 0x80000003 = none := by
  refine ⟨?_, ?_, ?_, ?_, ?_, ?_, ?_⟩ <;> decide

/-- R66: INT, EA, STA, STO, WC, EN, reserved, IE, bit 7 first. CW_RESUME is CW_INIT's byte, CW_RELEASE CW_NEXT_ACK's. -/
theorem test_decode_controlWords :
    decodeTableWord 8 0b01000101 = some .cwInit ∧ decodeTableWord 8 0b11100101 = some .cwStart ∧
    decodeTableWord 8 0b10000101 = some .cwNextNoack ∧ decodeTableWord 8 0b11000101 = some .cwNextAck ∧
    decodeTableWord 8 0b11010101 = some .cwStop ∧ decodeTableWord 8 0b11100100 = some .cwRepstart ∧
    encode .default .cwResume = .ctrl8 0b01000101 ∧ encode .default .cwRelease = .ctrl8 0b11000101 := by
  refine ⟨?_, ?_, ?_, ?_, ?_, ?_, ?_, ?_⟩ <;> decide

/-- R62: the code in bits 7:3. -/
theorem test_decode_statuses :
    decodeTableWord 8 0b00001000 = some .startSent ∧ decodeTableWord 8 0b00010000 = some .repeatedStartSent ∧
    decodeTableWord 8 0b00011000 = some .addressAckedForWrite ∧
    decodeTableWord 8 0b00100000 = some .addressNackedForWrite ∧ decodeTableWord 8 0b00101000 = some .dataByteAcked ∧
    decodeTableWord 8 0b00110000 = some .dataByteNacked ∧ decodeTableWord 8 0b00111000 = some (.arbitrationLost 0) ∧
    decodeTableWord 8 0b01000000 = some .addressAckedForRead ∧
    decodeTableWord 8 0b01001000 = some .addressNackedForRead ∧
    decodeTableWord 8 0b01010000 = some (.dataByteAckedOnReceive 0) ∧
    decodeTableWord 8 0b01011000 = some (.dataByteNackedOnReceive 0) := by
  refine ⟨?_, ?_, ?_, ?_, ?_, ?_, ?_, ?_, ?_, ?_, ?_⟩ <;> decide

/-- R62, R63: 0x00 and 0xF8 are unlisted; the mask drops bits 2:0. -/
theorem test_decode_unlisted_statuses :
    decodeTableWord 8 0x00 = none ∧ decodeTableWord 8 0xF8 = none ∧ decodeTableWord 8 0x0B = some .startSent := by
  refine ⟨?_, ?_, ?_⟩ <;> decide

/-- V-K-1 to V-K-9: MODE 0b001, then the status. -/
theorem test_decode_mt_keys :
    decodeTableWord 16 0b00100001000 = some .mtStartSent ∧ decodeTableWord 16 0b00100010000 = some .mtRepeatedStartSent ∧
    decodeTableWord 16 0b00100011000 = some .mtAddressAckedForWrite ∧
    decodeTableWord 16 0b00100100000 = some .mtAddressNackedForWrite ∧
    decodeTableWord 16 0b00100101000 = some .mtDataByteAcked ∧ decodeTableWord 16 0b00100110000 = some .mtDataByteNacked ∧
    decodeTableWord 16 0b00100111000 = some .mtArbitrationLost ∧
    decodeTableWord 16 0b00101000000 = some (.mtOther 0x40) ∧ decodeTableWord 16 0b00100000000 = some (.mtOther 0) := by
  refine ⟨?_, ?_, ?_, ?_, ?_, ?_, ?_, ?_, ?_⟩ <;> decide

/-- V-K-10 to V-K-18: MODE 0b010, then the status. -/
theorem test_decode_mr_keys :
    decodeTableWord 16 0b01000001000 = some .mrStartSent ∧ decodeTableWord 16 0b01000010000 = some .mrRepeatedStartSent ∧
    decodeTableWord 16 0b01001000000 = some .mrAddressAckedForRead ∧
    decodeTableWord 16 0b01001001000 = some .mrAddressNackedForRead ∧
    decodeTableWord 16 0b01001010000 = some .mrDataByteAckedOnReceive ∧
    decodeTableWord 16 0b01001011000 = some .mrDataByteNackedOnReceive ∧
    decodeTableWord 16 0b01000111000 = some .mrArbitrationLost ∧
    decodeTableWord 16 0b01000101000 = some (.mrOther 0x28) ∧ decodeTableWord 16 0b01011111000 = some (.mrOther 0xF8) := by
  refine ⟨?_, ?_, ?_, ?_, ?_, ?_, ?_, ?_, ?_⟩ <;> decide

/-- V-K-19 to V-K-22, and R73's rows of the slave and reserved modes. -/
theorem test_decode_other_keys :
    decodeTableWord 16 0b00000000000 = some (.idleAny 0) ∧ decodeTableWord 16 0b00000010000 = some (.idleAny 0x10) ∧
    decodeTableWord 16 0b01100001000 = some (.slaveTransmitAny 0x08) ∧
    decodeTableWord 16 0b10000001000 = some (.slaveReceiveAny 0x08) ∧
    decodeTableWord 16 0b10100001000 = some (.reserved5Any 0x08) ∧
    decodeTableWord 16 0b11000001000 = some (.reserved6Any 0x08) ∧
    decodeTableWord 16 0b11100001000 = some (.reserved7Any 0x08) := by
  refine ⟨?_, ?_, ?_, ?_, ?_, ?_, ?_⟩ <;> decide

/-! ## Commands (95_test_vectors.md 2.7) -/

/-- V-CMD-1. -/
theorem test_init_arms : (after (exec .init State.reset)).map (fun t => (t.trace, t.bc.bitrate, t.initDone)) =
    some ([.ctrl 0x45], 72, true) := by decide

/-- V-CMD-3. -/
theorem test_init_refused_with_repeated_start :
    (after (exec .init { initialized with rsPending := true })).map (·.refused) = some (some .initPrecondition) := by decide

/-- V-CMD-6: the refusal comes before TooLarge. -/
theorem test_write_before_init :
    (after (exec (.write 0x70 33 true true (List.replicate 33 0)) State.reset)).map (·.refused) =
      some (some .notInitialized) := by decide

/-- V-CMD-15. -/
theorem test_write_wrong_length :
    (after (exec (.write 0x70 2 true true [0x21]) initialized)).map (·.refused) = some (some .dataLength) := by decide

/-- V-CMD-12, R103's example: 40 is clamped to 32. -/
theorem test_read_is_clamped :
    (after (exec (.read 0x70 40 true) initialized)).map (·.fg.len) = some (some 32) := by decide

/-- V-CMD-14. -/
theorem test_read_of_zero : (after (exec (.read 0x00 0 true) initialized)).map (·.refused) =
    some (some .zeroLengthRead) := by decide

/-- V-CMD-8 (P6): 33 > 32. -/
theorem test_wCheck_too_large :
    (after (fgTurn { foreground .wCheck with fg := { (foreground .wCheck).fg with len := some 33 } })).map
      (fun t => (t.trace, t.fg.pc)) = some ([.result .tooLarge], .ready) := by decide

/-- P1 step 5. -/
theorem test_wSetup : (after (fgTurn (foreground .wSetup))).map (fun t => (t.mode, t.buf, t.len, t.idx, t.slaRw)) =
    some (.masterTransmit, [(0, 0x21)], 1, 0, some 0xE0) := by decide

/-- P4 step 2: SLA+R of 0x70. -/
theorem test_rSetup : (after (fgTurn (foreground .rSetup))).map (fun t => (t.mode, t.len, t.slaRw)) =
    some (.masterReceive, 1, some 0xE1) := by decide

/-- P8 step 13: a pending repeated start is consumed. -/
theorem test_wTrigger_resumes : (after (fgTurn { foreground .wTrigger with rsPending := true })).map
    (fun t => (t.trace, t.rsPending, t.fg.pc)) = some ([.ctrl 0x45], false, .wWaitDone) := by decide

/-- P4 step 3. -/
theorem test_rTrigger_starts : (after (fgTurn (foreground .rTrigger))).map (fun t => (t.trace, t.bc.pending, t.fg.pc)) =
    some ([.ctrl 0xE5], .start, .rWaitDone) := by decide

/-- V-CL-2. -/
theorem test_wResult_address_nacked :
    (after (fgTurn { foreground .wResult with lastErr := 0x20 })).map (·.trace) = some [.result .addressNacked] := by decide

/-- P2 step 25. -/
theorem test_rCopy : (after (fgTurn { foreground .rCopy with idx := 2, buf := [(0, 0x12), (1, 0x34)] })).map (·.trace) =
    some [.count 2 [0x12, 0x34]] := by decide

/-! ## Control words (95_test_vectors.md 2.11) -/

/-- V-BC-1. -/
theorem test_cwInit : (after (exec .cwInit State.reset)).map
    (fun t => (t.trace, t.bc.en, t.bc.ea, t.bc.ie, t.bc.pending, t.bc.flag)) =
    some ([.ctrl 0x45], true, true, true, .none, false) := by decide

/-- V-BC-2. -/
theorem test_cwStart : (after (exec .cwStart initialized)).map (fun t => (t.bc.sta, t.bc.pending)) =
    some (true, .start) := by decide

/-- V-BC-24: the stop is dropped. -/
theorem test_cwStart_drops_stop : (after (exec .cwStart { pendingOf .stop true with drop := true })).map
    (fun t => (t.bc.sto, t.bc.pending)) = some (false, .start) := by decide

/-- V-BC-27: the start is dropped. -/
theorem test_cwResume_drops_start : (after (exec .cwResume { pendingOf .start true with drop := true })).map
    (fun t => (t.bc.pending, t.bc.flag, t.bc.ie)) = some (.none, false, true) := by decide

/-- V-BC-22. -/
theorem test_cwNextNoack_overruns : (after (exec .cwNextNoack (pendingOf .shift true))).map (·.refused) =
    some (some .busOverrun) := by decide

/-- R66, R138: EA and the pending shift. -/
theorem test_cwNextAck : (after (exec .cwNextAck (notified .masterReceive 0x40 .rxData))).map
    (fun t => (t.trace, t.bc.ea, t.bc.flag, t.bc.pending)) = some ([.ctrl 0xC5], true, false, .shift) := by decide

/-- R66, R138. -/
theorem test_cwStop : (after (exec .cwStop (notified .masterTransmit 0x28 .txData))).map
    (fun t => (t.trace, t.bc.sto, t.bc.pending)) = some ([.ctrl 0xD5], true, .stop) := by decide

/-- P2 step 10: the notification is off. -/
theorem test_cwRepstart : (after (exec .cwRepstart (notified .masterTransmit 0x28 .txData))).map
    (fun t => (t.trace, t.bc.ie, t.bc.pending)) = some ([.ctrl 0xE4], false, .start) := by decide

/-- V-D-1. -/
theorem test_cwRelease : (after (exec .cwRelease (notified .idle 0x00 .none))).map
    (fun t => (t.trace, t.bc.flag, t.bc.pending)) = some ([.ctrl 0xC5], false, .shift) := by decide

/-- V-BC-6: a collision, and the byte is lost. -/
theorem test_dataWrite_collides : (fun t : State => (t.bc.data, t.bc.wc)) (dataWrite 0x55 (shifting .addr 0xE0 false)) =
    (some 0xE0, true) := by decide

/-! ## BC's steps (95_test_vectors.md 2.11) -/

/-- V-BC-3. -/
theorem test_startSent : (after (exec .startSent (pendingOf .start false))).map
    (fun t => (t.trace, t.bc.status, t.bc.owned, t.bc.phase, t.bc.flag)) =
    some ([.busStart], 0x08, true, .addr, true) := by decide

/-- V-BC-4. -/
theorem test_repeatedStartSent : (after (exec .repeatedStartSent (pendingOf .start true))).map
    (fun t => (t.trace, t.bc.status, t.bc.phase)) = some ([.busRepStart], 0x10, .addr) := by decide

/-- V-BC-7. -/
theorem test_addressAckedForWrite : (after (exec .addressAckedForWrite (shifting .addr 0xE0 false))).map
    (fun t => (t.trace, t.bc.status, t.bc.phase)) = some ([.busByte 0xE0 true], 0x18, .txData) := by decide

/-- V-BC-9. -/
theorem test_addressNackedForWrite : (after (exec .addressNackedForWrite (shifting .addr 0xE0 false))).map
    (fun t => (t.trace, t.bc.status, t.bc.phase, t.bc.owned)) = some ([.busByte 0xE0 false], 0x20, .none, true) := by decide

/-- V-BC-8. -/
theorem test_addressAckedForRead : (after (exec .addressAckedForRead (shifting .addr 0xE1 false))).map
    (fun t => (t.trace, t.bc.status, t.bc.phase)) = some ([.busByte 0xE1 true], 0x40, .rxData) := by decide

/-- V-BC-10. -/
theorem test_addressNackedForRead : (after (exec .addressNackedForRead (shifting .addr 0xE1 false))).map
    (fun t => (t.trace, t.bc.status, t.bc.phase)) = some ([.busByte 0xE1 false], 0x48, .none) := by decide

/-- R144: the direction of an address byte admits only its own statuses. -/
theorem test_address_of_other_direction :
    after (exec .addressAckedForWrite (shifting .addr 0xE1 false)) = some (shifting .addr 0xE1 false) := by decide

/-- V-BC-12. -/
theorem test_dataByteAcked : (after (exec .dataByteAcked (shifting .txData 0x21 false))).map
    (fun t => (t.trace, t.bc.status, t.bc.phase)) = some ([.busByte 0x21 true], 0x28, .txData) := by decide

/-- V-BC-13. -/
theorem test_dataByteNacked : (after (exec .dataByteNacked (shifting .txData 0x21 false))).map
    (fun t => (t.trace, t.bc.status, t.bc.phase)) = some ([.busByte 0x21 false], 0x30, .none) := by decide

/-- V-BC-11. -/
theorem test_arbitrationLost : (after (exec (.arbitrationLost 0) (shifting .addr 0xE0 false))).map
    (fun t => (t.trace, t.bc.status, t.bc.owned, t.bc.phase)) = some ([.busArbLost], 0x38, false, .none) := by decide

/-- V-BC-17. -/
theorem test_arbitrationLost_in_the_nack_bit : (after (exec (.arbitrationLost 0x5A) (shifting .rxData 0 false))).map
    (fun t => (t.trace, t.bc.data, t.bc.status, t.bc.owned)) = some ([.busArbLost], some 0x5A, 0x38, false) := by decide

/-- V-BC-15. -/
theorem test_dataByteAckedOnReceive : (after (exec (.dataByteAckedOnReceive 0x12) (shifting .rxData 0 true))).map
    (fun t => (t.trace, t.bc.data, t.bc.status, t.bc.phase)) =
    some ([.busByte 0x12 true], some 0x12, 0x50, .rxData) := by decide

/-- V-BC-16. -/
theorem test_dataByteNackedOnReceive : (after (exec (.dataByteNackedOnReceive 0x5A) (shifting .rxData 0 false))).map
    (fun t => (t.trace, t.bc.data, t.bc.status, t.bc.phase)) =
    some ([.busByte 0x5A false], some 0x5A, 0x58, .none) := by decide

/-- V-BC-18. -/
theorem test_stop : (after (bcTurn .none (pendingOf .stop true))).map
    (fun t => (t.trace, t.bc.owned, t.bc.status, t.bc.pending, t.bc.flag)) =
    some ([.busStop], false, 0xF8, .none, false) := by decide

/-- V-BC-20. -/
theorem test_nothing_to_shift : (after (bcTurn .none (shifting .none 0 false))).map
    (fun t => (t.trace, t.bc.pending, t.bc.flag)) = some ([], .none, false) := by decide

/-- V-BC-21. -/
theorem test_bus_error : (after (bcTurn (.status 0x00 0) (shifting .txData 0x21 false))).map
    (fun t => (t.trace, t.bc.status, t.bc.owned, t.bc.phase, t.bc.flag)) =
    some ([.busError 0x00], 0x00, false, .none, true) := by decide

/-! ## EH's steps (95_test_vectors.md 2.8 to 2.10) -/

/-- V-MT-1. -/
theorem test_mtStartSent : (after (exec .mtStartSent (notified .masterTransmit 0x08 .addr))).map
    (fun t => (t.trace, t.bc.pending)) = some ([.data 0xE0, .ctrl 0x85], .shift) := by decide

/-- V-MT-2. -/
theorem test_mtRepeatedStartSent :
    (after (exec .mtRepeatedStartSent { notified .masterTransmit 0x10 .addr with slaRw := some 0xA2 })).map (·.trace) =
    some [.data 0xA2, .ctrl 0x85] := by decide

/-- V-MT-3. -/
theorem test_mtAddressAckedForWrite : (after (exec .mtAddressAckedForWrite (transmitting 0x18 1 0 true))).map
    (fun t => (t.trace, t.idx)) = some ([.data 0x21, .ctrl 0x85], 1) := by decide

/-- V-MT-7. -/
theorem test_mtAddressAckedForWrite_address_only :
    (after (exec .mtAddressAckedForWrite (transmitting 0x18 0 0 false))).map
    (fun t => (t.trace, t.mode, t.rsPending)) = some ([.ctrl 0xE4], .idle, true) := by decide

/-- V-MT-8. -/
theorem test_mtDataByteAcked_last_byte : (after (exec .mtDataByteAcked (transmitting 0x28 32 31 true))).map
    (fun t => (t.trace, t.idx)) = some ([.data 0x7E, .ctrl 0x85], 32) := by decide

/-- V-MT-4. -/
theorem test_mtDataByteAcked_completes : (after (exec .mtDataByteAcked (transmitting 0x28 1 1 true))).map
    (fun t => (t.trace, t.mode, t.lastErr)) = some ([.ctrl 0xD5], .idle, 0xFF) := by decide

/-- V-MT-10. -/
theorem test_mtDataByteNacked : (after (exec .mtDataByteNacked (transmitting 0x30 1 1 false))).map
    (fun t => (t.trace, t.lastErr, t.rsPending, t.mode)) = some ([.ctrl 0xD5], 0x30, false, .idle) := by decide

/-- V-MT-11. -/
theorem test_mtAddressNackedForWrite : (after (exec .mtAddressNackedForWrite (transmitting 0x20 1 0 true))).map
    (fun t => (t.trace, t.lastErr, t.idx)) = some ([.ctrl 0xD5], 0x20, 0) := by decide

/-- V-MT-12. -/
theorem test_mtArbitrationLost : (after (exec .mtArbitrationLost (transmitting 0x38 1 0 true))).map
    (fun t => (t.trace, t.lastErr)) = some ([.ctrl 0xD5], 0x38) := by decide

/-- V-MT-14. -/
theorem test_mtOther : (after (exec (.mtOther 0x50) (transmitting 0x50 1 0 true))).map
    (fun t => (t.trace, t.lastErr)) = some ([.ctrl 0xD5], 0x50) := by decide

/-- V-MR-1. -/
theorem test_mrStartSent : (after (exec .mrStartSent (receiving 0x08 1 0 true 0))).map (·.trace) =
    some [.data 0xE1, .ctrl 0x85] := by decide

/-- V-MR-2. -/
theorem test_mrRepeatedStartSent :
    (after (exec .mrRepeatedStartSent { receiving 0x10 1 0 true 0 with slaRw := some 0xA1 })).map (·.trace) =
    some [.data 0xA1, .ctrl 0x85] := by decide

/-- V-MR-3. -/
theorem test_mrAddressAckedForRead_one_byte :
    (after (exec .mrAddressAckedForRead (receiving 0x40 1 0 true 0))).map (·.trace) = some [.ctrl 0x85] := by decide

/-- V-MR-4. -/
theorem test_mrAddressAckedForRead_two_bytes :
    (after (exec .mrAddressAckedForRead (receiving 0x40 2 0 true 0))).map (·.trace) = some [.ctrl 0xC5] := by decide

/-- V-MR-6. -/
theorem test_mrDataByteAckedOnReceive :
    (after (exec .mrDataByteAckedOnReceive (receiving 0x50 3 1 true 0x34))).map
    (fun t => (t.trace, t.buf.read 1, t.idx)) = some ([.ctrl 0x85], some 0x34, 2) := by decide

/-- V-MR-10. -/
theorem test_mrDataByteAckedOnReceive_full :
    (after (exec .mrDataByteAckedOnReceive (receiving 0x50 2 2 true 0x99))).map
    (fun t => (t.trace, t.buf.read 1, t.idx, t.mode)) = some ([.ctrl 0xD5], some 0x11, 2, .idle) := by decide

/-- V-MR-7. -/
theorem test_mrDataByteNackedOnReceive :
    (after (exec .mrDataByteNackedOnReceive (receiving 0x58 3 2 true 0x56))).map
    (fun t => (t.trace, t.buf.read 2, t.idx, t.mode)) = some ([.ctrl 0xD5], some 0x56, 3, .idle) := by decide

/-- V-MR-8. -/
theorem test_mrDataByteNackedOnReceive_repeated_start :
    (after (exec .mrDataByteNackedOnReceive (receiving 0x58 1 0 false 0x5A))).map
    (fun t => (t.trace, t.buf.read 0, t.rsPending)) = some ([.ctrl 0xE4], some 0x5A, true) := by decide

/-- V-MR-12. -/
theorem test_mrAddressNackedForRead : (after (exec .mrAddressNackedForRead (receiving 0x48 1 0 true 0))).map
    (fun t => (t.trace, t.lastErr)) = some ([.ctrl 0xD5], 0x48) := by decide

/-- V-MR-13. -/
theorem test_mrArbitrationLost : (after (exec .mrArbitrationLost (receiving 0x38 3 1 true 0))).map
    (fun t => (t.trace, t.lastErr)) = some ([.ctrl 0xD5], 0x38) := by decide

/-- V-MR-14. -/
theorem test_mrOther : (after (exec (.mrOther 0x28) (receiving 0x28 3 1 true 0))).map
    (fun t => (t.trace, t.lastErr)) = some ([.ctrl 0xD5], 0x28) := by decide

/-- V-D-1, V-D-2. -/
theorem test_idle_and_slave_rows :
    (after (exec (.idleAny 0) (notified .idle 0x00 .none))).map (·.trace) = some [.ctrl 0xC5] ∧
    (after (exec (.slaveTransmitAny 0) (notified .slaveTransmit 0x00 .none))).map (·.trace) = some [.ctrl 0xC5] ∧
    (after (exec (.slaveReceiveAny 0) (notified .slaveReceive 0x00 .none))).map (·.trace) = some [.ctrl 0xC5] := by
  refine ⟨?_, ?_, ?_⟩ <;> decide

/-- V-D-3, V-K-22. -/
theorem test_reserved_rows :
    (after (exec (.reserved5Any 0) (notified .reserved5 0x08 .none))).map (·.refused) = some (some .reservedMode) ∧
    (after (exec (.reserved6Any 0) (notified .reserved6 0x08 .none))).map (·.refused) = some (some .reservedMode) ∧
    (after (exec (.reserved7Any 0) (notified .reserved7 0x08 .none))).map (·.refused) = some (some .reservedMode) := by
  refine ⟨?_, ?_, ?_⟩ <;> decide

/-! ## Whole steps and text -/

/-- P1 step 1: the host's INIT from reset. -/
theorem test_step_runs_init :
    (after (step (turn .fg .none { State.reset with host := [{ word := 1, data := [] }] }))).map
    (fun t => (t.trace, t.initDone, t.host)) = some ([.ctrl 0x45], true, []) := by decide

/-- P3 step 7: the notification selects R123. -/
theorem test_step_handles_address_nack :
    (after (step (turn .eh .none (transmitting 0x20 1 0 true)))).map (fun t => (t.trace, t.lastErr, t.mode)) =
    some ([.ctrl 0xD5], 0x20, .idle) := by decide

/-- R63: an unmasked STATUS of 0x0B reads as 0x08 (95_test_vectors.md 2.6). -/
theorem test_step_masks_the_status :
    (after (step (turn .eh .none (notified .masterTransmit 0x0B .addr)))).map (·.trace) =
    some [.data 0xE0, .ctrl 0x85] := by decide

/-- A table word of each format is the next instruction (log entry 26). -/
theorem test_withFetchWord :
    (after (step (State.reset.withFetchWord 32 0x00000001))).map (·.initDone) = some true ∧
    (after (step (State.reset.withFetchWord 8 0xE5))).map (·.trace) = some [.ctrl 0xE5] ∧
    (after (step (State.reset.withFetchWord 8 0x58))).map (·.bc.status) = some 0x58 ∧
    (after (step (State.reset.withFetchWord 16 0x120))).map (·.lastErr) = some 0x20 := by
  refine ⟨?_, ?_, ?_, ?_⟩ <;> decide

/-- V-BC-1, read by R140's layout: EA, EN and IE are set. -/
theorem test_ctrlRead : ctrlRead initialized = 0x45 ∧ ctrlRead State.reset = 0x00 := by decide

/-- R78: the texts of V-DEC-5 and of trace entries. -/
theorem test_text :
    writeText 0x70 true true [0x21] = "WRITE 0x70, [0x21], wait=1, stop=1" ∧
    (Event.ctrl 0xE5).text = "CTRL 0xE5" ∧ (Event.count 2 [0x12, 0x34]).text = "COUNT 2 [0x12, 0x34]" := by
  refine ⟨?_, ?_, ?_⟩ <;> decide

/-! ## Witnesses: states that meet the hypotheses of the statements -/

/-- BC holds the bus after a repeated start (R187). -/
def held : State :=
  { initialized with
    rsPending := true, sendStop := some false, slaRw := some 0xA0,
    bc := { initialized.bc with
      flag := true, ie := false, status := 0x10, owned := true, phase := .addr, data := some 0x00 } }

/-- FG waits for a transfer that BC will never end (V-S-7, R172). -/
def hanging : State :=
  { foreground .wWaitDone with mode := .masterReceive, slaRw := some 0xA1, sendStop := some true, len := 1 }

/-- FG waits for a transfer whose start BC has yet to perform (R172, R152). -/
def awaiting : State :=
  { hanging with bc := { initialized.bc with sta := true, pending := .start } }

/-- A master receive whose SEND_STOP has not been written. -/
def noStop (len idx : BitVec 8) : State := { receiving 0x50 len idx true 0x12 with sendStop := none }

/-- Each way of being reserved, at the lowest and the highest bit of its field (V-DEC-2, 3, 13, 14, 19). -/
theorem witness_CommandWordsDecodeOrRaiseReserved_reserved :
    State.reset.refused = none ∧ (0x00000000#32).extractLsb' 0 2 = 0 ∧ (0x00000802#32).extractLsb' 11 5 ≠ 0 ∧
    (0x00008002#32).extractLsb' 11 5 ≠ 0 ∧ (0x01000002#32).extractLsb' 24 8 ≠ 0 ∧ (0x80000002#32).extractLsb' 24 8 ≠ 0 ∧
    ((0x00000005#32).extractLsb' 0 2 = 1 ∧ (0x00000005#32).extractLsb' 2 30 ≠ 0) ∧
    ((0x0002050B#32).extractLsb' 0 2 = 3 ∧ (0x0002050B#32).getLsbD 2 = false) := by
  decide

/-- The second hypothesis of CommandWordsDecodeOrRaiseReserved. -/
abbrev NotReserved (w : BitVec 32) : Prop :=
  ¬(w.extractLsb' 0 2 = 0 ∨ w.extractLsb' 11 5 ≠ 0 ∨ w.extractLsb' 24 8 ≠ 0 ∨
    (w.extractLsb' 0 2 = 1 ∧ w.extractLsb' 2 30 ≠ 0) ∨ (w.extractLsb' 0 2 = 3 ∧ w.getLsbD 2 = false))

/-- The command words with every operand bit set and with none. -/
theorem witness_CommandWordsDecodeOrRaiseReserved_decodes :
    NotReserved 0x00000001 ∧ NotReserved 0x00000002 ∧ NotReserved 0x00FF07FE ∧ NotReserved 0x00000007 ∧
    NotReserved 0x00FF07FF := by
  refine ⟨?_, ?_, ?_, ?_, ?_⟩ <;> decide

theorem witness_DecodeOfEncode :
    codesConform .default = true ∧ (Instr.write 0x7F 0 true true []).wf .default = true ∧
    (Instr.write 0x7F 3 false false [1, 2, 3]).wf .default = true ∧ (Instr.mtOther 0x50).wf .default = true ∧
    (Instr.mrOther 0xFF).wf .default = true ∧ Instr.cwResume.wf .default = true := by
  decide

/-- R64: a table other than the default that conforms. -/
theorem witness_DecodeOfEncode_other_codes :
    codesConform { Config.default with codes := { StatusCodes.avr with startSent := 0xF0 } } = true := by
  decide

theorem witness_EncodeOfDecode :
    (∃ i, decode .default (.cmd32 0x00FF07FE [1]) = .ok i) ∧ (∃ i, decode .default (.cmd32 0x00FF07FF [1]) = .ok i) ∧
    (∃ i, decode .default (.ctrl8 0xE5) = .ok i) ∧ (∃ i, decode .default (.evt11 0x7FF) = .ok i) ∧
    (∃ i, decode .default (.stat8 0x0B 0x12) = .ok i) := by
  exact ⟨⟨_, rfl⟩, ⟨_, rfl⟩, ⟨_, rfl⟩, ⟨_, rfl⟩, ⟨_, rfl⟩⟩

theorem witness_StepRunsTheDecodedInstruction_command :
    (fun s : State => s.refused = none ∧ configOk s.cfg = true ∧ s.bench = [] ∧ s.sched = [⟨.fg, false, .none⟩] ∧
      s.fg.pc = .ready ∧ s.host = [⟨0x0001070E, [0x21]⟩])
      (turn .fg .none { initialized with host := [⟨0x0001070E, [0x21]⟩] }) ∧
    decode .default (.cmd32 0x0001070E [0x21]) = .ok (.write 0x70 1 true true [0x21]) := by
  exact ⟨by decide, rfl⟩

theorem witness_StepRunsTheDecodedInstruction_event :
    (fun s : State => s.refused = none ∧ configOk s.cfg = true ∧ s.bench = [] ∧ s.sched = [⟨.eh, false, .none⟩] ∧
      irq s = true) (turn .eh .none (transmitting 0x20 1 0 true)) ∧
    decode .default (.evt11 (eventKey .masterTransmit 0x20)) = .ok .mtAddressNackedForWrite := by
  exact ⟨by decide, rfl⟩

theorem witness_StepRunsTheDecodedInstruction_status_and_control :
    (fun s : State => s.refused = none ∧ configOk s.cfg = true ∧ s.bench = [] ∧
      s.sched = [⟨.bc, false, .status 0x58 0x5A⟩]) (turn .bc (.status 0x58 0x5A) (shifting .rxData 0 false)) ∧
    decode .default (.stat8 0x58 0x5A) = .ok (.dataByteNackedOnReceive 0x5A) ∧
    (fun s : State => s.refused = none ∧ configOk s.cfg = true ∧ s.bench = [⟨0xE5, false⟩])
      { initialized with bench := [⟨0xE5, false⟩] } ∧
    decode .default (.ctrl8 0xE5) = .ok .cwStart := by
  exact ⟨by decide, rfl, by decide, rfl⟩

theorem witness_StepTakesAnAgentsTurn :
    initialized.refused = none ∧ configOk initialized.cfg = true ∧ initialized.bench = [] ∧ initialized.sched = [] ∧
    (turn .fg .none initialized).sched = [⟨.fg, false, .none⟩] ∧ (turn .eh .none initialized).sched ≠ [] ∧
    (turn .bc .none initialized).sched ≠ [] := by
  decide

theorem witness_RefusedRunTakesNoStep :
    { initialized with refused := some .badConfig }.refused = some .badConfig := by
  decide

/-- The hypothesis of BadConfigurationIsRefused on the configuration. -/
abbrev Invalid (c : Config) : Prop :=
  ¬(1 ≤ c.cap ∧ c.cap ≤ 255 ∧ 1 ≤ c.fScl ∧ 16 ≤ c.fClk / c.fScl ∧ (c.fClk / c.fScl - 16) / 2 ≤ 255 ∧
    (codeList c.codes).Nodup ∧ (∀ v ∈ codeList c.codes, v &&& c.statusMask = v ∧ v ≠ 0xFF))

/-- Each bound, just outside; 528 div 1 gives the divisor 256. -/
theorem witness_BadConfigurationIsRefused :
    Invalid { Config.default with cap := 0 } ∧ Invalid { Config.default with cap := 256 } ∧
    Invalid { Config.default with fScl := 0 } ∧ Invalid { Config.default with fClk := 15, fScl := 1 } ∧
    Invalid { Config.default with fClk := 528, fScl := 1 } ∧
    ({ initialized with cfg := { Config.default with cap := 0 } }).refused = none := by
  refine ⟨?_, ?_, ?_, ?_, ?_, ?_⟩ <;> decide

/-- R64's constraints, each broken. -/
theorem witness_BadConfigurationIsRefused_codes :
    Invalid { Config.default with codes := { StatusCodes.avr with startSent := 0x10 } } ∧
    Invalid { Config.default with codes := { StatusCodes.avr with startSent := 0x09 } } ∧
    Invalid { Config.default with statusMask := 0xFF, codes := { StatusCodes.avr with startSent := 0xFF } } := by
  refine ⟨?_, ?_, ?_⟩ <;> decide

/-- The other side of each boundary: these are not refused. -/
theorem witness_BadConfigurationIsRefused_valid :
    configOk { Config.default with cap := 1 } = true ∧ configOk { Config.default with cap := 255 } = true ∧
    configOk { Config.default with fClk := 16, fScl := 1 } = true ∧
    configOk { Config.default with fClk := 527, fScl := 1 } = true := by
  decide

theorem witness_StepAnswersNext : State.reset.refused = none := by decide

/-- V-CMD-1, V-CMD-3, V-CMD-4, V-DIV-9; also of DivisorFormula. -/
theorem witness_InitArmsTheController :
    initialized.refused = none ∧ initialized.mode = .idle ∧ initialized.rsPending = false ∧
    divisor initialized.cfg.fClk initialized.cfg.fScl = some 72 ∧
    ¬((transmitting 0x28 1 1 true).mode = .idle ∧ (transmitting 0x28 1 1 true).rsPending = false) ∧
    ¬(({ initialized with rsPending := true }).mode = .idle ∧ ({ initialized with rsPending := true }).rsPending = false) ∧
    divisor 1000000 100000 = none := by
  decide

theorem witness_WriteIsAccepted :
    initialized.refused = none ∧ initialized.initDone = true ∧ State.reset.refused = none ∧ State.reset.initDone = false ∧
    ([] : List Byte).length = (0 : BitVec 8).toNat ∧ [0x21#8].length = (1 : BitVec 8).toNat ∧
    [0x21#8].length ≠ (0 : BitVec 8).toNat ∧ [0x21#8].length ≠ (2 : BitVec 8).toNat ∧
    ∃ data : List Byte, data.length = (255 : BitVec 8).toNat := by
  refine ⟨?_, ?_, ?_, ?_, ?_, ?_, ?_, ?_, List.replicate 255 0, List.length_replicate⟩ <;> decide

theorem witness_ReadIsAccepted :
    initialized.refused = none ∧ initialized.initDone = true ∧ State.reset.initDone = false ∧
    min (0 : BitVec 8).toNat initialized.cfg.cap = 0 ∧ min (1 : BitVec 8).toNat initialized.cfg.cap ≠ 0 ∧
    min (255 : BitVec 8).toNat initialized.cfg.cap ≠ 0 := by
  decide

theorem witness_CheckAnswersTooLarge :
    (fun s : State => s.refused = none ∧ s.fg.pc = .wCheck ∧ s.fg.len = some 1 ∧ (1 : BitVec 8).toNat ≤ s.cfg.cap)
      (foreground .wCheck) ∧
    (32 : BitVec 8).toNat ≤ Config.default.cap ∧ Config.default.cap < (33 : BitVec 8).toNat := by
  decide

theorem witness_WaitPhasesReadMode :
    (∀ p ∈ [Phase.wWaitIdle, .wWaitDone, .rWaitIdle, .rWaitDone],
      (foreground p).refused = none ∧ (foreground p).fg.pc = p ∧ (foreground p).mode = .idle ∧
        ({ foreground p with mode := .masterReceive }).mode ≠ .idle) := by
  decide

theorem witness_WriteSetup :
    (fun s : State => s.refused = none ∧ s.fg.pc = .wSetup ∧ s.fg.addr = some 0x70 ∧ s.fg.len = some 1 ∧
      s.fg.stop = some true ∧ s.fg.data = some [0x21]) (foreground .wSetup) ∧
    [0x21#8].length = (1 : BitVec 8).toNat ∧ (1 : BitVec 8).toNat ≤ Config.default.cap ∧
    (0 : BitVec 8).toNat ≤ Config.default.cap ∧ (List.replicate 32 0x00#8).length = (32 : BitVec 8).toNat ∧
    (32 : BitVec 8).toNat ≤ Config.default.cap := by
  decide

theorem witness_ReadSetup :
    (fun s : State => s.refused = none ∧ s.fg.pc = .rSetup ∧ s.fg.addr = some 0x70 ∧ s.fg.len = some 1 ∧
      s.fg.stop = some true) (foreground .rSetup) := by
  decide

theorem witness_TriggerConsumesOrStarts :
    (foreground .wTrigger).refused = none ∧
    ((foreground .wTrigger).fg.pc = .wTrigger ∧ (foreground .wTrigger).fg.wait = some true) ∧
    (foreground .rTrigger).fg.pc = .rTrigger ∧ (foreground .wTrigger).rsPending = false ∧
    (foreground .wTrigger).bc.pending = .none ∧
    (fun s : State => s.fg.pc = .rTrigger ∧ s.rsPending = false ∧ s.bc.pending = .stop)
      { foreground .rTrigger with bc := (pendingOf .stop true).bc } ∧
    (fun s : State => s.refused = none ∧ s.fg.pc = .rTrigger ∧ s.rsPending = false ∧
      s.bc.pending ∈ [Pending.start, .stopStart, .shift])
      { foreground .rTrigger with bc := (pendingOf .shift true).bc } ∧
    (fun s : State => s.fg.pc = .wTrigger ∧ s.fg.wait = some false ∧ s.rsPending = true)
      { foreground .wTrigger with rsPending := true, fg := { (foreground .wTrigger).fg with wait := some false } } := by
  decide

theorem witness_ResultClassifiesLastError :
    (foreground .wResult).refused = none ∧ (foreground .wResult).fg.pc = .wResult := by
  decide

theorem witness_CopyAnswersTheBytesReceived :
    (fun s : State => s.refused = none ∧ s.fg.pc = .rCopy ∧ s.idx.toNat ≤ s.cfg.cap ∧
      (∀ i, i < s.idx.toNat → (s.buf.read i).isSome = true))
      { foreground .rCopy with idx := 2, buf := [(0, 0x12), (1, 0x34)] } ∧
    (fun s : State => s.idx.toNat ≤ s.cfg.cap ∧ (∀ i, i < s.idx.toNat → (s.buf.read i).isSome = true))
      (foreground .rCopy) := by
  decide

/-- Each clause, with the control bytes 0xF5 (STA and STO) and 0x00 beside the eight words. -/
theorem witness_ControlWriteOfAnyByte :
    (0xF5#8).getLsbD CtrlLayout.avr.int.val = true ∧ (0xF5#8).getLsbD CtrlLayout.avr.sta.val = true ∧
    (0x00#8).getLsbD CtrlLayout.avr.int.val = false ∧ initialized.bc.pending = .none ∧
    (pendingOf .stop true).bc.pending = .stop ∧ (pendingOf .start true).bc.pending = .start ∧
    ¬((pendingOf .shift true).bc.pending = .stop ∧ (0xF5#8).getLsbD CtrlLayout.avr.sta.val = true) ∧
    initialized.cfg.layout = .avr := by decide

theorem witness_ControlWordsLaunch : initialized.refused = none ∧ initialized.bc.pending = .none := by decide

/-- Also of ControlWordsArm, on a pending stop. -/
theorem witness_StartOnPendingStop :
    (pendingOf .stop true).refused = none ∧ (pendingOf .stop true).bc.pending = .stop ∧
    dropsStop (pendingOf .stop true) = false ∧ dropsStop { pendingOf .stop true with drop := true } = true := by
  decide

theorem witness_ControlWordsArm :
    (pendingOf .start true).refused = none ∧ dropsStart (pendingOf .start true) = false ∧
    dropsStart { pendingOf .start true with drop := true } = true := by
  decide

theorem witness_ControlWriteOnPendingActionOverruns :
    (fun s : State => s.refused = none ∧ isLaunching .nextNoack = true ∧ s.bc.pending ≠ .none ∧
      ¬(s.bc.pending = .stop ∧ CtrlName.nextNoack.bits.sta = true)) (pendingOf .shift true) ∧
    (fun s : State => isLaunching .stop = true ∧ s.bc.pending ≠ .none ∧
      ¬(s.bc.pending = .stop ∧ CtrlName.stop.bits.sta = true)) (pendingOf .stop true) ∧
    (fun s : State => isLaunching .start = true ∧ s.bc.pending ≠ .none ∧
      ¬(s.bc.pending = .stop ∧ CtrlName.start.bits.sta = true)) (pendingOf .stopStart true) := by
  decide

/-- With `invariant_transmitting` for the clause on STATUS bits 2:0. -/
theorem witness_RegisterAccesses :
    (turn .eh .none (transmitting 0x28 1 1 false)).cfg.statusMask = 0xF8 ∧
    (notified .masterTransmit 0x08 .addr).bc.flag = true ∧ (notified .masterTransmit 0x08 .addr).bc.data = some 0x12 ∧
    initialized.bc.flag = false ∧ initialized.bc.data = none ∧ initialized.cfg.layout = .avr := by
  decide

theorem witness_StartIsReported :
    (fun s : State => s.refused = none ∧ s.bc.en = true ∧ s.bc.pending = .start ∧ s.bc.owned = false) (pendingOf .start false) ∧
    (fun s : State => s.refused = none ∧ s.bc.en = true ∧ s.bc.pending = .start ∧ s.bc.owned = true) (pendingOf .start true) := by
  decide

theorem witness_SilentSteps :
    (fun s : State => s.refused = none ∧ s.bc.en = true ∧ s.bc.pending = .stop) (pendingOf .stop true) ∧
    (fun s : State => s.refused = none ∧ s.bc.en = true ∧ s.bc.pending = .stopStart) (pendingOf .stopStart false) ∧
    (fun s : State => s.refused = none ∧ s.bc.en = true ∧ s.bc.pending = .shift ∧ s.bc.phase = .none)
      (shifting .none 0 false) := by
  decide

theorem witness_AddressShiftIsReported :
    ShiftStep .addr (shifting .addr 0xE0 false) ∧ (shifting .addr 0xE0 false).bc.data = some 0xE0 ∧
    (0xE0#8).getLsbD 0 = false ∧ ShiftStep .addr (shifting .addr 0xE1 false) ∧ (0xE1#8).getLsbD 0 = true ∧
    (shifting .addr 0xE0 false).cfg.arbLossAdmitted = true ∧
    (fun s : State => ShiftStep .addr s ∧ s.bc.data = none)
      { shifting .addr 0 false with bc := { (shifting .addr 0 false).bc with data := none } } := by
  decide

theorem witness_DataByteOutIsReported :
    ShiftStep .txData (shifting .txData 0x21 false) ∧ (shifting .txData 0x21 false).bc.data = some 0x21 ∧
    (shifting .txData 0x21 false).cfg.arbLossAdmitted = true := by
  decide

theorem witness_DataByteInIsReported :
    ShiftStep .rxData (shifting .rxData 0 true) ∧ (shifting .rxData 0 true).bc.ea = true ∧
    ShiftStep .rxData (shifting .rxData 0 false) ∧ (shifting .rxData 0 false).bc.ea = false ∧
    (shifting .rxData 0 false).cfg.arbLossAdmitted = true := by
  decide

theorem witness_BusErrorTakesTheShiftsPlace :
    (fun s : State => s.refused = none ∧ (0x00 : Byte) &&& s.cfg.statusMask = 0x00 ∧ s.cfg.busErrorAdmitted = true ∧
      s.bc.en = true ∧ s.bc.pending = .shift ∧ s.bc.phase ≠ .none) (shifting .txData 0x21 false) ∧
    (∀ sym : StatusSymbol, Config.default.codes.code sym ≠ 0x00) ∧
    ¬((pendingOf .start true).cfg.busErrorAdmitted = true ∧ (pendingOf .start true).bc.en = true ∧
      (pendingOf .start true).bc.pending = .shift ∧ (pendingOf .start true).bc.phase ≠ .none) := by
  exact ⟨by decide, fun sym => by cases sym <;> decide, by decide⟩

theorem witness_DisabledAgentsTakeNoStep :
    initialized.refused = none ∧ initialized.bc.flag = false ∧
    (fun s : State => s.bc.flag = true ∧ s.bc.ie = false) held ∧
    State.reset.bc.en = false ∧ initialized.bc.pending = .none := by
  decide

/-- A reporting step of each kind. -/
theorem witness_BcReportsOnlyAdmittedStatuses :
    (fun p : State × Ev => p.1.bc.flag = false ∧
      (after (bcTurn p.2 p.1)).map (fun t => t.bc.flag) = some true)
      (pendingOf .start false, .status 0x08 0) ∧
    (after (bcTurn (.status 0x18 0) (shifting .addr 0xE0 false))).map (fun t => t.bc.flag) = some true ∧
    (0xE0#8).getLsbD 0 = false ∧
    (after (bcTurn (.status 0x48 0) (shifting .addr 0xE1 false))).map (fun t => t.bc.flag) = some true ∧
    (0xE1#8).getLsbD 0 = true ∧
    (after (bcTurn (.status 0x30 0) (shifting .txData 0x21 false))).map (fun t => t.bc.flag) = some true ∧
    (after (bcTurn (.status 0x50 0x12) (shifting .rxData 0 true))).map (fun t => t.bc.flag) = some true ∧
    (after (bcTurn (.status 0x38 0x5A) (shifting .rxData 0 false))).map (fun t => t.bc.flag) = some true ∧
    (after (bcTurn (.status 0x00 0) (shifting .txData 0x21 false))).map (fun t => t.bc.flag) = some true := by
  decide

theorem witness_EventKeySelectsTheRule :
    (∀ m ∈ [Mode.idle, .masterTransmit, .masterReceive, .slaveTransmit, .slaveReceive, .reserved5, .reserved6, .reserved7],
      codesConform (notified m 0x28 .txData).cfg = true ∧ irq (notified m 0x28 .txData) = true ∧
        (notified m 0x28 .txData).mode = m ∧ maskedStatus (notified m 0x28 .txData) = 0x28) := by
  decide

theorem witness_StartLoadsTheAddress :
    EhStep (notified .masterTransmit 0x08 .addr) ∧ (notified .masterTransmit 0x08 .addr).slaRw = some 0xE0 := by
  decide

theorem witness_AcknowledgeSendsOrCompletes :
    (fun s : State => EhStep s ∧ s.idx.toNat < s.len.toNat ∧ s.idx.toNat < s.cfg.cap ∧
      s.buf.read s.idx.toNat = some 0x7E) (transmitting 0x28 32 31 true) ∧
    (fun s : State => EhStep s ∧ s.len.toNat ≤ s.idx.toNat ∧ s.sendStop = some false) (transmitting 0x28 1 1 false) ∧
    (fun s : State => EhStep s ∧ s.len.toNat ≤ s.idx.toNat ∧ s.sendStop = some true) (transmitting 0x18 0 0 true) := by
  decide

theorem witness_FailuresStopAndCapture :
    EhStep (transmitting 0x20 1 0 true) ∧ EhStep (receiving 0x48 1 0 true 0) := by
  decide

theorem witness_ReadAddressRequestsTheFirstByte :
    EhStep (receiving 0x40 1 0 true 0) ∧
    (receiving 0x40 1 0 true 0).len.toNat ≤ (receiving 0x40 1 0 true 0).idx.toNat + 1 ∧
    (receiving 0x40 2 0 true 0).idx.toNat + 1 < (receiving 0x40 2 0 true 0).len.toNat := by
  decide

/-- LEN = IDX + 1, IDX + 2 and IDX + 3, and a full buffer (V-MR-10). -/
theorem witness_AckedByteIsStored :
    (∀ s ∈ [receiving 0x50 1 0 true 0x12, receiving 0x50 2 0 true 0x12, receiving 0x50 3 0 true 0x12],
      EhStep s ∧ s.bc.data = some 0x12 ∧ s.sendStop = some true ∧ s.len.toNat ≤ s.cfg.cap ∧ s.idx.toNat < s.len.toNat) ∧
    (fun s : State => EhStep s ∧ s.bc.data = some 0x12 ∧ s.sendStop = some true ∧ s.len.toNat ≤ s.cfg.cap ∧
      s.len.toNat ≤ s.idx.toNat) (receiving 0x50 2 2 true 0x12) := by
  decide

theorem witness_NackedByteCompletes :
    (fun s : State => EhStep s ∧ s.bc.data = some 0x5A ∧ s.sendStop = some false ∧ s.len.toNat ≤ s.cfg.cap ∧
      s.idx.toNat < s.len.toNat) (receiving 0x58 1 0 false 0x5A) ∧
    (fun s : State => EhStep s ∧ s.bc.data = some 0x5A ∧ s.sendStop = some true ∧ s.len.toNat ≤ s.cfg.cap ∧
      s.len.toNat ≤ s.idx.toNat) (receiving 0x58 2 2 true 0x5A) := by
  decide

theorem witness_OtherModesReleaseOrRefuse :
    EhStep (notified .idle 0x00 .none) ∧ (notified .reserved6 0x00 .none).refused = none := by
  decide

theorem witness_ValuelessReadsRaise :
    initialized.refused = none ∧ initialized.slaRw = none ∧
    (fun s : State => s.len.toNat ≤ s.idx.toNat ∧ s.sendStop = none) initialized ∧
    (fun s : State => s.idx.toNat < s.len.toNat ∧ s.idx.toNat < s.cfg.cap ∧ s.buf.read s.idx.toNat = none)
      (transmitting 0x28 3 2 true) ∧
    (fun s : State => s.idx.toNat < s.len.toNat ∧ s.cfg.cap ≤ s.idx.toNat) (transmitting 0x28 33 32 true) ∧
    (fun s : State => s.idx.toNat < s.len.toNat ∧ s.bc.data = none) { initialized with len := 1 } ∧
    (fun s : State => ShiftStep .txData s ∧ s.bc.data = none)
      { shifting .txData 0 false with bc := { (shifting .txData 0 false).bc with data := none } } ∧
    (fun s : State => s.idx.toNat < s.len.toNat ∧ s.bc.data.isSome = true ∧ s.cfg.cap ≤ s.idx.toNat)
      (receiving 0x50 33 32 true 0x12) := by
  decide

/-- The clauses on SEND_STOP in the two receive rows, and on ArbitrationLost. -/
theorem witness_ValuelessReadsRaise_stop_and_arbitration :
    (∀ s ∈ [noStop 2 2, noStop 3 2, noStop 2 1], s.refused = none ∧ s.sendStop = none ∧ s.bc.data = some 0x12) ∧
    (noStop 2 2).len.toNat ≤ (noStop 2 2).idx.toNat ∧
    (fun s : State => s.idx.toNat < s.len.toNat ∧ s.idx.toNat < s.cfg.cap) (noStop 32 31) ∧
    (fun s : State => s.idx.toNat < s.cfg.cap ∧ s.idx.toNat + 1 = s.len.toNat) (noStop 2 1) ∧
    (∀ p ∈ [BcPhase.addr, .txData],
      (fun s : State => ShiftStep p s ∧ s.bc.data = none ∧ s.cfg.arbLossAdmitted = true)
        { shifting p 0 false with bc := { (shifting p 0 false).bc with data := none } }) := by
  decide

/-- Also of EhFrame. -/
theorem witness_EhMakesOneControlWrite :
    isEventRow .mtStartSent = true ∧
    (after (exec .mtStartSent (notified .masterTransmit 0x08 .addr))).map (·.refused) = some none := by
  decide

theorem witness_BcFrame : (after (bcTurn (.status 0x08 0) (pendingOf .start false))).isSome = true := by decide

theorem witness_FgFrame : (after (fgTurn (foreground .wSetup))).isSome = true := by decide

/-! ### The invariant -/

/-- R180: the last acknowledge of a transmit. -/
theorem invariant_transmitting : Invariant (turn .eh .none (transmitting 0x28 1 1 false)) := by
  constructor <;> first
    | decide
    | simp [turn, transmitting, notified, initialized, State.reset, Bc.reset, Fg.reset, FgHolds, Quiet, atTrigger,
        Continues, Config.default, StatusCodes.avr]

/-- A first byte is still to be sent. -/
theorem invariant_starting : Invariant (turn .eh .none (transmitting 0x08 1 0 true)) := by
  constructor <;> first
    | decide
    | simp [turn, transmitting, notified, initialized, State.reset, Bc.reset, Fg.reset, FgHolds, Quiet, atTrigger,
        Continues, Config.default, StatusCodes.avr]

theorem invariant_held : Invariant held := by
  constructor <;> first
    | decide
    | simp [held, initialized, State.reset, Bc.reset, Fg.reset, FgHolds, Quiet, atTrigger, Continues, Config.default,
        StatusCodes.avr]

/-- FG consumes the held bus. -/
theorem invariant_trigger : Invariant (turn .fg .none { held with
    mode := .masterTransmit, fg := (foreground .wTrigger).fg }) := by
  constructor <;> first
    | decide
    | simp [turn, held, foreground, initialized, State.reset, Bc.reset, Fg.reset, FgHolds, Quiet, atTrigger, Continues,
        Config.default, StatusCodes.avr]

theorem invariant_wSetup : Invariant (turn .fg .none (foreground .wSetup)) := by
  constructor <;> first
    | decide
    | simp [turn, foreground, initialized, State.reset, Bc.reset, Fg.reset, FgHolds, Quiet, atTrigger, Config.default,
        StatusCodes.avr]

theorem invariant_rSetup : Invariant (turn .fg .none (foreground .rSetup)) := by
  constructor <;> first
    | decide
    | simp [turn, foreground, initialized, State.reset, Bc.reset, Fg.reset, FgHolds, Quiet, atTrigger, Config.default,
        StatusCodes.avr]

theorem invariant_hanging : Invariant (turn .bc .none hanging) := by
  constructor <;> first
    | decide
    | simp [turn, hanging, foreground, initialized, State.reset, Bc.reset, Fg.reset, FgHolds, Quiet, atTrigger,
        Config.default, StatusCodes.avr]

theorem invariant_initialized : Invariant (turn .fg .none initialized) := by
  constructor <;> first
    | decide
    | simp [turn, initialized, State.reset, Bc.reset, Fg.reset, FgHolds, Quiet, atTrigger, Config.default,
        StatusCodes.avr]

theorem invariant_commanded : Invariant (turn .fg .none { initialized with host := [⟨0, []⟩] }) := by
  constructor <;> first
    | decide
    | simp [turn, initialized, State.reset, Bc.reset, Fg.reset, FgHolds, Quiet, atTrigger, Config.default,
        StatusCodes.avr]

/-- Of StepKeepsInvariant and NoStrayNotificationOrCollision, with `invariant_transmitting`. -/
theorem witness_StepKeepsInvariant :
    (after (step (turn .eh .none (transmitting 0x28 1 1 false)))).isSome = true ∧
    (after (step (turn .eh .none (transmitting 0x28 1 1 false)))).map (·.mode) = some .idle ∧
    (transmitting 0x28 1 1 false).bc.wc = false := by decide

/-- Of NoUnreachableRefusal, with `invariant_commanded`. -/
theorem witness_NoUnreachableRefusal :
    (after (step (turn .fg .none { initialized with host := [⟨0, []⟩] }))).map (·.refused) =
      some (some .reservedCommand) := by decide

/-- Of ModeTransitions, each clause, with `invariant_wSetup`, `invariant_rSetup`, `invariant_starting` and
`invariant_transmitting`. -/
theorem witness_ModeTransitions :
    (after (step (turn .fg .none (foreground .wSetup)))).map (·.mode) = some .masterTransmit ∧
    (after (step (turn .fg .none (foreground .rSetup)))).map (·.mode) = some .masterReceive ∧
    (after (step (turn .eh .none (transmitting 0x08 1 0 true)))).map (·.mode) = some .masterTransmit ∧
    (after (step (turn .eh .none (transmitting 0x28 1 1 false)))).map (·.mode) = some .idle := by decide

/-- Of RepeatedStartIsConsumedOnce, each clause, with `invariant_transmitting` and `invariant_trigger`. -/
theorem witness_RepeatedStartIsConsumedOnce :
    (transmitting 0x28 1 1 false).rsPending = false ∧
    (after (step (turn .eh .none (transmitting 0x28 1 1 false)))).map (·.rsPending) = some true ∧
    held.rsPending = true ∧
    (after (step (turn .fg .none { held with mode := .masterTransmit, fg := (foreground .wTrigger).fg }))).map
      (·.rsPending) = some false := by decide

/-- Of EhEndsOrShifts, with `invariant_starting` and `invariant_transmitting`. -/
theorem witness_EhEndsOrShifts :
    (fun s : State => s.mode ≠ .idle ∧ irq s = true ∧ s.refused = none ∧ (after (ehTurn s)).isSome = true)
      (turn .eh .none (transmitting 0x08 1 0 true)) ∧
    (fun s : State => s.mode ≠ .idle ∧ irq s = true ∧ s.refused = none ∧ (after (ehTurn s)).isSome = true)
      (turn .eh .none (transmitting 0x28 1 1 false)) := by decide

theorem invariant_awaiting : Invariant (turn .fg .none awaiting) := by
  constructor <;> first
    | decide
    | simp [turn, awaiting, hanging, foreground, initialized, State.reset, Bc.reset, Fg.reset, FgHolds, Quiet, atTrigger,
        Config.default, StatusCodes.avr]

/-- Of HangPersists, with `invariant_hanging` and `invariant_awaiting`: nothing pending, and a start pending. -/
theorem witness_HangPersists :
    Hung (turn .bc .none hanging) ∧ (after (step (turn .bc .none hanging))).isSome = true ∧
    Waiting (turn .fg .none awaiting) ∧
    (after (step (turn .fg .none awaiting))).map (·.bc.pending) = some (turn .fg .none awaiting).bc.pending ∧
    configOk awaiting.cfg = true ∧ awaiting.drop = false :=
  ⟨by unfold Hung Waiting; decide, by decide, by unfold Waiting; decide, by decide, by decide, by decide⟩

/-- A run that starts hung, whatever the free schedule picks. -/
def hangingRun (n : Nat) : State :=
  { hanging with tick := n, drop := if n = 0 then false else (Config.freeTurn (n - 1)).drop }

theorem hangingRun_turn (t : Turn) (tick : Nat) (drop : Bool) :
    runTurn t { hanging with tick := tick, drop := drop } = .next { hanging with tick := tick, drop := drop } := by
  obtain ⟨_ | _ | _, d, _ | ⟨st, x⟩⟩ := t <;> try rfl
  simp only [runTurn, bcTurn, decode, decodeStatus]
  cases hanging.cfg.codes.symbolOf (st &&& hanging.cfg.statusMask) with
  | none => rfl
  | some sym => cases sym <;> rfl

/-- Of HangPersists' clause on runs. -/
theorem witness_HangPersists_run : IsRun hangingRun ∧ Invariant (hangingRun 0) ∧ Waiting (hangingRun 0) ∧
    ∀ m, 0 ≤ m → (hangingRun m).bc.pending = (hangingRun 0).bc.pending := by
  refine ⟨fun n => ?_, ?_, by unfold Waiting; decide, fun _ _ => rfl⟩
  · have hc : configOk (hangingRun n).cfg = true := (by decide : configOk .default = true)
    show (if configOk (hangingRun n).cfg then _ else _) = _
    rw [if_pos hc]
    exact hangingRun_turn (Config.freeTurn n) (n + 1) (Config.freeTurn n).drop
  · constructor <;> first
      | decide
      | simp [hangingRun, hanging, foreground, initialized, State.reset, Bc.reset, Fg.reset, FgHolds, Quiet, atTrigger,
          Config.default, StatusCodes.avr]

/-- Of EndedRunDoesNothing, with `invariant_initialized`. -/
theorem witness_EndedRunDoesNothing :
    Ended (turn .fg .none initialized) ∧ (after (step (turn .fg .none initialized))).isSome = true :=
  ⟨by unfold Ended; decide, by decide⟩

end Sys2Proof.Tests
end

section
/-! PROOFS. The scope family (00_scope.md R5, R6, R13): which turn a step is, what an agent's turn runs, and the run that
has ended. -/

namespace Sys2Proof.Machine

/-! ## Which turn a step is -/

/-- A run without the mark and with a valid configuration goes on (R158, R177). -/
theorem step_eq_runNext {s : State} (hr : s.refused = none) (hc : configOk s.cfg = true) : step s = runNext s := by
  simp only [step, nextStep, hr, hc, if_true]

/-- A waiting bench write comes before the schedule (log entry 11). -/
theorem runNext_of_bench {s : State} {w : BenchWrite} {ws : List BenchWrite} (hb : s.bench = w :: ws) :
    runNext s = runBench w.word { s with bench := ws, drop := w.drop } := by
  simp only [runNext, hb]

/-- The first scheduled turn is taken (R5, R6). -/
theorem runNext_of_sched {s : State} {t : Turn} {ts : List Turn} (hb : s.bench = []) (hs : s.sched = t :: ts) :
    runNext s = runTurn t { s with sched := ts, drop := t.drop } := by
  simp only [runNext, hb, hs]

/-- With an empty schedule a free turn is taken (R6, log entry 1). -/
theorem runNext_of_free {s : State} (hb : s.bench = []) (hs : s.sched = []) :
    runNext s =
      runTurn (Config.freeTurn s.tick) { s with tick := s.tick + 1, drop := (Config.freeTurn s.tick).drop } := by
  simp only [runNext, hb, hs]

/-- The step of a run with a listed turn is that turn. -/
theorem step_of_sched {s : State} {t : Turn} {ts : List Turn} (hr : s.refused = none) (hc : configOk s.cfg = true)
    (hb : s.bench = []) (hs : s.sched = t :: ts) : step s = runTurn t { s with sched := ts, drop := t.drop } := by
  rw [step_eq_runNext hr hc, runNext_of_sched hb hs]

theorem runTurn_fg {t : Turn} (h : t.agent = .fg) (s : State) : runTurn t s = fgTurn s := by
  simp only [runTurn, h]

theorem runTurn_eh {t : Turn} (h : t.agent = .eh) (s : State) : runTurn t s = ehTurn s := by
  simp only [runTurn, h]

theorem runTurn_bc {t : Turn} (h : t.agent = .bc) (s : State) : runTurn t s = bcTurn t.ev s := by
  simp only [runTurn, h]

/-! ## What a turn runs -/

/-- R91: in Ready, FG's turn takes the next command and runs what its word decodes to. -/
theorem fgTurn_of_command {s : State} {c : Command} {cs : List Command} {i : Instr} (hp : s.fg.pc = .ready)
    (hh : s.host = c :: cs) (hd : decode s.cfg (.cmd32 c.word c.data) = .ok i) :
    fgTurn s = exec i { s with host := cs } := by
  simp only [fgTurn, hp, hh, runCommand, hd]

/-- R91, R92: in Ready with no command, FG has no step. -/
theorem fgTurn_of_no_command {s : State} (hp : s.fg.pc = .ready) (hh : s.host = []) : fgTurn s = .next s := by
  simp only [fgTurn, hp, hh]

/-- R110, R112: while the line is high, EH's turn runs what the event key decodes to. -/
theorem ehTurn_of_irq {s : State} {i : Instr} (h : irq s = true)
    (hd : decode s.cfg (.evt11 (eventKey s.mode (maskedStatus s))) = .ok i) : ehTurn s = exec i s := by
  simp only [ehTurn, h, hd, if_true]

/-- R110: while the line is low, EH has no step. -/
theorem ehTurn_of_not_irq {s : State} (h : irq s = false) : ehTurn s = .next s := by
  simp only [ehTurn, h, Bool.false_eq_true, if_false]

/-- BC's turn runs what the drawn status decodes to. -/
theorem bcTurn_of_status {s : State} {st x : Byte} {i : Instr} (hd : decode s.cfg (.stat8 st x) = .ok i) :
    bcTurn (.status st x) s = exec i s := by
  simp only [bcTurn, hd]

/-- A bench write runs the control word that its byte decodes to. -/
theorem runBench_of_word {s : State} {w : Byte} {i : Instr} (hd : decode s.cfg (.ctrl8 w) = .ok i) :
    runBench w s = exec i s := by
  simp only [runBench, hd]

/-! ## BC with nothing pending

Each step of BC performs a pending action (45_bus_controller.md section 3), so with none it changes nothing. -/

section NothingPending

variable {s : State} (hp : s.bc.pending = .none)
include hp

theorem bcEnabled_of_none {p : Pending} (hne : p ≠ .none) : bcEnabled p s = false := by
  simp [bcEnabled, hp, hne.symm]

theorem shiftEnabled_of_none (f : BcPhase) : shiftEnabled f s = false := by
  simp [shiftEnabled, bcEnabled_of_none hp]

theorem bcSilent_of_none : bcSilent s = s := by
  simp [bcSilent, bcEnabled_of_none hp, shiftEnabled_of_none hp]

theorem bcBusError_of_none (e : Byte) : bcBusError e s = s := by
  simp [bcBusError, bcEnabled_of_none hp]

theorem bcStart_of_none (owned : Bool) : bcStart owned s = s := by
  simp [bcStart, bcEnabled_of_none hp]

theorem bcAddress_of_none (o : Reply) (dir : Bool) : bcAddress o dir s = s := by
  simp [bcAddress, shiftEnabled_of_none hp]

theorem bcDataOut_of_none (o : Reply) : bcDataOut o s = s := by
  simp [bcDataOut, shiftEnabled_of_none hp]

theorem bcDataIn_of_none (x : Byte) (ea : Bool) : bcDataIn x ea s = s := by
  simp [bcDataIn, shiftEnabled_of_none hp]

theorem bcArbitration_of_none (x : Byte) : bcArbitration x s = s := by
  simp [bcArbitration, bcEnabled_of_none hp]

/-- The row of any listed status leaves BC as it is (log entry 13). -/
theorem exec_status_of_none (hr : s.refused = none) (x : Byte) (sym : StatusSymbol) :
    exec (sym.instr x) s = .next s := by
  cases sym <;> refine atomic_eq_next.mpr ⟨hr, ?_⟩
  case startSent | repeatedStartSent => exact bcStart_of_none hp _
  case addressAckedForWrite | addressNackedForWrite | addressAckedForRead | addressNackedForRead =>
    exact bcAddress_of_none hp _ _
  case dataByteAcked | dataByteNacked => exact bcDataOut_of_none hp _
  case arbitrationLost => exact bcArbitration_of_none hp x
  case dataByteAckedOnReceive | dataByteNackedOnReceive => exact bcDataIn_of_none hp x _

/-- With nothing pending, BC's turn changes nothing, whatever its outcome draw. -/
theorem bcTurn_of_none (hr : s.refused = none) (e : Ev) : bcTurn e s = .next s := by
  cases e with
  | none => exact atomic_eq_next.mpr ⟨hr, bcSilent_of_none hp⟩
  | status st x =>
    simp only [bcTurn, decode, decodeStatus]
    cases s.cfg.codes.symbolOf (st &&& s.cfg.statusMask) with
    | some sym => exact exec_status_of_none hp hr x sym
    | none => exact atomic_eq_next.mpr ⟨hr, bcBusError_of_none hp st⟩

end NothingPending

/-! ## A run that has ended -/

/-- R13 reads no field of the schedule. -/
theorem Ended.withSchedule {s : State} (h : Ended s) (sched : List Turn) (tick : Nat) (drop : Bool) :
    Ended { s with sched := sched, tick := tick, drop := drop } := h

/-- R13: no agent's turn changes a run that has ended. -/
theorem Ended.turns {s t : State} (h : Ended s)
    (ht : fgTurn s = .next t ∨ ehTurn s = .next t ∨ ∃ e, bcTurn e s = .next t) : t = s := by
  obtain ⟨hr, hh, hpc, -, hp, hirq⟩ := h
  obtain ht | ht | ⟨e, ht⟩ := ht
  · rw [fgTurn_of_no_command hpc hh] at ht
    exact (Host.Outcome.next.inj ht).symm
  · rw [ehTurn_of_not_irq hirq] at ht
    exact (Host.Outcome.next.inj ht).symm
  · rw [bcTurn_of_none hp hr e] at ht
    exact (Host.Outcome.next.inj ht).symm

/-- Settles O60: a step is one agent's turn, and each agent's turn changes nothing in a run that has ended. -/
theorem endedRunDoesNothing : Obligations.EndedRunDoesNothing := by
  intro s t hi he hstep
  obtain ⟨-, sched, tick, drop, hturn⟩ := step_cases hi.config hi.noBench hstep
  obtain rfl := (he.withSchedule sched tick drop).turns hturn
  exact ⟨rfl, he.withSchedule sched tick drop⟩

/-! ## The step's agent and instruction -/

/-- Settles O7: the step is the scheduled turn or the bench write, and each runs the instruction that it decodes. -/
theorem stepRunsTheDecodedInstruction : Obligations.StepRunsTheDecodedInstruction := by
  intro s i hr hc
  refine ⟨fun t ts c cs hb hs ha hp hh hd => ?_, fun t ts hb hs ha hq hd => ?_,
    fun t ts st x hb hs ha he hd => ?_, fun w ws hb hd => ?_⟩
  · rw [step_of_sched hr hc hb hs, runTurn_fg ha]
    exact fgTurn_of_command hp hh hd
  · rw [step_of_sched hr hc hb hs, runTurn_eh ha]
    exact ehTurn_of_irq hq hd
  · rw [step_of_sched hr hc hb hs, runTurn_bc ha, he]
    exact bcTurn_of_status hd
  · rw [step_eq_runNext hr hc, runNext_of_bench hb]
    exact runBench_of_word hd

/-- Settles O8: the turn is the first of the schedule, or the free turn when the schedule is empty. -/
theorem stepTakesAnAgentsTurn : Obligations.StepTakesAnAgentsTurn := by
  intro s hr hc hb
  refine ⟨fun t ts hs => ?_, fun hs => ⟨Config.freeTurn s.tick, ?_⟩⟩
  · rw [step_of_sched hr hc hb hs]
    rfl
  · rw [step_eq_runNext hr hc, runNext_of_free hb hs]
    rfl

end Sys2Proof.Machine
end

section
/-! PROOFS. The state family (10_state.md R28, R33, R41, R43): the reset state, the invariant and the turns that keep it,
what an FG step leaves alone, and the reads of no value. -/

namespace Sys2Proof.Machine

/-! ## BC's turn keeps the invariant -/

/-- The statuses that `Continues` lists, by symbol. -/
def goesOn : StatusSymbol → Bool
  | .startSent | .repeatedStartSent | .addressAckedForWrite | .dataByteAcked | .addressAckedForRead
  | .dataByteAckedOnReceive => true
  | .addressNackedForWrite | .dataByteNacked | .arbitrationLost | .addressNackedForRead
  | .dataByteNackedOnReceive => false

/-- R64(a): the code of a symbol is one after which a transfer may go on exactly when the symbol is. -/
theorem continues_code_iff {c : Config} (h : codesConform c = true) (x : StatusSymbol) :
    Continues c.codes (c.codes.code x) ↔ goesOn x = true := by
  show c.codes.code x = c.codes.code .startSent ∨ c.codes.code x = c.codes.code .repeatedStartSent ∨
    c.codes.code x = c.codes.code .addressAckedForWrite ∨ c.codes.code x = c.codes.code .dataByteAcked ∨
    c.codes.code x = c.codes.code .addressAckedForRead ∨ c.codes.code x = c.codes.code .dataByteAckedOnReceive ↔ _
  simp only [(code_injective h).eq_iff]
  cases x <;> simp [goesOn]

/-- R177: the codes of a sound state conform. -/
theorem Invariant.conform {s : State} (hi : Invariant s) : codesConform s.cfg = true := codesConform_of_configOk hi.config

/-- R187: a start that is pending while no transfer runs is the repeated start that is held. -/
theorem Invariant.rsPending_of_start {s : State} (hi : Invariant s) (hp : s.bc.pending = .start) (hq : Quiet s) :
    s.rsPending = true := by
  by_contra hr
  have hfree := (hi.free hq (by simpa using hr)).2
  simp [hp] at hfree

/-- R137: the flag is low while an action is pending. -/
theorem Invariant.flag_of_pending {s : State} (hi : Invariant s) (hp : s.bc.pending ≠ .none) : s.bc.flag = false :=
  Bool.eq_false_iff.mpr fun hf => hp (hi.flagPending hf)

/-- R183: a pending stop follows a transfer that has ended without a repeated start. -/
theorem Invariant.quiet_of_stop {s : State} (hi : Invariant s) (hp : s.bc.pending = .stop) :
    Quiet s ∧ s.rsPending = false := by
  have hflag := hi.flag_of_pending (by simp [hp])
  have hq : Quiet s := by
    by_contra hq
    exact hi.running hq hp
  refine ⟨hq, ?_⟩
  by_contra hr
  simpa [hp, hflag] using (hi.held hq (by simpa using hr)).2.2

/-- R151: a start requested behind a stop belongs to a transfer on the bus. -/
theorem Invariant.not_quiet_of_stopStart {s : State} (hi : Invariant s) (hp : s.bc.pending = .stopStart) :
    ¬Quiet s := by
  have hflag := hi.flag_of_pending (by simp [hp])
  intro hq
  cases hr : s.rsPending
  · simpa [hp] using (hi.free hq hr).2
  · simpa [hp, hflag] using (hi.held hq hr).2.2

/-- A shift that completes with the listed status `x` (R144 to R146). -/
theorem Invariant.completesShift {s : State} {b : Bc} {trace : List Event} (hi : Invariant s)
    (hp : s.bc.pending = .shift) (x : StatusSymbol) (hstatus : b.status = s.cfg.codes.code x) (hflag : b.flag = true)
    (hpend : b.pending = .none) (hie : b.ie = s.bc.ie) (hdata : b.data.isSome)
    (hphase : goesOn x = true → b.phase ≠ .none)
    (howned : goesOn x = true ∨ x = .dataByteNackedOnReceive → b.owned = true) :
    Invariant { s with bc := b, trace := trace } := by
  refine hi.completes (fun q => absurd q (hi.not_quiet_of_shift hp)) hflag hpend hie ?_ (.inr (.inr hdata)) ?_ ?_
  · rw [hstatus]
    exact code_masked hi.conform x
  · rw [hstatus, continues_code_iff hi.conform]
    exact fun hg => ⟨howned (.inl hg), hphase hg⟩
  · rw [hstatus]
    exact fun he => howned (.inr (code_injective hi.conform he))

/-- A shift that completes with a status after which the transfer only ends. -/
theorem Invariant.endsShift {s : State} {b : Bc} {trace : List Event} (hi : Invariant s) (hp : s.bc.pending = .shift)
    (x : StatusSymbol) (hx : goesOn x = false ∧ x ≠ .dataByteNackedOnReceive) (hstatus : b.status = s.cfg.codes.code x)
    (hflag : b.flag = true) (hpend : b.pending = .none) (hie : b.ie = s.bc.ie) (hdata : b.data.isSome) :
    Invariant { s with bc := b, trace := trace } :=
  hi.completesShift hp x hstatus hflag hpend hie hdata (fun h => by simp [hx.1] at h) (fun h => by simp [hx] at h)

/-- R142. -/
theorem Invariant.after_performStart {s : State} (hi : Invariant s) (hp : s.bc.pending = .start) :
    Invariant (performStart s) := by
  cases ho : s.bc.owned
  · rw [performStart_free ho]
    exact hi.completes (fun q => ⟨hi.rsPending_of_start hp q, rfl⟩) rfl rfl rfl (code_masked hi.conform .startSent)
      (.inl rfl) (fun _ => ⟨rfl, by simp⟩) (fun _ => rfl)
  · rw [performStart_held ho]
    exact hi.completes (fun q => ⟨hi.rsPending_of_start hp q, rfl⟩) rfl rfl rfl
      (code_masked hi.conform .repeatedStartSent) (.inr (.inl rfl)) (fun _ => ⟨rfl, by simp⟩) (fun _ => rfl)

/-- R143: a stop leaves the bus free; the start requested behind it stays pending. -/
theorem Invariant.after_performStop {s : State} (hi : Invariant s)
    (hp : s.bc.pending = .stop ∨ s.bc.pending = .stopStart) : Invariant (performStop s) := by
  have hflag : s.bc.flag = false := hi.flag_of_pending (by obtain h | h := hp <;> simp [h])
  have hquiet : Quiet s → s.bc.pending = .stop ∧ s.rsPending = false := fun hq => hp.elim
    (fun h => ⟨h, (hi.quiet_of_stop h).2⟩) (fun h => absurd hq (hi.not_quiet_of_stopStart h))
  rw [performStop_spec]
  exact {
    config := hi.config, noBench := hi.noBench, bounds := hi.bounds, modes := hi.modes,
    repeatedStart := hi.repeatedStart, lastErr := hi.lastErr, noErrorInTransfer := hi.noErrorInTransfer,
    flagPending := fun h => by simp [hflag] at h
    free := fun hq _ => ⟨hflag, .inl (by simp [(hquiet hq).1])⟩
    held := fun hq hr => by simp [(hquiet hq).2] at hr
    running := fun _ => by dsimp only; split <;> simp
    reported := fun h => by simp [hflag] at h
    live := fun h => by simp [hflag] at h
    lastByte := fun h => by simp [hflag] at h
    shifting := fun h => by dsimp only at h; split at h <;> simp at h
    setupIdle := hi.setupIdle, triggerModes := hi.triggerModes, operands := hi.operands, receives := hi.receives,
    written := hi.written, toSend := hi.toSend, buffer := hi.buffer, foreground := hi.foreground,
    statusBits := .inr rfl }

/-- R144 to R146: arbitration is lost in a shift. -/
theorem Invariant.after_arbLost {s : State} (hi : Invariant s) (hp : s.bc.pending = .shift) :
    Invariant (bcDone (bcArbLost s)) := by
  rw [bcDone_bcArbLost]
  exact hi.endsShift hp .arbitrationLost (by decide) rfl rfl rfl rfl (hi.shifting hp).2.2

/-- R144. -/
theorem Invariant.after_performAddress {s : State} (hi : Invariant s) (hp : s.bc.pending = .shift) (o : Reply) (b : Byte) :
    Invariant (performAddress o b s) := by
  obtain ⟨hown, -, hdata⟩ := hi.shifting hp
  cases o with
  | arbLost => exact hi.after_arbLost hp
  | ack =>
    rw [performAddress_ack]
    cases hd : directionBit b
    · exact hi.completesShift hp .addressAckedForWrite rfl rfl rfl rfl hdata (fun _ => by simp) (fun _ => hown)
    · exact hi.completesShift hp .addressAckedForRead rfl rfl rfl rfl hdata (fun _ => by simp) (fun _ => hown)
  | nack =>
    rw [performAddress_nack]
    cases hd : directionBit b
    · exact hi.endsShift hp .addressNackedForWrite (by decide) rfl rfl rfl rfl hdata
    · exact hi.endsShift hp .addressNackedForRead (by decide) rfl rfl rfl rfl hdata

/-- R145. -/
theorem Invariant.after_performDataOut {s : State} (hi : Invariant s) (hp : s.bc.pending = .shift) (o : Reply) (b : Byte) :
    Invariant (performDataOut o b s) := by
  obtain ⟨hown, hphase, hdata⟩ := hi.shifting hp
  cases o with
  | arbLost => exact hi.after_arbLost hp
  | ack =>
    rw [performDataOut_ack]
    exact hi.completesShift hp .dataByteAcked rfl rfl rfl rfl hdata (fun _ => hphase) (fun _ => hown)
  | nack =>
    rw [performDataOut_nack]
    exact hi.endsShift hp .dataByteNacked (by decide) rfl rfl rfl rfl hdata

/-- R146. -/
theorem Invariant.after_performDataIn {s : State} (hi : Invariant s) (hp : s.bc.pending = .shift) (x : Byte) (lose : Bool) :
    Invariant (performDataIn x lose s) := by
  obtain ⟨hown, hphase, -⟩ := hi.shifting hp
  cases he : s.bc.ea
  · cases lose
    · rw [performDataIn_nack x he]
      exact hi.completesShift hp .dataByteNackedOnReceive rfl rfl rfl rfl rfl (fun h => absurd h (by decide)) (fun _ => hown)
    · rw [performDataIn_lose x he]
      exact hi.endsShift hp .arbitrationLost (by decide) rfl rfl rfl rfl rfl
  · rw [performDataIn_ack x lose he]
    exact hi.completesShift hp .dataByteAckedOnReceive rfl rfl rfl rfl rfl (fun _ => hphase) (fun _ => hown)

/-- R142, where BC may report the start or takes no step. -/
theorem Invariant.after_bcStart {s : State} (hi : Invariant s) (owned : Bool) : Invariant (bcStart owned s) := by
  unfold bcStart
  split
  · rename_i h
    simp only [Bool.and_eq_true, bcEnabled_iff] at h
    exact hi.after_performStart h.1.2
  · exact hi

/-- R140: a shift finds a value in DATA. -/
theorem Invariant.dataRead_of_shift {s : State} (hi : Invariant s) (hp : s.bc.pending = .shift) :
    ∃ b, dataRead s = .ok b := by
  obtain ⟨b, hb⟩ := Option.isSome_iff_exists.mp (hi.shifting hp).2.2
  exact ⟨b, by rw [dataRead, hb, valued_some]⟩

/-- R144, where BC may report the reply or takes no step. -/
theorem Invariant.after_bcAddress {s : State} (hi : Invariant s) (o : Reply) (dir : Bool) : Invariant (bcAddress o dir s) := by
  unfold bcAddress
  split
  · rename_i h
    have hp := (shiftEnabled_iff.mp h).2.1
    obtain ⟨b, hb⟩ := hi.dataRead_of_shift hp
    rw [hb, State.use_ok]
    split
    · exact hi.after_performAddress hp o b
    · exact hi
  · exact hi

/-- R145, where BC may report the reply or takes no step. -/
theorem Invariant.after_bcDataOut {s : State} (hi : Invariant s) (o : Reply) : Invariant (bcDataOut o s) := by
  unfold bcDataOut
  split
  · rename_i h
    have hp := (shiftEnabled_iff.mp h).2.1
    obtain ⟨b, hb⟩ := hi.dataRead_of_shift hp
    rw [hb, State.use_ok]
    exact hi.after_performDataOut hp o b
  · exact hi

/-- R146, where BC may report the acknowledge bit or takes no step. -/
theorem Invariant.after_bcDataIn {s : State} (hi : Invariant s) (x : Byte) (ea : Bool) : Invariant (bcDataIn x ea s) := by
  unfold bcDataIn
  split
  · rename_i h
    simp only [Bool.and_eq_true, shiftEnabled_iff] at h
    exact hi.after_performDataIn h.1.2.1 x false
  · exact hi

/-- R144 to R146: the draws ArbLost and Lose. -/
theorem Invariant.after_bcArbitration {s : State} (hi : Invariant s) (x : Byte) : Invariant (bcArbitration x s) := by
  unfold bcArbitration
  split
  · rename_i h
    simp only [Bool.and_eq_true, bcEnabled_iff] at h
    have hp := h.2.2
    obtain ⟨b, hb⟩ := hi.dataRead_of_shift hp
    rw [hb]
    cases s.bc.phase with
    | none => exact hi
    | addr => exact hi.after_performAddress hp .arbLost b
    | txData => exact hi.after_performDataOut hp .arbLost b
    | rxData =>
      dsimp only
      split
      · exact hi
      · exact hi.after_performDataIn hp x true
  · exact hi

/-- R143, R147: a stop; a shift always has something to shift. -/
theorem Invariant.after_bcSilent {s : State} (hi : Invariant s) : Invariant (bcSilent s) := by
  unfold bcSilent
  split
  · rename_i h
    simp only [Bool.or_eq_true, bcEnabled_iff] at h
    exact hi.after_performStop (h.imp And.right And.right)
  · split
    · rename_i h
      obtain ⟨-, hp, hphase⟩ := shiftEnabled_iff.mp h
      exact absurd hphase (hi.shifting hp).2.1
    · exact hi

/-- R149: a bus error reports an unlisted status. -/
theorem Invariant.after_bcBusError {s : State} (hi : Invariant s) (e : Byte) : Invariant (bcBusError e s) := by
  unfold bcBusError
  split
  · rename_i h
    simp only [Bool.and_eq_true, bcEnabled_iff, busErrorStatus, beq_iff_eq, Option.isNone_iff_eq_none,
      StatusCodes.symbolOf_eq_none] at h
    obtain ⟨⟨⟨-, -, hp⟩, -⟩, hmask, hunlisted⟩ := h
    refine hi.completes (fun q => absurd q (hi.not_quiet_of_shift hp)) rfl rfl rfl hmask
      (.inr (.inr (hi.shifting hp).2.2)) (fun hc => ?_) (fun hl => absurd hl.symm (hunlisted .dataByteNackedOnReceive))
    obtain hc | hc | hc | hc | hc | hc := hc
    · exact absurd hc.symm (hunlisted .startSent)
    · exact absurd hc.symm (hunlisted .repeatedStartSent)
    · exact absurd hc.symm (hunlisted .addressAckedForWrite)
    · exact absurd hc.symm (hunlisted .dataByteAcked)
    · exact absurd hc.symm (hunlisted .addressAckedForRead)
    · exact absurd hc.symm (hunlisted .dataByteAckedOnReceive)
  · exact hi

/-- The row of any listed status keeps the invariant (R142 to R146). -/
theorem Invariant.after_statusRow {s t : State} (hi : Invariant s) (x : Byte) (sym : StatusSymbol)
    (h : exec (sym.instr x) s = .next t) : Invariant t := by
  cases sym <;> obtain ⟨-, rfl⟩ := atomic_eq_next.mp h
  case startSent | repeatedStartSent => exact hi.after_bcStart _
  case addressAckedForWrite | addressNackedForWrite | addressAckedForRead | addressNackedForRead =>
    exact hi.after_bcAddress _ _
  case dataByteAcked | dataByteNacked => exact hi.after_bcDataOut _
  case arbitrationLost => exact hi.after_bcArbitration x
  case dataByteAckedOnReceive | dataByteNackedOnReceive => exact hi.after_bcDataIn x _

/-- Every turn of BC keeps the invariant. -/
theorem Invariant.after_bcTurn {s t : State} (hi : Invariant s) (e : Ev) (h : bcTurn e s = .next t) : Invariant t := by
  cases e with
  | none =>
    obtain ⟨-, rfl⟩ := atomic_eq_next.mp h
    exact hi.after_bcSilent
  | status st x =>
    simp only [bcTurn, decode, decodeStatus] at h
    cases hs : s.cfg.codes.symbolOf (st &&& s.cfg.statusMask) with
    | some sym =>
      rw [hs] at h
      exact hi.after_statusRow x sym h
    | none =>
      rw [hs] at h
      obtain ⟨-, rfl⟩ := atomic_eq_next.mp h
      exact hi.after_bcBusError st

/-! ## EH's turn keeps the invariant -/

/-- R63: EH reads a status that is inside the mask. -/
theorem Invariant.maskedStatus_eq {s : State} (hi : Invariant s) (hirq : irq s = true) :
    maskedStatus s = s.bc.status :=
  (hi.reported (hi.of_irq hirq).2.2.1).1

/-- R114: EH moves in a transfer only. -/
theorem Invariant.mode_of_irq {s : State} (hi : Invariant s) (hirq : irq s = true) : s.mode ≠ .idle :=
  fun hm => (hi.of_irq hirq).1 (.inl hm)

/-- Below LEN the index register does not overflow (R28). -/
theorem idx_succ {s : State} (h : s.idx.toNat < s.len.toNat) : (s.idx + 1).toNat = s.idx.toNat + 1 := by
  have := s.len.isLt
  bv_omega

/-- R83: a start loads the address byte. -/
theorem Invariant.after_aLoadAddr {s : State} (hi : Invariant s) (hirq : irq s = true)
    (hst : s.bc.status = s.cfg.codes.startSent ∨ s.bc.status = s.cfg.codes.repeatedStartSent) :
    Invariant (aLoadAddr s) := by
  obtain ⟨hq, hr, hf, -, hp⟩ := hi.of_irq hirq
  obtain ⟨b, hb⟩ := Option.isSome_iff_exists.mp (hi.operands (hi.mode_of_irq hirq)).1
  obtain ⟨hown, hphase⟩ := hi.live hf (hst.imp_right .inl)
  rw [aLoadAddr_spec hf hp hb]
  exact hi.shift hq hr rfl rfl rfl rfl rfl rfl rfl rfl rfl hi.bounds.1 (fun _ h => h) hi.written hi.buffer rfl rfl
    hown hphase rfl rfl

/-- R84: a transmit loads its next byte. -/
theorem Invariant.after_aTxNext {s : State} (hi : Invariant s) (hirq : irq s = true) (hm : s.mode = .masterTransmit)
    (hlt : s.idx.toNat < s.len.toNat) (hlive : Continues s.cfg.codes s.bc.status) : Invariant (aTxNext s) := by
  obtain ⟨hq, hr, hf, -, hp⟩ := hi.of_irq hirq
  obtain ⟨b, hb⟩ := Option.isSome_iff_exists.mp (hi.toSend hm _ hlt)
  obtain ⟨hown, hphase⟩ := hi.live hf hlive
  have hsucc := idx_succ hlt
  rw [aTxNext_spec hf hp (lt_of_lt_of_le hlt hi.bounds.2) hb]
  exact hi.shift hq hr rfl rfl rfl rfl rfl rfl rfl rfl rfl (by dsimp only; omega) (fun _ h => h)
    (fun i h => hi.toSend hm i (by dsimp only at h; omega)) hi.buffer rfl rfl hown hphase rfl rfl

/-- R85: a receive requests its next byte. -/
theorem Invariant.after_aRxRequest {s : State} (hi : Invariant s) (hirq : irq s = true) (a : Bool)
    (hlive : Continues s.cfg.codes s.bc.status) (hdata : s.bc.data.isSome) : Invariant (aRxRequest a s) := by
  obtain ⟨hq, hr, hf, -, hp⟩ := hi.of_irq hirq
  obtain ⟨hown, hphase⟩ := hi.live hf hlive
  rw [aRxRequest_spec a hp]
  exact hi.shift hq hr rfl rfl rfl rfl rfl rfl rfl rfl rfl hi.bounds.1 (fun _ h => h) hi.written hi.buffer rfl rfl
    hown hphase hdata rfl

/-- R86: a byte stored at IDX, below LEN. -/
theorem Invariant.stored {s : State} (hi : Invariant s) (x : Byte) (hlt : s.idx.toNat < s.len.toNat) :
    Invariant { s with buf := s.buf.write s.idx.toNat x, idx := s.idx + 1 } := by
  have hsucc := idx_succ hlt
  have hcap := hi.bounds.2
  have hkept (i : Nat) (h : i < s.idx.toNat + 1 ∨ (s.buf.read i).isSome) :
      ((s.buf.write s.idx.toNat x).read i).isSome := by
    rw [Memory.read_write]
    split
    · rfl
    · exact h.elim (fun h => hi.written i (by omega)) id
  exact {
    config := hi.config, noBench := hi.noBench,
    bounds := ⟨by dsimp only; omega, hcap⟩
    modes := hi.modes, repeatedStart := hi.repeatedStart, lastErr := hi.lastErr,
    noErrorInTransfer := hi.noErrorInTransfer, flagPending := hi.flagPending, free := hi.free, held := hi.held,
    running := hi.running, reported := hi.reported, live := hi.live, lastByte := hi.lastByte, shifting := hi.shifting,
    setupIdle := hi.setupIdle, triggerModes := hi.triggerModes, operands := hi.operands, receives := hi.receives,
    written := fun i h => hkept i (.inl (by dsimp only at h; omega))
    toSend := fun hm i h => hkept i (.inr (hi.toSend hm i h))
    buffer := by
      refine ⟨Memory.wf_write hi.buffer.1 _ _, fun c hc => ?_⟩
      obtain rfl | hc := Memory.mem_write hc
      · exact lt_of_lt_of_le hlt hcap
      · exact hi.buffer.2 c hc
    foreground := hi.foreground, statusBits := hi.statusBits }

/-- R86: A_STORE raises nothing, with room or without, and changes BUF and IDX at most. -/
theorem Invariant.after_aStore {s : State} (hi : Invariant s) (hs : s.refused = none) (hdata : s.bc.data.isSome) :
    ∃ m i, (∀ f, (aStore s).andThen f = f { s with buf := m, idx := i }) ∧ Invariant { s with buf := m, idx := i } := by
  by_cases hlt : s.idx.toNat < s.len.toNat
  · obtain ⟨x, hx⟩ := Option.isSome_iff_exists.mp hdata
    refine ⟨_, _, fun f => ?_, hi.stored x hlt⟩
    rw [aStore_spec hs hlt (lt_of_lt_of_le hlt hi.bounds.2) hx]
    exact State.andThen_of_running (by exact hs) f
  · refine ⟨s.buf, s.idx, fun f => ?_, hi⟩
    rw [aStore_full (Nat.le_of_not_lt hlt)]
    exact State.andThen_of_running hs f

/-- R87: a transfer ends with a stop, or with a repeated start on the bus that it holds. -/
theorem Invariant.after_aComplete {s : State} (hi : Invariant s) (hirq : irq s = true) (hs : s.refused = none)
    (hown : s.bc.owned = true) : Invariant (aComplete s) := by
  obtain ⟨hq, hr, hf, -, hp⟩ := hi.of_irq hirq
  obtain ⟨stop, hstop⟩ := Option.isSome_iff_exists.mp (hi.operands (hi.mode_of_irq hirq)).2
  cases stop
  · rw [aComplete_repstart hs hp hstop]
    exact hi.transferEnd hq rfl rfl rfl rfl rfl hi.bounds.1 hi.written hi.buffer hi.lastErr rfl
      (.inr ⟨rfl, rfl, rfl, hown⟩) rfl
  · rw [aComplete_stop hs hp hstop]
    exact hi.transferEnd hq rfl rfl rfl rfl rfl hi.bounds.1 hi.written hi.buffer hi.lastErr rfl (.inl ⟨hr, rfl⟩) rfl

/-- R88: a failure ends the transfer with a stop, and records a masked status. -/
theorem Invariant.after_aFail {s : State} (hi : Invariant s) (hirq : irq s = true) (hs : s.refused = none) {e : Byte}
    (he : e &&& s.cfg.statusMask = e) : Invariant (aFail e s) := by
  obtain ⟨hq, hr, hf, -, hp⟩ := hi.of_irq hirq
  rw [aFail_spec e hs hp]
  exact hi.transferEnd hq rfl rfl rfl rfl rfl hi.bounds.1 hi.written hi.buffer (.inr he) rfl (.inl ⟨hr, rfl⟩) rfl

/-- R120, R121. -/
theorem Invariant.after_txNextOrComplete {s : State} (hi : Invariant s) (hirq : irq s = true) (hs : s.refused = none)
    (hm : s.mode = .masterTransmit) (hlive : Continues s.cfg.codes s.bc.status) : Invariant (txNextOrComplete s) := by
  unfold txNextOrComplete
  split
  · exact hi.after_aTxNext hirq hm ‹_› hlive
  · exact hi.after_aComplete hirq hs (hi.live (hi.of_irq hirq).2.2.1 hlive).1

/-- R140, R146: DATA holds a value at every status but that of a start. -/
theorem Invariant.data_of_status {s : State} (hi : Invariant s) (hirq : irq s = true) {x : StatusSymbol}
    (hx : s.cfg.codes.code x = s.bc.status) (hne : x ≠ .startSent ∧ x ≠ .repeatedStartSent) : s.bc.data.isSome := by
  have hinj := code_injective hi.conform
  obtain h | h | h := (hi.reported (hi.of_irq hirq).2.2.1).2
  · exact absurd (hinj (a₂ := .startSent) (hx.trans h)) hne.1
  · exact absurd (hinj (a₂ := .repeatedStartSent) (hx.trans h)) hne.2
  · exact h

/-- R64(a): the status is one after which the transfer may go on where its symbol is. -/
theorem Invariant.continues_of_symbol {s : State} (hi : Invariant s) {x : StatusSymbol}
    (hx : s.cfg.codes.code x = s.bc.status) (hg : goesOn x = true) : Continues s.cfg.codes s.bc.status :=
  hx ▸ (continues_code_iff hi.conform x).mpr hg

/-- R118 to R125: every row of MasterTransmit. -/
theorem Invariant.after_transmitRow {s t : State} (hi : Invariant s) (hirq : irq s = true)
    (hm : s.mode = .masterTransmit) (h : exec (decodeEvent s.cfg .masterTransmit s.bc.status) s = .next t) :
    Invariant t := by
  have hmask := (hi.reported (hi.of_irq hirq).2.2.1).1
  cases hsym : s.cfg.codes.symbolOf s.bc.status with
  | none =>
    simp only [decodeEvent, hsym] at h
    obtain ⟨hs, rfl⟩ := atomic_eq_next.mp h
    exact hi.after_aFail hirq hs hmask
  | some x =>
    have hx := StatusCodes.code_of_symbolOf hsym
    have hlive := hi.continues_of_symbol hx
    cases x <;> simp only [decodeEvent, hsym] at h <;> obtain ⟨hs, rfl⟩ := atomic_eq_next.mp h
    case startSent => exact hi.after_aLoadAddr hirq (.inl hx.symm)
    case repeatedStartSent => exact hi.after_aLoadAddr hirq (.inr hx.symm)
    case addressAckedForWrite | dataByteAcked => exact hi.after_txNextOrComplete hirq hs hm (hlive rfl)
    case addressNackedForWrite => exact hi.after_aFail hirq hs (code_masked hi.conform .addressNackedForWrite)
    case dataByteNacked => exact hi.after_aFail hirq hs (code_masked hi.conform .dataByteNacked)
    case arbitrationLost => exact hi.after_aFail hirq hs (code_masked hi.conform .arbitrationLost)
    all_goals exact hi.after_aFail hirq hs hmask

/-- R127 to R134: every row of MasterReceive. -/
theorem Invariant.after_receiveRow {s t : State} (hi : Invariant s) (hirq : irq s = true)
    (h : exec (decodeEvent s.cfg .masterReceive s.bc.status) s = .next t) : Invariant t := by
  have hf := (hi.of_irq hirq).2.2.1
  have hmask := (hi.reported hf).1
  cases hsym : s.cfg.codes.symbolOf s.bc.status with
  | none =>
    simp only [decodeEvent, hsym] at h
    obtain ⟨hs, rfl⟩ := atomic_eq_next.mp h
    exact hi.after_aFail hirq hs hmask
  | some x =>
    have hx := StatusCodes.code_of_symbolOf hsym
    have hlive := hi.continues_of_symbol hx
    cases x <;>
      simp only [decodeEvent, hsym, exec, execMrDataByteAckedOnReceive, execMrDataByteNackedOnReceive] at h <;>
      obtain ⟨hs, rfl⟩ := atomic_eq_next.mp h
    case startSent => exact hi.after_aLoadAddr hirq (.inl hx.symm)
    case repeatedStartSent => exact hi.after_aLoadAddr hirq (.inr hx.symm)
    case addressAckedForRead =>
      exact hi.after_aRxRequest hirq _ (hlive rfl) (hi.data_of_status hirq hx (by decide))
    case dataByteAckedOnReceive =>
      have hdata := hi.data_of_status hirq hx (by decide)
      obtain ⟨m, i, hthen, hi'⟩ := hi.after_aStore hs hdata
      rw [hthen]
      split
      · exact hi'.after_aComplete hirq hs (hi.live hf (hlive rfl)).1
      · exact hi'.after_aRxRequest hirq _ (hlive rfl) hdata
    case dataByteNackedOnReceive =>
      obtain ⟨m, i, hthen, hi'⟩ := hi.after_aStore hs (hi.data_of_status hirq hx (by decide))
      rw [hthen]
      exact hi'.after_aComplete hirq hs (hi.lastByte hf hx.symm)
    case addressNackedForRead => exact hi.after_aFail hirq hs (code_masked hi.conform .addressNackedForRead)
    case arbitrationLost => exact hi.after_aFail hirq hs (code_masked hi.conform .arbitrationLost)
    all_goals exact hi.after_aFail hirq hs hmask

/-- Every turn of EH keeps the invariant. -/
theorem Invariant.after_ehTurn {s t : State} (hi : Invariant s) (h : ehTurn s = .next t) : Invariant t := by
  cases hirq : irq s
  · rw [ehTurn_of_not_irq hirq] at h
    exact Host.Outcome.next.inj h ▸ hi
  · rw [ehTurn_of_irq hirq (decode_eventKey _ _ _), hi.maskedStatus_eq hirq] at h
    obtain hm | hm | hm := hi.modes <;> rw [hm] at h
    · exact absurd hm (hi.mode_of_irq hirq)
    · exact hi.after_transmitRow hirq hm h
    · exact hi.after_receiveRow hirq h

/-! ## FG's turn keeps the invariant -/

/-- A control write with INT = 0 while no transfer runs and no repeated start is held (R138, R150, R151). -/
theorem Invariant.armed {s : State} {b : Bc} (hi : Invariant s) (hq : Quiet s)
    (hr : s.rsPending = false) (hflag : b.flag = s.bc.flag)
    (hpend : b.pending = s.bc.pending ∨ b.pending = .none ∧ (s.bc.pending = .start ∨ s.bc.pending = .stop))
    (hstatus : b.status = s.bc.status) : Invariant { s with bc := b } := by
  obtain ⟨hf, hp⟩ := hi.free hq hr
  have hb : b.flag = false := hflag.trans hf
  have hpb : b.pending = .none ∨ b.pending = .stop := hpend.elim (fun h => h ▸ hp) (fun h => .inl h.1)
  exact {
    config := hi.config, noBench := hi.noBench, bounds := hi.bounds, modes := hi.modes,
    repeatedStart := hi.repeatedStart, lastErr := hi.lastErr, noErrorInTransfer := hi.noErrorInTransfer,
    flagPending := by simp [hb]
    free := fun _ _ => ⟨hb, hpb⟩
    held := fun _ h => by simp [hr] at h
    running := fun h => absurd hq h
    reported := by simp [hb]
    live := by simp [hb]
    lastByte := by simp [hb]
    shifting := fun (h : b.pending = .shift) => by simp [h] at hpb
    setupIdle := hi.setupIdle, triggerModes := hi.triggerModes, operands := hi.operands, receives := hi.receives,
    written := hi.written, toSend := hi.toSend, buffer := hi.buffer, foreground := hi.foreground,
    statusBits := by dsimp only; rw [hstatus]; exact hi.statusBits }

/-- R93: INIT, of a run that is Idle with no repeated start held. -/
theorem Invariant.after_execInit {s t : State} (hi : Invariant s) (hpc : s.fg.pc = .ready)
    (h : exec .init s = .next t) : Invariant t := by
  simp only [exec, execInit, atomic_eq_next] at h
  obtain ⟨hs, rfl⟩ := h
  split
  · rename_i hguard
    obtain ⟨hm, hr⟩ := hguard
    have hi' : Invariant { s with mode := .idle, fg := { s.fg with pc := .ready } } := by
      rw [← hm, ← hpc]
      exact hi
    split
    · exact hi.inputs _ _ _ _ _ _ _
    · rename_i d _
      obtain ⟨b, hb, hflag, -, hpend, hstatus, -⟩ :=
        writeControl_arms (n := .init) (s := bitrateWrite d { s with mode := .idle }) rfl
      rw [hb, State.andThen_of_running (by exact hs)]
      exact (hi'.armed (.inl rfl) hr hflag hpend hstatus).inputs _ _ _ _ _ _ _
  · exact hi.inputs _ _ _ _ _ _ _

/-- R95. -/
theorem Invariant.after_execWrite {s t : State} (hi : Invariant s) (hpc : s.fg.pc = .ready) {a : BitVec 7}
    {l : BitVec 8} {w p : Bool} {data : List Byte} (h : exec (.write a l w p data) s = .next t) : Invariant t := by
  simp only [exec, execWrite, atomic_eq_next] at h
  obtain ⟨hs, rfl⟩ := h
  split
  · exact hi.inputs _ _ _ _ _ _ _
  · split
    · exact hi.inputs _ _ _ _ _ _ _
    · rename_i hlen _
      exact hi.foregroundOnly (by simp [hpc]) (by simp) (by simp)
        ⟨l, data, rfl, rfl, not_not.mp hlen, rfl, rfl, rfl⟩

/-- R103: the length is clamped to CAP, which the length register holds (R75, R177). -/
theorem Invariant.after_execRead {s t : State} (hi : Invariant s) (hpc : s.fg.pc = .ready) {a : BitVec 7}
    {l : BitVec 8} {p : Bool} (h : exec (.read a l p) s = .next t) : Invariant t := by
  simp only [exec, execRead, atomic_eq_next] at h
  obtain ⟨hs, rfl⟩ := h
  split
  · exact hi.inputs _ _ _ _ _ _ _
  · split
    · exact hi.inputs _ _ _ _ _ _ _
    · rename_i hlen
      have hcap := cap_le_of_configOk hi.config
      have hmin : effectiveReadLength s.cfg l ≤ s.cfg.cap := min_le_right _ _
      have htoNat : (BitVec.ofNat 8 (effectiveReadLength s.cfg l)).toNat = effectiveReadLength s.cfg l := by
        rw [BitVec.toNat_ofNat]
        omega
      exact hi.foregroundOnly (by simp [hpc]) (by simp) (by simp)
        ⟨_, rfl, by rw [htoNat]; omega, by rw [htoNat]; exact hmin, rfl, rfl⟩

/-- R91: FG takes the next command of the host. -/
theorem Invariant.after_runCommand {s t : State} (hi : Invariant s) (hpc : s.fg.pc = .ready) (c : Command)
    (h : runCommand c s = .next t) : Invariant t := by
  simp only [runCommand, decode] at h
  obtain hd | hd | ⟨a, l, w, p, hd⟩ | ⟨a, l, p, hd⟩ := decodeCommand_cases c.word c.data <;> rw [hd] at h
  · obtain ⟨-, rfl⟩ := atomic_eq_next.mp h
    exact hi.inputs _ _ _ _ _ _ _
  · exact hi.after_execInit hpc h
  · exact hi.after_execWrite hpc h
  · exact hi.after_execRead hpc h

/-- FG answers a command and is Ready again (R96, R101, R108). -/
theorem Invariant.answered {s : State} {f : Fg} (hi : Invariant s)
    (hs : s.fg.pc ≠ .wTrigger ∧ s.fg.pc ≠ .rTrigger) (hf : f.pc = .ready) (trace : List Event) :
    Invariant { s with fg := f, trace := trace } :=
  (hi.foregroundOnly (f := f) hs (by simp [hf]) (by simp [hf]) (by simp [FgHolds, hf])).inputs _ _ _ _ _ _ _

/-- R96. -/
theorem Invariant.after_wCheck {s : State} (hi : Invariant s) (hpc : s.fg.pc = .wCheck) : Invariant (wCheck s) := by
  have hholds := hi.foreground
  simp only [FgHolds, hpc] at hholds
  obtain ⟨len, data, hlen, hdata, hlength, hregs⟩ := hholds
  simp only [wCheck, hlen, valued_some, State.use_ok]
  split
  · exact hi.answered (by simp [hpc]) rfl _
  · exact hi.foregroundOnly (by simp [hpc]) (by simp) (by simp)
      ⟨len, data, hlen, hdata, hlength, by dsimp only; omega, hregs⟩

/-- R97, R100, R104, R107: a wait phase goes on with the registers that the next phase reads. -/
theorem Invariant.after_waitIdle {s : State} {q : Phase} (hi : Invariant s)
    (hs : s.fg.pc ≠ .wTrigger ∧ s.fg.pc ≠ .rTrigger) (hq : q ≠ .wTrigger ∧ q ≠ .rTrigger)
    (hholds : FgHolds (s.goto q)) : Invariant (waitIdle q s) := by
  unfold waitIdle
  split
  · exact hi.foregroundOnly hs hq (fun _ => ‹_›) hholds
  · exact hi

/-- R98, R105: a setup writes the transfer's registers while MODE is Idle, and its trigger is next. -/
theorem Invariant.setUp {s : State} {mode : Mode} {stop : Bool} {m : Memory} {len : BitVec 8} {sla : Byte} {f : Fg}
    (hi : Invariant s) (hidle : s.mode = .idle)
    (hmode : mode = .masterTransmit ∧ f.pc = .wTrigger ∨ mode = .masterReceive ∧ f.pc = .rTrigger)
    (hcap : len.toNat ≤ s.cfg.cap) (hbuf : m.wf = true ∧ ∀ c ∈ m, c.1 < s.cfg.cap)
    (hsend : mode = .masterTransmit → ∀ i, i < len.toNat → (m.read i).isSome)
    (hreceive : mode = .masterReceive → 1 ≤ len.toNat) (hholds : FgHolds { s with len := len, fg := f }) :
    Invariant { s with
      mode := mode, sendStop := some stop, lastErr := noErrorYet, buf := m, len := len, idx := 0, slaRw := some sla,
      fg := f } := by
  have hs : Quiet s := .inl hidle
  have hq : Quiet { s with mode := mode, fg := f } := .inr (hmode.imp And.right And.right)
  exact {
    config := hi.config, noBench := hi.noBench
    bounds := ⟨Nat.zero_le _, hcap⟩
    modes := .inr (hmode.imp And.left And.left)
    repeatedStart := fun _ => hq
    lastErr := .inl rfl
    noErrorInTransfer := fun _ => rfl
    flagPending := hi.flagPending
    free := fun _ => hi.free hs
    held := fun _ => hi.held hs
    running := fun h => absurd hq h
    reported := hi.reported, live := hi.live, lastByte := hi.lastByte, shifting := hi.shifting
    setupIdle := fun h => by obtain h' | h' := hmode <;> simp [h'.2] at h
    triggerModes := by obtain h' | h' := hmode <;> simp [h']
    operands := fun _ => ⟨rfl, rfl⟩
    receives := hreceive
    written := fun i h => absurd h (Nat.not_lt_zero i)
    toSend := hsend
    buffer := hbuf
    foreground := hholds
    statusBits := hi.statusBits }

/-- R98. -/
theorem Invariant.after_wSetup {s : State} (hi : Invariant s) (hs : s.refused = none) (hpc : s.fg.pc = .wSetup) :
    Invariant (wSetup s) := by
  have hholds := hi.foreground
  simp only [FgHolds, hpc] at hholds
  obtain ⟨len, data, hlen, hdata, hlength, hcap, haddr, hwait, hstop⟩ := hholds
  obtain ⟨a, ha⟩ := Option.isSome_iff_exists.mp haddr
  obtain ⟨stop, hstop⟩ := Option.isSome_iff_exists.mp hstop
  obtain ⟨m, heq, hread, hwf, hmem⟩ := wSetup_spec hs ha hlen hstop hdata hlength hcap
  rw [heq]
  refine hi.setUp (hi.setupIdle (.inl hpc)) (.inl ⟨rfl, rfl⟩) hcap ⟨hwf hi.buffer.1, fun c hc => ?_⟩
    (fun _ i h => ?_) (by simp) hwait
  · exact (hmem c hc).elim (hi.buffer.2 c) (fun h => lt_of_lt_of_le h hcap)
  · rw [hread, if_pos h]
    simp [hlength, h]

/-- R105. -/
theorem Invariant.after_rSetup {s : State} (hi : Invariant s) (hpc : s.fg.pc = .rSetup) : Invariant (rSetup s) := by
  have hholds := hi.foreground
  simp only [FgHolds, hpc] at hholds
  obtain ⟨len, hlen, hpos, hcap, haddr, hstop⟩ := hholds
  obtain ⟨a, ha⟩ := Option.isSome_iff_exists.mp haddr
  obtain ⟨stop, hstop⟩ := Option.isSome_iff_exists.mp hstop
  rw [rSetup_spec ha hlen hstop]
  exact hi.setUp (hi.setupIdle (.inr hpc)) (.inr ⟨rfl, rfl⟩) hcap hi.buffer (by simp) (fun _ => hpos) hlen

/-- R99, R106: a trigger consumes the held repeated start or requests a start, and raises nothing. -/
theorem Invariant.trigger_cases {s : State} (hi : Invariant s) (hq : Quiet s) :
    ∃ trace b, trigger s = { s with rsPending := false, trace := trace, bc := b } ∧
      (b.flag = true → s.bc.flag = true ∧ b.pending = .none) ∧ b.pending ≠ .stop ∧ b.pending ≠ .shift ∧
      b.status = s.bc.status ∧ b.data = s.bc.data ∧ b.owned = s.bc.owned ∧ b.phase = s.bc.phase := by
  cases hr : s.rsPending
  · rw [trigger_start hr, ← hr]
    obtain ⟨-, hp | hp⟩ := hi.free hq hr
    · rw [writeControl_of_none rfl hp]
      exact ⟨_, _, rfl, by simp [CtrlName.bits]⟩
    · rw [writeControl_of_stop rfl rfl hp, stopRaceOnStart]
      split <;> exact ⟨_, _, rfl, by simp [Bc.latch]⟩
  · rw [trigger_resume hr]
    obtain ⟨b, hb, hflag, -, hpend, hstatus, hdata, howned, hphase, -⟩ :=
      writeControl_arms (n := .resume) (s := { s with rsPending := false }) rfl
    have hnone : s.bc.flag = true → s.bc.pending = .none := hi.flagPending
    have hheld := (hi.held hq hr).2.2
    refine ⟨_, b, hb, fun h => ⟨hflag ▸ h, ?_⟩, ?_, ?_, hstatus, hdata, howned, hphase⟩
    · have := hnone (hflag ▸ h)
      simpa [this] using hpend
    all_goals
      obtain h | h := hheld
      · simp [hnone h] at hpend
        simp [hpend]
      · obtain h' | h' := hpend <;> simp [h', h]

/-- R99, R106: the transfer that a setup has prepared goes to the bus. -/
theorem Invariant.triggered {s : State} {b : Bc} {q : Phase} (hi : Invariant s) (hat : atTrigger s)
    (hflag : b.flag = true → s.bc.flag = true ∧ b.pending = .none) (hstop : b.pending ≠ .stop)
    (hshift : b.pending ≠ .shift) (hstatus : b.status = s.bc.status) (hdata : b.data = s.bc.data)
    (howned : b.owned = s.bc.owned) (hphase : b.phase = s.bc.phase)
    (hq : q = .wWaitDone ∨ q = .wResult ∨ q = .rWaitDone ∧ s.fg.pc = .rTrigger) :
    Invariant { s with rsPending := false, bc := b, fg := { s.fg with pc := q } } := by
  have hmode : s.mode ≠ .idle := by
    obtain h | h := hat
    · simp [hi.triggerModes.1 h]
    · simp [hi.triggerModes.2 h]
  have hpc : (q ≠ .wTrigger ∧ q ≠ .rTrigger) ∧ q ≠ .wSetup ∧ q ≠ .rSetup := by
    obtain rfl | rfl | ⟨rfl, -⟩ := hq <;> decide
  have hquiet : ¬Quiet { s with fg := { s.fg with pc := q } } := by
    rintro (h | h | h)
    · exact hmode h
    · exact hpc.1.1 h
    · exact hpc.1.2 h
  exact {
    config := hi.config, noBench := hi.noBench, bounds := hi.bounds, modes := hi.modes,
    repeatedStart := by simp
    lastErr := hi.lastErr, noErrorInTransfer := hi.noErrorInTransfer,
    flagPending := fun h => (hflag h).2
    free := fun h => absurd h hquiet
    held := fun h => absurd h hquiet
    running := fun _ => hstop
    reported := fun h => by dsimp only; rw [hstatus, hdata]; exact hi.reported (hflag h).1
    live := fun h => by dsimp only; rw [hstatus, howned, hphase]; exact hi.live (hflag h).1
    lastByte := fun h => by dsimp only; rw [hstatus, howned]; exact hi.lastByte (hflag h).1
    shifting := fun h => absurd h hshift
    setupIdle := fun h => h.elim (fun h => absurd h hpc.2.1) (fun h => absurd h hpc.2.2)
    triggerModes := ⟨fun h => absurd h hpc.1.1, fun h => absurd h hpc.1.2⟩
    operands := hi.operands, receives := hi.receives, written := hi.written, toSend := hi.toSend,
    buffer := hi.buffer
    foreground := by
      obtain rfl | rfl | ⟨rfl, hr⟩ := hq
      · trivial
      · trivial
      · have := hi.foreground
        simp only [FgHolds, hr] at this
        exact this
    statusBits := by dsimp only; rw [hstatus]; exact hi.statusBits }

/-- R99. -/
theorem Invariant.after_wTrigger {s : State} (hi : Invariant s) (hs : s.refused = none) (hpc : s.fg.pc = .wTrigger) :
    Invariant (wTrigger s) := by
  have hholds := hi.foreground
  simp only [FgHolds, hpc] at hholds
  obtain ⟨w, hw⟩ := Option.isSome_iff_exists.mp hholds
  obtain ⟨trace, b, heq, hflag, hstop, hshift, hstatus, hdata, howned, hphase⟩ := hi.trigger_cases (.inr (.inl hpc))
  rw [wTrigger_spec (w := w) (by rw [heq]; exact hs) (by rw [heq]; exact hw), heq]
  have hq : (if w then Phase.wWaitDone else .wResult) = .wWaitDone ∨
      (if w then Phase.wWaitDone else .wResult) = .wResult := by cases w <;> decide
  exact (hi.triggered (.inl hpc) hflag hstop hshift hstatus hdata howned hphase (hq.imp_right .inl)).inputs
    _ _ _ _ _ _ _

/-- R106. -/
theorem Invariant.after_rTrigger {s : State} (hi : Invariant s) (hs : s.refused = none) (hpc : s.fg.pc = .rTrigger) :
    Invariant (rTrigger s) := by
  obtain ⟨trace, b, heq, hflag, hstop, hshift, hstatus, hdata, howned, hphase⟩ := hi.trigger_cases (.inr (.inr hpc))
  rw [rTrigger_spec (by rw [heq]; exact hs), heq]
  exact (hi.triggered (.inr hpc) hflag hstop hshift hstatus hdata howned hphase (.inr (.inr ⟨rfl, hpc⟩))).inputs
    _ _ _ _ _ _ _

/-- R108: the bytes that R_COPY answers have been written. -/
theorem Invariant.after_rCopy {s : State} (hi : Invariant s) (hpc : s.fg.pc = .rCopy) : Invariant (rCopy s) := by
  obtain ⟨out, -, -, heq⟩ := rCopy_spec (hi.bounds.1.trans hi.bounds.2) hi.written
  rw [heq]
  exact hi.answered (by simp [hpc]) rfl _

/-- Every micro-step of FG keeps the invariant (R92). -/
theorem Invariant.after_fgMicroStep {s : State} (hi : Invariant s) (hs : s.refused = none) :
    Invariant (fgMicroStep s) := by
  have hholds := hi.foreground
  cases hpc : s.fg.pc <;> simp only [fgMicroStep, hpc] <;> simp only [FgHolds, hpc] at hholds
  case ready => exact hi
  case wCheck => exact hi.after_wCheck hpc
  case wWaitIdle | wWaitDone | rWaitIdle | rWaitDone =>
    exact hi.after_waitIdle (by simp [hpc]) (by simp) hholds
  case wSetup => exact hi.after_wSetup hs hpc
  case wTrigger => exact hi.after_wTrigger hs hpc
  case wResult => exact hi.answered (by simp [hpc]) rfl _
  case rSetup => exact hi.after_rSetup hpc
  case rTrigger => exact hi.after_rTrigger hs hpc
  case rCopy => exact hi.after_rCopy hpc

/-- Every turn of FG keeps the invariant. -/
theorem Invariant.after_fgTurn {s t : State} (hi : Invariant s) (h : fgTurn s = .next t) : Invariant t := by
  unfold fgTurn at h
  split at h
  · exact Host.Outcome.next.inj h ▸ hi
  · rename_i c rest hpc _
    exact (hi.inputs rest s.sched s.tick s.drop s.refused s.trace s.initDone).after_runCommand hpc c h
  · obtain ⟨hs, rfl⟩ := atomic_eq_next.mp h
    exact hi.after_fgMicroStep hs

/-! ## Every step keeps the invariant -/

/-- Settles O53: a step is one agent's turn (R5), and each agent's turn keeps the invariant. -/
theorem stepKeepsInvariant : Obligations.StepKeepsInvariant := by
  intro s t hi hstep
  obtain ⟨-, sched, tick, drop, hturn⟩ := step_cases hi.config hi.noBench hstep
  have hi' := hi.inputs s.host sched tick drop s.refused s.trace s.initDone
  obtain h | h | ⟨e, h⟩ := hturn
  · exact hi'.after_fgTurn h
  · exact hi'.after_ehTurn h
  · exact hi'.after_bcTurn e h

/-! ## What FG leaves alone -/

/-- R33, R161: between `s` and `t` the configuration, DATA, STATUS, WC, the bus and the schedule are unchanged, and the
flag is not set. -/
def FgKeeps (s t : State) : Prop :=
  t.cfg = s.cfg ∧ t.bc.data = s.bc.data ∧ t.bc.status = s.bc.status ∧ t.bc.wc = s.bc.wc ∧
  t.bc.owned = s.bc.owned ∧ t.bc.phase = s.bc.phase ∧ (t.bc.flag = true → s.bc.flag = true) ∧
  t.sched = s.sched ∧ t.tick = s.tick ∧ t.drop = s.drop ∧ t.bench = s.bench

theorem FgKeeps.refl (s : State) : FgKeeps s s := ⟨rfl, rfl, rfl, rfl, rfl, rfl, id, rfl, rfl, rfl, rfl⟩

/-- A statement after a step that keeps, whether it takes effect or not. -/
theorem FgKeeps.andThen {s u : State} {f : State → State} (h : FgKeeps s u) (hf : FgKeeps s (f u)) :
    FgKeeps s (u.andThen f) := by
  unfold State.andThen
  split
  · exact hf
  · exact h

/-- A statement that reads a value, or the refusal that the read ends in. -/
theorem FgKeeps.use {α : Type} {s u : State} {r : Except RefuseReason α} {f : α → State → State} (h : FgKeeps s u)
    (hf : ∀ a, FgKeeps s (f a u)) : FgKeeps s (u.use r f) := by
  cases r with
  | ok a => exact hf a
  | error e => exact h

/-- R138: no control write sets the flag. -/
theorem ctrlWrite_flag (v : Byte) (s : State) (h : (ctrlWrite v s).bc.flag = true) : s.bc.flag = true := by
  simp only [ctrlWrite] at h
  split at h
  · simp only [launch, stopRaceOnStart] at h
    split at h
    · simp at h
    · split at h
      · split at h <;> simp at h
      · exact h
    all_goals exact h
  · simp only [noLaunch, resumeRaceOnWrite, stopRaceOnWrite] at h
    split at h
    · split at h <;> exact h
    · split at h <;> exact h
    all_goals exact h

/-- A control write is one of the accesses that FG makes (R81, R82, R93). -/
theorem FgKeeps.after_writeControl {s u : State} (h : FgKeeps s u) (n : CtrlName) : FgKeeps s (writeControl n u) := by
  obtain ⟨hcfg, hdata, hstatus, hwc, howned, hphase, hflag, hsched, htick, hdrop, hbench⟩ := h
  have hframe := ctrlWrite_frame (n.byte u.cfg.layout) u
  obtain ⟨hstatus', hdata', hwc', -, howned', hphase'⟩ := ctrlWrite_bc_frame (n.byte u.cfg.layout) u
  unfold writeControl
  refine ⟨?_, hdata'.trans hdata, hstatus'.trans hstatus, hwc'.trans hwc, howned'.trans howned,
    hphase'.trans hphase, fun hf => hflag (ctrlWrite_flag _ u hf), ?_⟩
  · rw [hframe]; exact hcfg
  · rw [hframe]; exact ⟨hsched, htick, hdrop, hbench⟩

/-- R99, R106. -/
theorem fgKeeps_trigger (s : State) : FgKeeps s (trigger s) := by
  unfold trigger
  split
  · exact FgKeeps.after_writeControl (u := { s with rsPending := false }) (FgKeeps.refl s) .resume
  · exact FgKeeps.after_writeControl (FgKeeps.refl s) .start

/-- R98: the copy-in writes BUF only. -/
theorem fgKeeps_copyIn {s u : State} (h : FgKeeps s u) (data : List Byte) (n : Nat) : FgKeeps s (copyIn data n u) := by
  induction n with
  | zero => exact h
  | succ n ih =>
    refine ih.andThen (ih.use fun b => ?_)
    unfold memWrite
    split <;> exact ih

/-- R98. -/
theorem fgKeeps_wSetup (s : State) : FgKeeps s (wSetup s) := by
  have h : FgKeeps s s := FgKeeps.refl s
  refine FgKeeps.use h fun stop => FgKeeps.use h fun len => FgKeeps.use h fun data => ?_
  have hcopy := fgKeeps_copyIn (s := s)
    (u := { s with mode := .masterTransmit, sendStop := some stop, lastErr := noErrorYet }) h data len.toNat
  exact hcopy.andThen (FgKeeps.use hcopy fun _ => hcopy)

/-- Every micro-step of FG (R92). -/
theorem fgKeeps_fgMicroStep (s : State) : FgKeeps s (fgMicroStep s) := by
  have h : FgKeeps s s := FgKeeps.refl s
  have hwait (q : Phase) : FgKeeps s (waitIdle q s) := by
    unfold waitIdle
    split <;> exact h
  cases hpc : s.fg.pc <;> simp only [fgMicroStep, hpc]
  case ready | wResult => exact h
  case wCheck => exact h.use fun len => by split <;> exact h
  case wWaitIdle | wWaitDone | rWaitIdle | rWaitDone => exact hwait _
  case wSetup => exact fgKeeps_wSetup s
  case wTrigger =>
    have ht := fgKeeps_trigger s
    exact ht.andThen (ht.use fun w => by cases w <;> exact ht)
  case rSetup => exact FgKeeps.use h fun _ => FgKeeps.use h fun _ => FgKeeps.use h fun _ => h
  case rTrigger => exact (fgKeeps_trigger s).andThen (fgKeeps_trigger s)
  case rCopy => exact h.use fun _ => h

/-- R93, R95, R103: a command writes the flag and BITRATE of BC and FG's registers at most. -/
theorem fgKeeps_runCommand {s t : State} (c : Command) (h : runCommand c s = .next t) : FgKeeps s t := by
  have hs : FgKeeps s s := FgKeeps.refl s
  simp only [runCommand, decode] at h
  obtain hd | hd | ⟨a, l, w, p, hd⟩ | ⟨a, l, p, hd⟩ := decodeCommand_cases c.word c.data <;>
    simp only [hd, exec, execInit, execWrite, execRead, atomic_eq_next] at h <;> obtain ⟨-, rfl⟩ := h
  · exact hs
  · split
    · split
      · exact hs
      · rename_i d _
        have hw := FgKeeps.after_writeControl (u := bitrateWrite d { s with mode := .idle }) hs .init
        exact hw.andThen hw
    · exact hs
  · split
    · exact hs
    · split <;> exact hs
  · split
    · exact hs
    · split <;> exact hs

/-- Settles O49: a turn of FG is a command, a micro-step or nothing, and each leaves these registers alone. -/
theorem fgFrame : Obligations.FgFrame := by
  intro s t h
  show FgKeeps s t
  unfold fgTurn at h
  split at h
  · exact Host.Outcome.next.inj h ▸ FgKeeps.refl s
  · rename_i c rest _ _
    exact fgKeeps_runCommand (s := { s with host := rest }) c h
  · obtain ⟨-, rfl⟩ := atomic_eq_next.mp h
    exact fgKeeps_fgMicroStep s

/-! ## Reads of no value -/

/-- R52: an index of CAP or above is no address of BUF. -/
theorem memRead_of_ge {s : State} {i : Nat} (h : s.cfg.cap ≤ i) : memRead s i = .error .bufferIndex := by
  simp [memRead, h]

/-- R41: a byte of BUF that nothing has written. -/
theorem memRead_of_none {s : State} {i : Nat} (h : i < s.cfg.cap) (hn : s.buf.read i = none) :
    memRead s i = .error .unwrittenRead := by
  simp [memRead, Nat.not_le.mpr h, hn]

/-- R140: DATA before anything has written it. -/
theorem dataRead_of_none {s : State} (h : s.bc.data = none) : dataRead s = .error .unwrittenRead := by
  rw [dataRead, h, valued_none]

/-- R83 with SLA_RW unwritten. -/
theorem aLoadAddr_of_none {s : State} (h : s.slaRw = none) : aLoadAddr s = s.raise .unwrittenRead := by
  rw [aLoadAddr, h, valued_none, State.use_error]

/-- R84 where the load of BUF[IDX] raises. -/
theorem aTxNext_of_error {s : State} {r : RefuseReason} (h : memRead s s.idx.toNat = .error r) :
    aTxNext s = s.raise r := by
  rw [aTxNext, h, State.use_error]

/-- R87 with SEND_STOP unwritten. -/
theorem aComplete_of_none {s : State} (h : s.sendStop = none) : aComplete s = s.raise .unwrittenRead := by
  rw [aComplete, h, valued_none, State.use_error]

/-- R86 with room and with DATA unwritten. -/
theorem aStore_of_none {s : State} (hlt : s.idx.toNat < s.len.toNat) (h : s.bc.data = none) :
    aStore s = s.raise .unwrittenRead := by
  rw [aStore, if_pos hlt, dataRead_of_none h, State.use_error]

/-- R86 with room, where IDX is no address of BUF: IDX does not advance (log entry 6). -/
theorem aStore_of_ge {s : State} (hlt : s.idx.toNat < s.len.toNat) (hdata : s.bc.data.isSome)
    (hcap : s.cfg.cap ≤ s.idx.toNat) : aStore s = s.raise .bufferIndex := by
  obtain ⟨x, hx⟩ := Option.isSome_iff_exists.mp hdata
  rw [aStore, if_pos hlt, dataRead, hx, valued_some, State.use_ok, memWrite, if_pos hcap]
  rfl

section Rows

variable {s t : State} {r : RefuseReason} (hs : s.refused = none)
include hs

/-- R118, R119, R127, R128: the rows that load the address byte. -/
theorem exec_loadingRow (h : aLoadAddr s = t) :
    ∀ i ∈ [Instr.mtStartSent, .mtRepeatedStartSent, .mrStartSent, .mrRepeatedStartSent], exec i s = .next t := by
  subst h
  simp only [List.forall_mem_cons, exec, execMtStartSent, execMtRepeatedStartSent, execMrStartSent,
    execMrRepeatedStartSent, atomic_of_running hs]
  simp

/-- R120, R121: the rows that send the next byte or complete. -/
theorem exec_sendingRow (h : txNextOrComplete s = t) :
    ∀ i ∈ [Instr.mtAddressAckedForWrite, .mtDataByteAcked], exec i s = .next t := by
  subst h
  simp only [List.forall_mem_cons, exec, execMtAddressAckedForWrite, execMtDataByteAcked, atomic_of_running hs]
  simp

/-- R130, R131: nothing follows a store that raises. -/
theorem exec_storingRow_of_raise (h : aStore s = s.raise r) :
    ∀ i ∈ [Instr.mrDataByteAckedOnReceive, .mrDataByteNackedOnReceive], exec i s = .next (s.raise r) := by
  simp only [List.forall_mem_cons, exec, execMrDataByteAckedOnReceive, execMrDataByteNackedOnReceive,
    atomic_of_running hs, h, State.andThen_of_refused (State.raise_refused s r)]
  simp

/-- R131: the last byte is stored, then the transfer completes. -/
theorem exec_mrDataByteNackedOnReceive (h : aStore s = t) (ht : t.refused = none) :
    exec .mrDataByteNackedOnReceive s = .next (aComplete t) := by
  simp only [exec, execMrDataByteNackedOnReceive, atomic_of_running hs, h, State.andThen_of_running ht]

/-- R130: a byte is stored; without room for another the transfer completes. -/
theorem exec_mrDataByteAckedOnReceive_of_full (h : aStore s = t) (ht : t.refused = none)
    (hfull : t.len.toNat ≤ t.idx.toNat) : exec .mrDataByteAckedOnReceive s = .next (aComplete t) := by
  simp only [exec, execMrDataByteAckedOnReceive, atomic_of_running hs, h, State.andThen_of_running ht, if_pos hfull]

/-- R145 with DATA unwritten (log entry 22). -/
theorem exec_dataOut_of_none (hshift : shiftEnabled .txData s = true) (hdata : s.bc.data = none) :
    ∀ i ∈ [Instr.dataByteAcked, .dataByteNacked], exec i s = .next (s.raise .unwrittenRead) := by
  simp only [List.forall_mem_cons, exec, execDataByteAcked, execDataByteNacked, atomic_of_running hs, bcDataOut,
    if_pos hshift, dataRead_of_none hdata, State.use_error]
  simp

/-- R144, R145: arbitration lost in a byte that DATA does not hold (log entry 22). -/
theorem exec_arbitrationLost_of_none (hen : bcEnabled .shift s = true)
    (hphase : s.bc.phase = .addr ∨ s.bc.phase = .txData) (hdata : s.bc.data = none)
    (harb : s.cfg.arbLossAdmitted = true) (x : Byte) :
    exec (.arbitrationLost x) s = .next (s.raise .unwrittenRead) := by
  simp only [exec, execArbitrationLost, atomic_of_running hs, bcArbitration, harb, hen, Bool.and_self, if_true]
  obtain h | h := hphase <;> simp only [h, dataRead_of_none hdata, State.use_error]

end Rows

/-- Settles O45: each action that finds no value, or an index of CAP or above, raises, and its row ends there. -/
theorem valuelessReadsRaise : Obligations.ValuelessReadsRaise := by
  intro s hs
  refine ⟨fun i hi h => exec_loadingRow hs (aLoadAddr_of_none h) i hi,
    fun i hi => ⟨fun hle h => ?_, fun hlt hcap h => ?_, fun hlt hcap => ?_⟩,
    fun i hi hlt => ⟨fun h => ?_, fun h hcap => ?_⟩,
    fun hstop => ⟨fun hle i hi => ?_, fun x hlt hcap hx => ?_⟩, fun hshift h => ?_, fun hshift h harb x => ?_⟩
  · refine exec_sendingRow hs ?_ i hi
    rw [txNextOrComplete, if_neg (Nat.not_lt.mpr hle)]
    exact aComplete_of_none h
  · refine exec_sendingRow hs ?_ i hi
    rw [txNextOrComplete, if_pos hlt]
    exact aTxNext_of_error (memRead_of_none hcap h)
  · refine exec_sendingRow hs ?_ i hi
    rw [txNextOrComplete, if_pos hlt]
    exact aTxNext_of_error (memRead_of_ge hcap)
  · exact exec_storingRow_of_raise hs (aStore_of_none hlt h) i hi
  · exact exec_storingRow_of_raise hs (aStore_of_ge hlt h hcap) i hi
  · have hfull := aStore_full hle
    simp only [List.mem_cons, List.not_mem_nil, or_false] at hi
    obtain rfl | rfl := hi
    · exact (exec_mrDataByteAckedOnReceive_of_full hs hfull hs hle).trans (congrArg _ (aComplete_of_none hstop))
    · exact (exec_mrDataByteNackedOnReceive hs hfull hs).trans (congrArg _ (aComplete_of_none hstop))
  · have hstore := aStore_spec hs hlt hcap hx
    refine ⟨_, Memory.read_write s.buf s.idx.toNat x, ?_, fun hlen => ?_⟩
    · exact (exec_mrDataByteNackedOnReceive hs hstore hs).trans (congrArg _ (aComplete_of_none hstop))
    · have hfull : s.len.toNat ≤ (s.idx + 1).toNat := by rw [idx_succ hlt]; omega
      exact (exec_mrDataByteAckedOnReceive_of_full hs hstore hs hfull).trans (congrArg _ (aComplete_of_none hstop))
  · obtain ⟨-, henabled⟩ := hshift
    exact exec_dataOut_of_none hs (shiftEnabled_iff.mpr henabled) h
  · have henabled : bcEnabled .shift s = true ∧ (s.bc.phase = .addr ∨ s.bc.phase = .txData) := by
      rw [bcEnabled_iff]
      obtain ⟨-, hen, hp, hphase⟩ | ⟨-, hen, hp, hphase⟩ := hshift
      · exact ⟨⟨hen, hp⟩, .inl hphase⟩
      · exact ⟨⟨hen, hp⟩, .inr hphase⟩
    exact exec_arbitrationLost_of_none hs henabled.1 henabled.2 h harb x

/-! ## Reset -/

/-- Settles O50: each register of `State.reset` holds the value of R41 or R43. -/
theorem resetValues : Obligations.ResetValues :=
  ⟨rfl, rfl, rfl, rfl, rfl, rfl, rfl, fun _ => rfl, rfl, rfl, rfl, rfl, rfl, rfl, rfl, rfl, rfl, rfl, rfl, rfl⟩

/-- R42, R43: at reset no transfer runs and BC has nothing to report. -/
theorem quiet_reset : Quiet State.reset := .inl rfl

/-- R177: the default configuration is valid (log entry 7). -/
theorem configOk_default : configOk Config.default = true := by decide

/-- Settles O52: at reset MODE is Idle, BC is silent, and no register or byte is claimed to hold a value. -/
theorem invariantAtReset : Obligations.InvariantAtReset where
  config := configOk_default
  noBench := rfl
  bounds := ⟨Nat.le_refl 0, Nat.zero_le 32⟩
  modes := .inl rfl
  repeatedStart := nofun
  lastErr := .inl rfl
  noErrorInTransfer := fun h => absurd rfl h
  flagPending := nofun
  free := fun _ _ => ⟨rfl, .inl rfl⟩
  held := fun _ => nofun
  running := fun h => absurd quiet_reset h
  reported := nofun
  live := nofun
  lastByte := nofun
  shifting := nofun
  setupIdle := fun _ => rfl
  triggerModes := ⟨nofun, nofun⟩
  operands := fun h => absurd rfl h
  receives := nofun
  written := fun i h => absurd h (Nat.not_lt_zero i)
  toSend := nofun
  buffer := ⟨Memory.wf_nil, nofun⟩
  foreground := trivial
  statusBits := .inr rfl

end Sys2Proof.Machine
end

section
/-! PROOFS. The encoding family (30_encoding.md R62 to R74): each format's decoder and encoder against the other, in the
word and in the byte form, and the values that the tables write out. -/

namespace Sys2Proof

open Machine

/-! ## Command words -/

/-- R69: the words that the port refuses. -/
def ReservedWord (w : BitVec 32) : Prop :=
  w.extractLsb' 0 2 = 0 ∨ w.extractLsb' 11 5 ≠ 0 ∨ w.extractLsb' 24 8 ≠ 0 ∨
    (w.extractLsb' 0 2 = 1 ∧ w.extractLsb' 2 30 ≠ 0) ∨ (w.extractLsb' 0 2 = 3 ∧ w.getLsbD 2 = false)

/-- R69: the command that a word stands for when it is not reserved. -/
def commandOf (w : BitVec 32) (data : List Byte) : Instr :=
  if w.extractLsb' 0 2 = 1 then .init
  else if w.extractLsb' 0 2 = 2 then
    .write (w.extractLsb' 4 7) (w.extractLsb' 16 8) (w.getLsbD 2) (w.getLsbD 3) data
  else .read (w.extractLsb' 4 7) (w.extractLsb' 16 8) (w.getLsbD 3)

/-- R68: OP has four values. -/
theorem op_cases (op : BitVec 2) : op = 0 ∨ op = 1 ∨ op = 2 ∨ op = 3 := by revert op; decide

theorem commandOf_init {w : BitVec 32} (h : w.extractLsb' 0 2 = 1) (data : List Byte) : commandOf w data = .init :=
  if_pos h

theorem commandOf_write {w : BitVec 32} (h : w.extractLsb' 0 2 = 2) (data : List Byte) :
    commandOf w data = .write (w.extractLsb' 4 7) (w.extractLsb' 16 8) (w.getLsbD 2) (w.getLsbD 3) data := by
  rw [commandOf, h]; rfl

theorem commandOf_read {w : BitVec 32} (h : w.extractLsb' 0 2 = 3) (data : List Byte) :
    commandOf w data = .read (w.extractLsb' 4 7) (w.extractLsb' 16 8) (w.getLsbD 3) := by
  rw [commandOf, h]; rfl

/-- R69: the words that are not reserved, by their OP. -/
theorem not_reservedWord_cases {w : BitVec 32} (h : ¬ReservedWord w) :
    w.extractLsb' 11 5 = 0 ∧ w.extractLsb' 24 8 = 0 ∧
      (w.extractLsb' 0 2 = 1 ∧ w.extractLsb' 2 30 = 0 ∨ w.extractLsb' 0 2 = 2 ∨
        w.extractLsb' 0 2 = 3 ∧ w.getLsbD 2 = true) := by
  simp only [ReservedWord, not_or, not_and, not_not, Bool.not_eq_false] at h
  obtain ⟨hop, hlow, hhigh, hinit, hread⟩ := h
  refine ⟨hlow, hhigh, ?_⟩
  obtain e | e | e | e := op_cases (w.extractLsb' 0 2)
  · exact absurd e hop
  · exact .inl ⟨e, hinit e⟩
  · exact .inr (.inl e)
  · exact .inr (.inr ⟨e, hread e⟩)

theorem decodeCommand_of_reserved {w : BitVec 32} (h : ReservedWord w) (data : List Byte) :
    decodeCommand w data = .error .reservedCommand := by
  simp only [decodeCommand]
  obtain h | h | h | ⟨hop, h⟩ | ⟨hop, h⟩ := h
  · rw [if_pos h]
  · rw [if_pos (Or.inl h), ite_self]
  · rw [if_pos (Or.inr h), ite_self]
  · rw [if_pos hop, if_pos h, ite_self, ite_self]
  · have hne : ¬w.extractLsb' 0 2 = 1 := by rw [hop]; decide
    rw [if_neg hne, if_pos hop, if_pos h, ite_self, ite_self]

theorem decodeCommand_of_not_reserved {w : BitVec 32} (h : ¬ReservedWord w) (data : List Byte) :
    decodeCommand w data = .ok (commandOf w data) := by
  obtain ⟨hlow, hhigh, ⟨hop, hrest⟩ | hop | ⟨hop, hwait⟩⟩ := not_reservedWord_cases h
  · rw [commandOf_init hop]
    simp only [decodeCommand, hop, hlow, hhigh, hrest]
    rfl
  · rw [commandOf_write hop]
    simp only [decodeCommand, hop, hlow, hhigh]
    rfl
  · rw [commandOf_read hop]
    simp only [decodeCommand, hop, hlow, hhigh, hwait]
    rfl

/-- R69: only a word that is not reserved decodes, and then to its command. -/
theorem decodeCommand_eq_ok {w : BitVec 32} {data : List Byte} {i : Instr} :
    decodeCommand w data = .ok i ↔ ¬ReservedWord w ∧ commandOf w data = i := by
  by_cases h : ReservedWord w
  · simp [decodeCommand_of_reserved h, h]
  · simp [decodeCommand_of_not_reserved h, h]

/-- R68: a command word is its fields, the highest first. -/
theorem commandWord_eq_fields (w : BitVec 32) :
    w = w.extractLsb' 24 8 ++ w.extractLsb' 16 8 ++ w.extractLsb' 11 5 ++ w.extractLsb' 4 7 ++
      BitVec.ofBool (w.getLsbD 3) ++ BitVec.ofBool (w.getLsbD 2) ++ w.extractLsb' 0 2 := by
  apply BitVec.eq_of_getLsbD_eq
  intro i hi
  simp only [BitVec.getLsbD_append, BitVec.getLsbD_extractLsb']
  interval_cases i <;> simp

theorem initWord_eq {w : BitVec 32} (hop : w.extractLsb' 0 2 = 1) (hrest : w.extractLsb' 2 30 = 0) : 1 = w := by
  have hw : w.extractLsb' 2 30 ++ w.extractLsb' 0 2 = w := BitVec.extractLsb'_append_extractLsb'
  rw [← hw, hop, hrest]
  rfl

theorem writeWord_fields {w : BitVec 32} (hop : w.extractLsb' 0 2 = 2) (hlow : w.extractLsb' 11 5 = 0)
    (hhigh : w.extractLsb' 24 8 = 0) :
    writeWord (w.extractLsb' 4 7) (w.extractLsb' 16 8) (w.getLsbD 2) (w.getLsbD 3) = w := by
  have hw := commandWord_eq_fields w
  rw [hop, hlow, hhigh] at hw
  exact hw.symm

theorem readWord_fields {w : BitVec 32} (hop : w.extractLsb' 0 2 = 3) (hwait : w.getLsbD 2 = true)
    (hlow : w.extractLsb' 11 5 = 0) (hhigh : w.extractLsb' 24 8 = 0) :
    readWord (w.extractLsb' 4 7) (w.extractLsb' 16 8) (w.getLsbD 3) = w := by
  have hw := commandWord_eq_fields w
  rw [hop, hlow, hhigh, hwait] at hw
  exact hw.symm

/-- R68: no bit of a command word that is not reserved is lost. -/
theorem encode_commandOf (c : Config) {w : BitVec 32} (h : ¬ReservedWord w) (data : List Byte) :
    encode c (commandOf w data) = .cmd32 w (if w.extractLsb' 0 2 = 2 then data else []) := by
  obtain ⟨hlow, hhigh, ⟨hop, hrest⟩ | hop | ⟨hop, hwait⟩⟩ := not_reservedWord_cases h
  · rw [commandOf_init hop, encode, initWord_eq hop hrest, hop]
    rfl
  · rw [commandOf_write hop, encode, writeWord_fields hop hlow hhigh, if_pos hop]
  · rw [commandOf_read hop, encode, readWord_fields hop hwait hlow hhigh, hop]
    rfl

theorem decodeCommand_writeWord (a : BitVec 7) (l : BitVec 8) (v p : Bool) (data : List Byte) :
    decodeCommand (writeWord a l v p) data = .ok (.write a l v p data) := by
  simp only [decodeCommand, writeWord_op, writeWord_reserved_low, writeWord_reserved_high, writeWord_addr,
    writeWord_len, writeWord_wait, writeWord_stop]
  rfl

theorem decodeCommand_readWord (a : BitVec 7) (l : BitVec 8) (p : Bool) (data : List Byte) :
    decodeCommand (readWord a l p) data = .ok (.read a l p) := by
  simp only [decodeCommand, readWord_op, readWord_reserved_low, readWord_reserved_high, readWord_addr, readWord_len,
    readWord_wait, readWord_stop]
  rfl

theorem decodeCommand_initWord (data : List Byte) : decodeCommand 1 data = .ok .init := rfl

/-! ## Control words -/

/-- R66: two control words share a byte exactly when they set the same bits. -/
theorem CtrlName.byte_eq_iff {l : CtrlLayout} {m n : CtrlName} : m.byte l = n.byte l ↔ m.bits = n.bits :=
  ⟨CtrlName.bits_eq_of_byte_eq, fun h => congrArg (CtrlBits.toByte l) h⟩

/-- The first name of a control word's byte (log entry 12). -/
def CtrlName.firstName : CtrlName → CtrlName
  | .resume => .init
  | .release => .nextAck
  | n => n

/-- R66: the byte of a control word decodes to the row of its first name. -/
theorem decodeControl_byte (c : Config) (n : CtrlName) :
    decodeControl c (n.byte c.layout) = .ok (controlRow n.firstName) := by
  cases n <;> simp [decodeControl, CtrlName.byte_eq_iff, CtrlName.bits, CtrlName.firstName, controlRow]

theorem encode_controlRow (c : Config) (n : CtrlName) : encode c (controlRow n) = .ctrl8 (n.byte c.layout) := by
  cases n <;> rfl

/-- R66: a byte that decodes is that of a control word. -/
theorem decodeControl_eq_ok {c : Config} {v : Byte} {i : Instr} (h : decodeControl c v = .ok i) :
    ∃ n : CtrlName, v = n.byte c.layout ∧ i = controlRow n := by
  unfold decodeControl at h
  split_ifs at h with h1 h2 h3 h4 h5 h6 <;> obtain rfl := Except.ok.inj h
  · exact ⟨.init, h1, rfl⟩
  · exact ⟨.start, h2, rfl⟩
  · exact ⟨.nextNoack, h3, rfl⟩
  · exact ⟨.nextAck, h4, rfl⟩
  · exact ⟨.stop, h5, rfl⟩
  · exact ⟨.repstart, h6, rfl⟩

/-! ## Statuses -/

/-- R62, R63: a listed code decodes to the row of its symbol. -/
theorem decodeStatus_code {c : Config} (h : codesConform c = true) (sym : StatusSymbol) (x : Byte) :
    decodeStatus c (c.codes.code sym) x = .ok (sym.instr x) := by
  simp only [decodeStatus, code_masked h, symbolOf_code h]

/-- R63: a status that decodes is, masked, the code of a symbol. -/
theorem decodeStatus_eq_ok {c : Config} {st x : Byte} {i : Instr} (h : decodeStatus c st x = .ok i) :
    ∃ sym : StatusSymbol, c.codes.code sym = st &&& c.statusMask ∧ i = sym.instr x := by
  unfold decodeStatus at h
  split at h
  next sym hsym => exact ⟨sym, StatusCodes.code_of_symbolOf hsym, (Except.ok.inj h).symm⟩
  next => exact nomatch h

theorem encode_statusRow (c : Config) (sym : StatusSymbol) (x : Byte) :
    ∃ y : Byte, encode c (sym.instr x) = .stat8 (c.codes.code sym) y := by
  cases sym <;> exact ⟨_, rfl⟩

/-! ## Event keys -/

/-- R73: the exact rows of the dispatch table. -/
def exactRow : Mode → StatusSymbol → Option Instr
  | .masterTransmit, .startSent => some .mtStartSent
  | .masterTransmit, .repeatedStartSent => some .mtRepeatedStartSent
  | .masterTransmit, .addressAckedForWrite => some .mtAddressAckedForWrite
  | .masterTransmit, .dataByteAcked => some .mtDataByteAcked
  | .masterTransmit, .dataByteNacked => some .mtDataByteNacked
  | .masterTransmit, .addressNackedForWrite => some .mtAddressNackedForWrite
  | .masterTransmit, .arbitrationLost => some .mtArbitrationLost
  | .masterReceive, .startSent => some .mrStartSent
  | .masterReceive, .repeatedStartSent => some .mrRepeatedStartSent
  | .masterReceive, .addressAckedForRead => some .mrAddressAckedForRead
  | .masterReceive, .dataByteAckedOnReceive => some .mrDataByteAckedOnReceive
  | .masterReceive, .dataByteNackedOnReceive => some .mrDataByteNackedOnReceive
  | .masterReceive, .addressNackedForRead => some .mrAddressNackedForRead
  | .masterReceive, .arbitrationLost => some .mrArbitrationLost
  | _, _ => none

/-- R73: the default row of a mode. -/
def defaultRow : Mode → Byte → Instr
  | .idle, s => .idleAny s
  | .masterTransmit, s => .mtOther s
  | .masterReceive, s => .mrOther s
  | .slaveTransmit, s => .slaveTransmitAny s
  | .slaveReceive, s => .slaveReceiveAny s
  | .reserved5, s => .reserved5Any s
  | .reserved6, s => .reserved6Any s
  | .reserved7, s => .reserved7Any s

/-- R73: an exact row comes before the mode's default row. -/
theorem decodeEvent_eq (c : Config) (m : Mode) (s : Byte) :
    decodeEvent c m s = ((c.codes.symbolOf s).bind (exactRow m)).getD (defaultRow m s) := by
  unfold decodeEvent
  cases c.codes.symbolOf s with
  | none => cases m <;> rfl
  | some x => cases m <;> cases x <;> rfl

theorem encode_defaultRow (c : Config) (m : Mode) (s : Byte) : encode c (defaultRow m s) = .evt11 (eventKey m s) := by
  cases m <;> rfl

theorem encode_exactRow (c : Config) {m : Mode} {x : StatusSymbol} {i : Instr} (h : exactRow m x = some i) :
    encode c i = .evt11 (eventKey m (c.codes.code x)) := by
  unfold exactRow at h
  split at h <;> cases h <;> rfl

/-- R73: a status with no exact row in its mode decodes to the default row. -/
theorem decodeEvent_default {c : Config} {m : Mode} {s : Byte}
    (h : ∀ x : StatusSymbol, c.codes.code x = s → exactRow m x = none) : decodeEvent c m s = defaultRow m s := by
  rw [decodeEvent_eq]
  cases hs : c.codes.symbolOf s with
  | none => rfl
  | some x => simp [h x (StatusCodes.code_of_symbolOf hs)]

/-- R73: the code of an exact row decodes to it. -/
theorem decodeEvent_exact {c : Config} (hc : codesConform c = true) {m : Mode} {x : StatusSymbol} {i : Instr}
    (h : exactRow m x = some i) : decodeEvent c m (c.codes.code x) = i := by
  simp [decodeEvent_eq, symbolOf_code hc, h]

theorem encode_decodeEvent (c : Config) (m : Mode) (s : Byte) :
    encode c (decodeEvent c m s) = .evt11 (eventKey m s) := by
  rw [decodeEvent_eq]
  cases hs : c.codes.symbolOf s with
  | none => exact encode_defaultRow c m s
  | some x =>
    obtain rfl := StatusCodes.code_of_symbolOf hs
    cases hr : exactRow m x with
    | none => simpa [hr] using encode_defaultRow c m _
    | some i => simpa [hr] using encode_exactRow c hr

/-- R73: the exact rows of a master mode are those of its statuses. -/
theorem exactRow_isSome (x : StatusSymbol) :
    (exactRow .masterTransmit x).isSome = x.inMt ∧ (exactRow .masterReceive x).isSome = x.inMr := by
  cases x <;> exact ⟨rfl, rfl⟩

/-- A condition that no symbol of R62 meets fails at every symbol. -/
theorem StatusSymbol.eq_false_of_not_any {p : StatusSymbol → Bool} (h : (!StatusSymbol.all.any p) = true)
    (x : StatusSymbol) : p x = false := by
  have hmem : x ∈ StatusSymbol.all := by cases x <;> decide
  rw [Bool.not_eq_true', List.any_eq_false] at h
  simpa using h x hmem

/-- R73: the default row of a mode stands for the statuses that have no exact row in it. -/
theorem exactRow_eq_none_of_wf {c : Config} {m : Mode} {s : Byte} (h : (defaultRow m s).wf c = true) (x : StatusSymbol)
    (hx : c.codes.code x = s) : exactRow m x = none := by
  obtain ⟨hmt, hmr⟩ := exactRow_isSome x
  cases m with
  | masterTransmit =>
    have hout := StatusSymbol.eq_false_of_not_any h x
    simpa [hx, ← hmt] using hout
  | masterReceive =>
    have hout := StatusSymbol.eq_false_of_not_any h x
    simpa [hx, ← hmr] using hout
  | _ => rfl

/-- R73: an event key is the one of its two fields. -/
theorem eventKey_fields (k : BitVec 11) : eventKey (Mode.ofBits (k.extractLsb' 8 3)) (k.extractLsb' 0 8) = k := by
  rw [eventKey, Mode.toBits_ofBits]
  exact BitVec.extractLsb'_append_extractLsb'

/-! ## The byte forms -/

/-- The value `p` decodes to `i`, and so do its bytes, with what follows them left over. -/
def DecodesTo (c : Config) (p : Packet) (i : Instr) : Prop :=
  decode c p = .ok i ∧ ∀ rest : List Byte, decodeBytes c p.format (p.bytes ++ rest) = .ok (i, rest)

theorem decodesTo_init (c : Config) : DecodesTo c (.cmd32 1 []) .init :=
  ⟨decodeCommand_initWord [], fun _ => rfl⟩

theorem decodesTo_read (c : Config) (a : BitVec 7) (l : BitVec 8) (p : Bool) :
    DecodesTo c (.cmd32 (readWord a l p) []) (.read a l p) := by
  refine ⟨decodeCommand_readWord a l p [], fun rest => ?_⟩
  simp [decodeBytes, Packet.format, Packet.bytes, wordOfBytes_bytes, decodeCommand_readWord]

/-- R49, R70: the LEN bytes after the word of a WRITE are its sequence. -/
theorem decodesTo_write (c : Config) (a : BitVec 7) {l : BitVec 8} (v p : Bool) {data : List Byte}
    (h : data.length = l.toNat) : DecodesTo c (.cmd32 (writeWord a l v p) data) (.write a l v p data) := by
  refine ⟨decodeCommand_writeWord a l v p data, fun rest => ?_⟩
  simp [decodeBytes, Packet.format, Packet.bytes, wordOfBytes_bytes, decodeCommand_writeWord, ← h]

theorem decodesTo_control (c : Config) (n : CtrlName) :
    DecodesTo c (.ctrl8 (n.byte c.layout)) (controlRow n.firstName) :=
  ⟨decodeControl_byte c n, fun rest => by
    simp [decodeBytes, Packet.format, Packet.bytes, decodeControl_byte]⟩

theorem decodesTo_status {c : Config} (h : codesConform c = true) (sym : StatusSymbol) (x : Byte) :
    DecodesTo c (.stat8 (c.codes.code sym) x) (sym.instr x) :=
  ⟨decodeStatus_code h sym x, fun rest => by
    simp [decodeBytes, Packet.format, Packet.bytes, decodeStatus_code h]⟩

/-- The second byte of an event key holds MODE, with its upper five bits 0 (log entry 16). -/
theorem modeByte_fields (m : BitVec 3) :
    (m.setWidth 8).extractLsb' 3 5 = 0 ∧ (m.setWidth 8).extractLsb' 0 3 = m := by
  revert m; decide

theorem decodesTo_event (c : Config) (m : Mode) (s : Byte) :
    DecodesTo c (.evt11 (eventKey m s)) (decodeEvent c m s) := by
  refine ⟨decode_eventKey c m s, fun rest => ?_⟩
  obtain ⟨hhigh, hmode⟩ := modeByte_fields m.toBits
  simp [decodeBytes, Packet.format, Packet.bytes, hhigh, hmode]

theorem decodesTo_exact {c : Config} (hc : codesConform c = true) (m : Mode) (x : StatusSymbol) {i : Instr}
    (h : exactRow m x = some i) : DecodesTo c (.evt11 (eventKey m (c.codes.code x))) i := by
  have := decodesTo_event c m (c.codes.code x)
  rwa [decodeEvent_exact hc h] at this

theorem decodesTo_default {c : Config} (m : Mode) {s : Byte} (h : (defaultRow m s).wf c = true) :
    DecodesTo c (.evt11 (eventKey m s)) (defaultRow m s) := by
  have := decodesTo_event c m s
  rwa [decodeEvent_default (exactRow_eq_none_of_wf h)] at this

/-- The row that a row's encoding decodes to: the first name of its control word, for any other row itself. -/
def firstNamed : Instr → Instr
  | .cwResume => .cwInit
  | .cwRelease => .cwNextAck
  | i => i

theorem firstNamed_eq_ite (i : Instr) :
    firstNamed i = if i = .cwResume then .cwInit else if i = .cwRelease then .cwNextAck else i := by
  cases i <;> rfl

/-- Each row's encoding decodes to it, by the lemma of its format. -/
theorem decodesTo_encode {c : Config} (hc : codesConform c = true) (i : Instr) (h : i.wf c = true) :
    DecodesTo c (encode c i) (firstNamed i) := by
  cases i with
  | init => exact decodesTo_init c
  | write a l v p data => exact decodesTo_write c a v p (by simpa [Instr.wf] using h)
  | read a l p => exact decodesTo_read c a l p
  | cwInit => exact decodesTo_control c .init
  | cwStart => exact decodesTo_control c .start
  | cwResume => exact decodesTo_control c .resume
  | cwNextNoack => exact decodesTo_control c .nextNoack
  | cwNextAck => exact decodesTo_control c .nextAck
  | cwStop => exact decodesTo_control c .stop
  | cwRepstart => exact decodesTo_control c .repstart
  | cwRelease => exact decodesTo_control c .release
  | startSent => exact decodesTo_status hc .startSent 0
  | repeatedStartSent => exact decodesTo_status hc .repeatedStartSent 0
  | addressAckedForWrite => exact decodesTo_status hc .addressAckedForWrite 0
  | addressNackedForWrite => exact decodesTo_status hc .addressNackedForWrite 0
  | dataByteAcked => exact decodesTo_status hc .dataByteAcked 0
  | dataByteNacked => exact decodesTo_status hc .dataByteNacked 0
  | arbitrationLost x => exact decodesTo_status hc .arbitrationLost x
  | addressAckedForRead => exact decodesTo_status hc .addressAckedForRead 0
  | addressNackedForRead => exact decodesTo_status hc .addressNackedForRead 0
  | dataByteAckedOnReceive x => exact decodesTo_status hc .dataByteAckedOnReceive x
  | dataByteNackedOnReceive x => exact decodesTo_status hc .dataByteNackedOnReceive x
  | mtStartSent => exact decodesTo_exact hc .masterTransmit .startSent rfl
  | mtRepeatedStartSent => exact decodesTo_exact hc .masterTransmit .repeatedStartSent rfl
  | mtAddressAckedForWrite => exact decodesTo_exact hc .masterTransmit .addressAckedForWrite rfl
  | mtDataByteAcked => exact decodesTo_exact hc .masterTransmit .dataByteAcked rfl
  | mtDataByteNacked => exact decodesTo_exact hc .masterTransmit .dataByteNacked rfl
  | mtAddressNackedForWrite => exact decodesTo_exact hc .masterTransmit .addressNackedForWrite rfl
  | mtArbitrationLost => exact decodesTo_exact hc .masterTransmit .arbitrationLost rfl
  | mrStartSent => exact decodesTo_exact hc .masterReceive .startSent rfl
  | mrRepeatedStartSent => exact decodesTo_exact hc .masterReceive .repeatedStartSent rfl
  | mrAddressAckedForRead => exact decodesTo_exact hc .masterReceive .addressAckedForRead rfl
  | mrDataByteAckedOnReceive => exact decodesTo_exact hc .masterReceive .dataByteAckedOnReceive rfl
  | mrDataByteNackedOnReceive => exact decodesTo_exact hc .masterReceive .dataByteNackedOnReceive rfl
  | mrAddressNackedForRead => exact decodesTo_exact hc .masterReceive .addressNackedForRead rfl
  | mrArbitrationLost => exact decodesTo_exact hc .masterReceive .arbitrationLost rfl
  | mtOther s => exact decodesTo_default .masterTransmit h
  | mrOther s => exact decodesTo_default .masterReceive h
  | idleAny s => exact decodesTo_default .idle h
  | slaveTransmitAny s => exact decodesTo_default .slaveTransmit h
  | slaveReceiveAny s => exact decodesTo_default .slaveReceive h
  | reserved5Any s => exact decodesTo_default .reserved5 h
  | reserved6Any s => exact decodesTo_default .reserved6 h
  | reserved7Any s => exact decodesTo_default .reserved7 h

/-- Settles O3: each row's value and its bytes decode to the row, by the lemma of its format; the two control words that
share another's byte decode to the first name of it. -/
theorem decodeOfEncode : Obligations.DecodeOfEncode := by
  intro c i rest hc hwf
  obtain ⟨hdecode, hbytes⟩ := decodesTo_encode hc i hwf
  rw [← firstNamed_eq_ite]
  exact ⟨hdecode, hbytes rest⟩

/-! ## Decoding and refusing -/

/-- R158: the port raises on a word that does not decode. -/
theorem runCommand_of_error {cmd : Command} {s : State} {e : DecodeError} (hs : s.refused = none)
    (h : decode s.cfg (.cmd32 cmd.word cmd.data) = .error e) : runCommand cmd s = .next (s.raise .reservedCommand) := by
  simp only [runCommand, h, atomic_of_running hs]

/-- Settles O2: a reserved word does not decode, and the port raises; any other decodes to the command of its OP. -/
theorem commandWordsDecodeOrRaiseReserved : Obligations.CommandWordsDecodeOrRaiseReserved :=
  fun _ data _ hs => ⟨fun h => runCommand_of_error hs (decodeCommand_of_reserved h data),
    fun h => decodeCommand_of_not_reserved h data⟩

/-- Settles O4: each format's decoder takes the fields that its encoder puts back. -/
theorem encodeOfDecode : Obligations.EncodeOfDecode := by
  refine ⟨fun c w data i h => ?_, fun c v i h => ?_, fun c k i h => ?_, fun c st x i h => ?_⟩
  · obtain ⟨hw, rfl⟩ := decodeCommand_eq_ok.mp h
    exact encode_commandOf c hw data
  · obtain ⟨n, rfl, rfl⟩ := decodeControl_eq_ok h
    exact encode_controlRow c n
  · obtain rfl := Except.ok.inj h
    rw [encode_decodeEvent, eventKey_fields]
  · obtain ⟨sym, hsym, rfl⟩ := decodeStatus_eq_ok h
    rw [← hsym]
    exact encode_statusRow c sym x

/-! ## Words and bytes written out -/

/-- Settles O1: each word is read by the decoder of its format. -/
theorem tableWordsDecode : Obligations.TableWordsDecode := by
  unfold Obligations.TableWordsDecode
  refine ⟨?_, ?_, ?_, ?_, ?_, ?_, ?_, ?_, ?_, ?_, ?_⟩ <;> decide

/-- R138: the meaning of a control word is a function of the bits that it sets. -/
theorem writeControl_eq_of_bits {m n : CtrlName} (h : m.bits = n.bits) : writeControl m = writeControl n :=
  funext fun s => congrArg (ctrlWrite · s) (CtrlName.byte_eq_iff.mpr h)

/-- Settles O5: the bytes and bits are read off R66's table; a pair of equal bits has one encoding and one meaning. -/
theorem controlWordComposition : Obligations.ControlWordComposition := by
  refine ⟨by decide, ?_, ?_, ?_, ?_, fun c => ⟨?_, ?_⟩, fun s => ⟨?_, ?_⟩⟩
  · intro n; cases n <;> decide
  · intro n; cases n <;> decide
  · intro n; cases n <;> decide
  · intro n; cases n <;> rfl
  · exact congrArg Packet.ctrl8 (CtrlName.byte_eq_iff.mpr rfl)
  · exact congrArg Packet.ctrl8 (CtrlName.byte_eq_iff.mpr rfl)
  · exact congrArg (atomic · s) (writeControl_eq_of_bits (m := .init) (n := .resume) rfl)
  · exact congrArg (atomic · s) (writeControl_eq_of_bits (m := .nextAck) (n := .release) rfl)

/-- R74: the address byte is the address followed by the direction bit. -/
theorem slaByte_eq_append (a : BitVec 7) (dir : Bool) : slaByte a dir = a ++ BitVec.ofBool dir := by
  apply BitVec.eq_of_getLsbD_eq
  intro i hi
  simp only [slaByte, BitVec.getLsbD_append]
  interval_cases i <;> simp

/-- Settles O6: the fields of the address byte are those of the address followed by the direction bit. -/
theorem addressByteHoldsAddressAndDirection : Obligations.AddressByteHoldsAddressAndDirection := by
  refine ⟨fun a dir => ⟨rfl, ?_, ?_⟩, by decide⟩
  · rw [slaByte_eq_append]
    exact BitVec.extractLsb'_append_eq_left
  · rw [slaByte_eq_append, BitVec.getLsbD_append]
    simp

end Sys2Proof
end

section
/-! PROOFS. The sequencer family (40_sequencer.md R80): the action that each event row runs, and the accesses to BC that
each action records. -/

namespace Sys2Proof.Machine

/-! ## What an event row runs -/

/-- From `s` to `t` in one step of EH, by the action that a row names. -/
inductive EventAction (s : State) : State → Prop
  | loadAddr : EventAction s (aLoadAddr s)
  | sendOrComplete : EventAction s (txNextOrComplete s)
  | request (a : Bool) : EventAction s (aRxRequest a s)
  | storeThenGoOn :
    EventAction s ((aStore s).andThen fun u =>
      if u.len.toNat ≤ u.idx.toNat then aComplete u else aRxRequest (acknowledges u.idx u.len) u)
  | storeThenComplete : EventAction s ((aStore s).andThen aComplete)
  | fail (e : Byte) : EventAction s (aFail e s)
  | release : EventAction s (aRelease s)
  | refuse : EventAction s (s.raise .reservedMode)

/-- An action runs as one atomic step (R111). -/
theorem EventAction.of_atomic {f : State → State} {s t : State} (h : atomic f s = .next t)
    (hf : EventAction s (f s)) : EventAction s t :=
  (atomic_eq_next.mp h).2 ▸ hf

/-- Every event row runs one of these actions (R113 to R134). -/
theorem eventAction_of_exec {i : Instr} {s t : State} (hi : isEventRow i = true) (h : exec i s = .next t) :
    EventAction s t := by
  cases i
  case mtStartSent | mtRepeatedStartSent | mrStartSent | mrRepeatedStartSent => exact .of_atomic h .loadAddr
  case mtAddressAckedForWrite | mtDataByteAcked => exact .of_atomic h .sendOrComplete
  case mrAddressAckedForRead => exact .of_atomic h (.request _)
  case mrDataByteAckedOnReceive =>
    simp only [exec, execMrDataByteAckedOnReceive] at h
    exact .of_atomic h .storeThenGoOn
  case mrDataByteNackedOnReceive =>
    simp only [exec, execMrDataByteNackedOnReceive] at h
    exact .of_atomic h .storeThenComplete
  case mtDataByteNacked | mtAddressNackedForWrite | mtArbitrationLost | mtOther | mrAddressNackedForRead |
      mrArbitrationLost | mrOther =>
    exact .of_atomic h (.fail _)
  case idleAny | slaveTransmitAny | slaveReceiveAny => exact .of_atomic h .release
  case reserved5Any | reserved6Any | reserved7Any =>
    simp only [exec, execReserved5Any, execReserved6Any, execReserved7Any] at h
    exact .of_atomic h .refuse
  all_goals exact absurd hi Bool.false_ne_true

/-! ## A step that took no refusal -/

/-- R158: where no refusal was taken, the statement after `;` took effect. -/
theorem State.andThen_eq_of_not_refused {s : State} {f : State → State} (h : (s.andThen f).refused = none) :
    s.andThen f = f s := by
  cases hs : s.refused with
  | none => exact State.andThen_of_running hs f
  | some r =>
    rw [State.andThen_of_refused hs, hs] at h
    exact absurd h (Option.some_ne_none r)

/-- R158: where no refusal was taken, the read gave a value. -/
theorem State.use_eq_of_not_refused {α : Type} {s : State} {r : Except RefuseReason α} {f : α → State → State}
    (h : (s.use r f).refused = none) : ∃ a, s.use r f = f a s := by
  cases r with
  | ok a => exact ⟨a, rfl⟩
  | error e => exact absurd h (Option.some_ne_none e)

/-! ## What is recorded -/

/-- A statement that records nothing, whether it takes effect or not. -/
theorem State.andThen_trace {s : State} {f : State → State} (hf : ∀ u, (f u).trace = u.trace) :
    (s.andThen f).trace = s.trace := by
  unfold State.andThen
  split
  · exact hf s
  · rfl

/-- R10, R138: a control write is recorded. -/
@[simp] theorem writeControl_trace (n : CtrlName) (s : State) :
    (writeControl n s).trace = s.trace ++ [.ctrl (n.byte s.cfg.layout)] := by
  rw [writeControl, ctrlWrite_frame]

/-- R10, R139: a data write is recorded, a lost one too. -/
@[simp] theorem dataWrite_trace (b : Byte) (s : State) : (dataWrite b s).trace = s.trace ++ [.data b] := by
  cases hf : s.bc.flag
  · rw [dataWrite_of_not_flag hf, State.record_trace]
  · rw [dataWrite_of_flag hf, State.record_trace]

/-- R48: a write of BUF is no event. -/
theorem memWrite_trace (i : Nat) (v : Byte) (s : State) : (memWrite i v s).trace = s.trace := by
  unfold memWrite
  split <;> rfl

/-- R86: A_STORE writes neither CTRL nor DATA. -/
theorem aStore_trace (s : State) : (aStore s).trace = s.trace := by
  unfold aStore
  split
  · cases dataRead s with
    | ok x =>
      rw [State.use_ok, State.andThen_trace]
      · exact memWrite_trace _ x s
      · exact fun _ => rfl
    | error r => rfl
  · rfl

/-! ## One control write, last -/

/-- R80: from `s` to `t` one control write was made, last, after at most one data write. -/
def OneCtrlWrite (s t : State) : Prop :=
  ∃ v : Byte, t.trace = s.trace ++ [.ctrl v] ∨ ∃ b : Byte, t.trace = s.trace ++ [.data b, .ctrl v]

/-- What comes before and records nothing makes no difference. -/
theorem OneCtrlWrite.of_trace_eq {s u t : State} (h : OneCtrlWrite u t) (htrace : u.trace = s.trace) :
    OneCtrlWrite s t := by
  simpa only [OneCtrlWrite, htrace] using h

/-- What comes after and records nothing makes no difference. -/
theorem OneCtrlWrite.andThen {s u : State} {f : State → State} (h : OneCtrlWrite s u)
    (hf : ∀ w, (f w).trace = w.trace) : OneCtrlWrite s (u.andThen f) := by
  simpa only [OneCtrlWrite, State.andThen_trace hf] using h

theorem oneCtrlWrite_writeControl (n : CtrlName) (s : State) : OneCtrlWrite s (writeControl n s) :=
  ⟨_, .inl (writeControl_trace n s)⟩

/-- The control write after a data write, where registers alone are written in between. -/
theorem oneCtrlWrite_after_dataWrite (n : CtrlName) {b : Byte} {s u : State} (hu : u.trace = (dataWrite b s).trace) :
    OneCtrlWrite s (writeControl n u) := by
  refine ⟨n.byte u.cfg.layout, .inr ⟨b, ?_⟩⟩
  rw [writeControl_trace, hu, dataWrite_trace, List.append_assoc]
  rfl

/-- R83. -/
theorem oneCtrlWrite_aLoadAddr {s : State} (h : (aLoadAddr s).refused = none) : OneCtrlWrite s (aLoadAddr s) := by
  obtain ⟨b, heq⟩ := State.use_eq_of_not_refused h
  rw [aLoadAddr, heq]
  exact oneCtrlWrite_after_dataWrite .nextNoack rfl

/-- R84. -/
theorem oneCtrlWrite_aTxNext {s : State} (h : (aTxNext s).refused = none) : OneCtrlWrite s (aTxNext s) := by
  obtain ⟨b, heq⟩ := State.use_eq_of_not_refused h
  rw [aTxNext, heq]
  exact oneCtrlWrite_after_dataWrite .nextNoack rfl

/-- R85. -/
theorem oneCtrlWrite_aRxRequest (a : Bool) (s : State) : OneCtrlWrite s (aRxRequest a s) := by
  cases a
  · exact oneCtrlWrite_writeControl .nextNoack s
  · exact oneCtrlWrite_writeControl .nextAck s

/-- R87. -/
theorem oneCtrlWrite_aComplete {s : State} (h : (aComplete s).refused = none) : OneCtrlWrite s (aComplete s) := by
  obtain ⟨stop, heq⟩ := State.use_eq_of_not_refused h
  rw [aComplete, heq]
  cases stop
  · exact ((oneCtrlWrite_writeControl .repstart _).of_trace_eq rfl).andThen fun _ => rfl
  · exact (oneCtrlWrite_writeControl .stop s).andThen fun _ => rfl

/-- R88. -/
theorem oneCtrlWrite_aFail (e : Byte) (s : State) : OneCtrlWrite s (aFail e s) :=
  (oneCtrlWrite_writeControl .stop s).andThen fun _ => rfl

/-- R120, R121. -/
theorem oneCtrlWrite_txNextOrComplete {s : State} (h : (txNextOrComplete s).refused = none) :
    OneCtrlWrite s (txNextOrComplete s) := by
  revert h
  unfold txNextOrComplete
  split
  · exact oneCtrlWrite_aTxNext
  · exact oneCtrlWrite_aComplete

/-- R130, R131: the control write of a storing row is that of the action after the store. -/
theorem oneCtrlWrite_after_aStore {s : State} {f : State → State} (h : ((aStore s).andThen f).refused = none)
    (hf : ∀ u, (f u).refused = none → OneCtrlWrite u (f u)) : OneCtrlWrite s ((aStore s).andThen f) := by
  have heq := State.andThen_eq_of_not_refused h
  rw [heq] at h ⊢
  exact (hf _ h).of_trace_eq (aStore_trace s)

/-- R80 for every action. -/
theorem EventAction.oneCtrlWrite {s t : State} (h : EventAction s t) (ht : t.refused = none) : OneCtrlWrite s t := by
  cases h with
  | loadAddr => exact oneCtrlWrite_aLoadAddr ht
  | sendOrComplete => exact oneCtrlWrite_txNextOrComplete ht
  | request a => exact oneCtrlWrite_aRxRequest a s
  | storeThenGoOn =>
    refine oneCtrlWrite_after_aStore ht fun u => ?_
    split
    · exact oneCtrlWrite_aComplete
    · exact fun _ => oneCtrlWrite_aRxRequest _ u
  | storeThenComplete => exact oneCtrlWrite_after_aStore ht fun _ => oneCtrlWrite_aComplete
  | fail e => exact oneCtrlWrite_aFail e s
  | release => exact oneCtrlWrite_writeControl .release s
  | refuse => exact absurd ht (Option.some_ne_none _)

/-- Settles O46: every event row runs one action, and each action ends in its one control write. -/
theorem ehMakesOneControlWrite : Obligations.EhMakesOneControlWrite := by
  intro i s t hi h ht
  exact (eventAction_of_exec hi h).oneCtrlWrite ht

end Sys2Proof.Machine
end

section
/-! PROOFS. The command family (41_commands.md R93 to R108): INIT, the accept steps of WRITE and READ, and FG's micro-steps
up to the answer. -/

namespace Sys2Proof.Machine

/-! ## The micro-step that FG's turn runs -/

/-- R92: outside Ready, FG's turn is the micro-step of its phase. -/
theorem fgTurn_of_microStep {s t : State} {p : Phase} (hs : s.refused = none) (hpc : s.fg.pc = p) (hp : p ≠ .ready)
    (ht : fgMicroStep s = t) : fgTurn s = .next t := by
  subst hpc ht
  unfold fgTurn
  split
  · exact absurd ‹_› hp
  · exact absurd ‹_› hp
  · exact atomic_of_running hs fgMicroStep

section Phases

variable {s : State} (hs : s.refused = none)
include hs

theorem fgTurn_wCheck (hpc : s.fg.pc = .wCheck) : fgTurn s = .next (wCheck s) :=
  fgTurn_of_microStep hs hpc nofun (by simp only [fgMicroStep, hpc])

theorem fgTurn_wSetup (hpc : s.fg.pc = .wSetup) : fgTurn s = .next (wSetup s) :=
  fgTurn_of_microStep hs hpc nofun (by simp only [fgMicroStep, hpc])

theorem fgTurn_wTrigger (hpc : s.fg.pc = .wTrigger) : fgTurn s = .next (wTrigger s) :=
  fgTurn_of_microStep hs hpc nofun (by simp only [fgMicroStep, hpc])

theorem fgTurn_wResult (hpc : s.fg.pc = .wResult) : fgTurn s = .next (wResult s) :=
  fgTurn_of_microStep hs hpc nofun (by simp only [fgMicroStep, hpc])

theorem fgTurn_rSetup (hpc : s.fg.pc = .rSetup) : fgTurn s = .next (rSetup s) :=
  fgTurn_of_microStep hs hpc nofun (by simp only [fgMicroStep, hpc])

theorem fgTurn_rTrigger (hpc : s.fg.pc = .rTrigger) : fgTurn s = .next (rTrigger s) :=
  fgTurn_of_microStep hs hpc nofun (by simp only [fgMicroStep, hpc])

theorem fgTurn_rCopy (hpc : s.fg.pc = .rCopy) : fgTurn s = .next (rCopy s) :=
  fgTurn_of_microStep hs hpc nofun (by simp only [fgMicroStep, hpc])

/-- R97, R100, R104, R107: each wait phase with the phase that follows it. -/
theorem fgTurn_waitIdle {p q : Phase} (hpc : s.fg.pc = p)
    (hpq : (p, q) ∈ [(Phase.wWaitIdle, Phase.wSetup), (.wWaitDone, .wResult), (.rWaitIdle, .rSetup),
      (.rWaitDone, .rCopy)]) : fgTurn s = .next (waitIdle q s) := by
  simp only [List.mem_cons, Prod.mk.injEq, List.not_mem_nil, or_false] at hpq
  obtain ⟨rfl, rfl⟩ | ⟨rfl, rfl⟩ | ⟨rfl, rfl⟩ | ⟨rfl, rfl⟩ := hpq
  all_goals exact fgTurn_of_microStep hs hpc nofun (by simp only [fgMicroStep, hpc])

end Phases

/-! ## Setup and copy-out -/

/-- Settles O18: the copy-in writes the data below LEN and leaves the rest of BUF alone. -/
theorem writeSetup : Obligations.WriteSetup := by
  intro s a len stop data hs hpc ha hl hst hd hdl hlc
  obtain ⟨m, heq, hread, -, -⟩ := wSetup_spec hs ha hl hst hd hdl hlc
  refine ⟨m, ?_, fun k hk => ?_, fun k hk => ?_⟩
  · rw [fgTurn_wSetup hs hpc, heq]
    rfl
  · rw [hread, if_pos hk]
  · rw [hread, if_neg (Nat.not_lt.mpr hk)]

/-- Settles O19: R_SETUP has no copy-in. -/
theorem readSetup : Obligations.ReadSetup := by
  intro s a len stop hs hpc ha hl hst
  rw [fgTurn_rSetup hs hpc, rSetup_spec ha hl hst]
  rfl

/-- Settles O22: the copy-out reads the bytes below IDX, which have been written. -/
theorem copyAnswersTheBytesReceived : Obligations.CopyAnswersTheBytesReceived := by
  intro s hs hpc hcap hwritten
  obtain ⟨out, hlength, hbytes, heq⟩ := rCopy_spec hcap hwritten
  refine ⟨out, hlength, hbytes, ?_⟩
  rw [fgTurn_rCopy hs hpc, heq]
  rfl

/-! ## INIT -/

/-- R94. -/
theorem divisor_eq (f g : Nat) : divisor f g =
    if g = 0 ∨ f / g < 16 ∨ 255 < (f / g - 16) / 2 then none else some (BitVec.ofNat 8 ((f / g - 16) / 2)) := by
  simp only [divisor, ite_or]

/-- R66, R150, R151: the races of a write with INT = 0, after its bits are latched. -/
theorem noLaunch_latch (s : State) :
    noLaunch { s with bc := s.bc.latch CtrlName.init.bits } = { s with bc := afterArm s } := by
  have hlatch : s.bc.latch CtrlName.init.bits = { s.bc with en := true, ea := true, sta := false, ie := true } := rfl
  have hstart (b : Bc) : dropsStart { s with bc := b } = dropsStart s := rfl
  have hstop (b : Bc) : dropsStop { s with bc := b } = dropsStop s := rfl
  simp only [hlatch, noLaunch, resumeRaceOnWrite, stopRaceOnWrite, afterArm, hstart, hstop]
  cases s.bc.pending
  case start => cases dropsStart s <;> rfl
  case stop => cases dropsStop s <;> rfl
  all_goals rfl

/-- R138: a control write with the bits of CW_INIT or CW_RESUME. -/
theorem writeControl_eq_afterArm {n : CtrlName} (hn : n.bits = CtrlName.init.bits) (s : State) :
    writeControl n s = { s.recorded [.ctrl (s.cw n)] with bc := afterArm s } := by
  rw [writeControl_of_not_int (by rw [hn]; rfl), hn]
  exact noLaunch_latch (s.record (.ctrl (s.cw n)))

/-- R141: the races do not read BITRATE. -/
theorem afterArm_bitrateWrite (d : Byte) (s : State) : afterArm (bitrateWrite d s) = { afterArm s with bitrate := d } := by
  have hpending : (bitrateWrite d s).bc.pending = s.bc.pending := rfl
  have hstart : dropsStart (bitrateWrite d s) = dropsStart s := rfl
  have hstop : dropsStop (bitrateWrite d s) = dropsStop s := rfl
  simp only [afterArm, hpending, hstart, hstop]
  cases s.bc.pending
  case start => cases dropsStart s <;> rfl
  case stop => cases dropsStop s <;> rfl
  all_goals rfl

section Init

variable {s : State} (hs : s.refused = none)
include hs

/-- R93: INIT during a transfer, or with a repeated start held. -/
theorem exec_init_of_busy (h : ¬(s.mode = .idle ∧ s.rsPending = false)) :
    exec .init s = .next (s.raise .initPrecondition) := by
  simp only [exec, execInit, atomic_of_running hs, if_neg h]

/-- R94: INIT without a divisor. -/
theorem exec_init_of_no_divisor (h : s.mode = .idle ∧ s.rsPending = false)
    (hd : divisor s.cfg.fClk s.cfg.fScl = none) : exec .init s = .next (s.raise .badConfig) := by
  simp only [exec, execInit, atomic_of_running hs, if_pos h, hd]

/-- R93: INIT arms BC. -/
theorem exec_init_of_divisor {d : Byte} (h : s.mode = .idle ∧ s.rsPending = false)
    (hd : divisor s.cfg.fClk s.cfg.fScl = some d) :
    exec .init s = .next { s.recorded [.ctrl (s.cw .init)] with
      mode := .idle, bc := { afterArm s with bitrate := d }, initDone := true, fg := { s.fg with pc := .ready } } := by
  simp only [exec, execInit, atomic_of_running hs, if_pos h, hd]
  rw [writeControl_eq_afterArm rfl, afterArm_bitrateWrite, State.andThen_of_running (by exact hs)]
  rfl

end Init

/-- Settles O12: the formula is the definition with its three refusals joined, and INIT refuses where it has no value. -/
theorem divisorFormula : Obligations.DivisorFormula := by
  refine ⟨divisor_eq, ?_, ?_, ?_, ?_, ?_, ?_, fun s hs hm hr hd => exec_init_of_no_divisor hs ⟨hm, hr⟩ hd⟩
  all_goals decide

/-- Settles O13: each clause is one case of INIT. -/
theorem initArmsTheController : Obligations.InitArmsTheController :=
  fun _ hs => ⟨exec_init_of_busy hs, fun hm hr => exec_init_of_no_divisor hs ⟨hm, hr⟩,
    fun _ hm hr => exec_init_of_divisor hs ⟨hm, hr⟩⟩

/-! ## Accept steps -/

/-- Settles O14: the length is checked before initDone (R162). -/
theorem writeIsAccepted : Obligations.WriteIsAccepted := by
  intro s addr len wait stop data hs
  simp only [exec, execWrite, atomic_of_running hs]
  refine ⟨fun hlen => ?_, fun hlen hinit => ?_, fun hlen hinit => ?_⟩
  · rw [if_pos hlen]
    rfl
  · rw [if_neg (not_not.mpr hlen), if_pos hinit]
    rfl
  · rw [if_neg (not_not.mpr hlen), if_neg (by simp [hinit])]

/-- R75: the clamped length fits the length register, as LEN does. -/
theorem toNat_effectiveReadLength (c : Config) (len : BitVec 8) :
    (BitVec.ofNat 8 (effectiveReadLength c len)).toNat = effectiveReadLength c len := by
  have hle : effectiveReadLength c len ≤ len.toNat := min_le_left _ _
  rw [BitVec.toNat_ofNat, Nat.mod_eq_of_lt (lt_of_le_of_lt hle len.isLt)]

/-- Settles O15: initDone is checked before the clamped length. -/
theorem readIsAccepted : Obligations.ReadIsAccepted := by
  intro s addr len stop hs
  simp only [exec, execRead, atomic_of_running hs]
  refine ⟨fun hinit => ?_, fun hinit (hzero : effectiveReadLength s.cfg len = 0) => ?_,
    fun hinit (hpos : effectiveReadLength s.cfg len ≠ 0) => ⟨_, toNat_effectiveReadLength s.cfg len, ?_⟩⟩
  · rw [if_pos hinit]
    rfl
  · rw [if_neg (by simp [hinit]), if_pos hzero]
    rfl
  · rw [if_neg (by simp [hinit]), if_neg hpos]

/-! ## Check, wait and result -/

/-- Settles O16: W_CHECK compares fg.len with CAP. -/
theorem checkAnswersTooLarge : Obligations.CheckAnswersTooLarge := by
  intro s len hs hpc hlen
  rw [fgTurn_wCheck hs hpc, wCheck, hlen, valued_some, State.use_ok]
  refine ⟨fun hcap => ?_, fun hcap => ?_⟩
  · rw [if_pos hcap]
    rfl
  · rw [if_neg (Nat.not_lt.mpr hcap)]
    rfl

/-- Settles O17: each wait phase runs the one read of MODE. -/
theorem waitPhasesReadMode : Obligations.WaitPhasesReadMode := by
  intro s p q hs hpc hpq
  rw [fgTurn_waitIdle hs hpc hpq, waitIdle]
  refine ⟨fun hmode => ?_, fun hmode => ?_⟩
  · rw [if_pos hmode]
    rfl
  · rw [if_neg hmode]

/-- Settles O21: W_RESULT records and answers `classify` of LAST_ERR, whose table the statement writes out. -/
theorem resultClassifiesLastError : Obligations.ResultClassifiesLastError :=
  fun _ hs hpc => fgTurn_wResult hs hpc

/-! ## Trigger -/

/-- R138: a launching control write on a pending action raises BusOverrun, unless it starts on a stop (R151). -/
theorem writeControl_overruns {n : CtrlName} {s : State} (hi : n.bits.int = true)
    (hp : s.bc.pending ∈ [Pending.start, .stopStart, .shift]) :
    writeControl n s = { s.recorded [.ctrl (s.cw n)] with
      bc := afterLatch n s.bc, refused := some .busOverrun } := by
  have hlatch : s.bc.latch n.bits = afterLatch n s.bc := by cases n <;> rfl
  have hpend : (afterLatch n s.bc).pending = s.bc.pending := rfl
  simp only [List.mem_cons, List.not_mem_nil, or_false] at hp
  simp only [writeControl, ctrlWrite, CtrlName.ofByte_byte, hi, if_true, hlatch, launch, hpend]
  obtain hp | hp | hp := hp <;> simp only [hp] <;> rfl

/-- R81, R138: CW_START with nothing pending. -/
theorem writeControl_start_of_none {s : State} (hp : s.bc.pending = .none) :
    writeControl .start s = { s.recorded [.ctrl (s.cw .start)] with bc := afterStart s.bc } := by
  rw [writeControl_of_none rfl hp]
  simp [CtrlName.bits, afterStart, State.record, State.recorded, State.cw]

/-- R81, R151: CW_START on a pending stop. -/
theorem writeControl_start_of_stop {s : State} (hp : s.bc.pending = .stop) :
    writeControl .start s = { s.recorded [.ctrl (s.cw .start)] with bc := afterStartOnStop s } := by
  have hdrop (b : Bc) : dropsStop { s.recorded [.ctrl (s.cw .start)] with bc := b } = dropsStop s := rfl
  rw [writeControl_of_stop rfl rfl hp]
  show stopRaceOnStart { s.recorded [.ctrl (s.cw .start)] with bc := s.bc.latch CtrlName.start.bits } = _
  rw [stopRaceOnStart, afterStartOnStop, hdrop]
  cases dropsStop s <;> rfl

/-- R99, R106: FG is about to trigger, and goes on to `q`. -/
def TriggersTo (s : State) (q : Phase) : Prop :=
  (s.fg.pc = .wTrigger ∧ s.fg.wait = some true ∧ q = .wWaitDone) ∨
    (s.fg.pc = .wTrigger ∧ s.fg.wait = some false ∧ q = .wResult) ∨ (s.fg.pc = .rTrigger ∧ q = .rWaitDone)

/-- R99, R106: after a trigger that raised nothing FG goes on. -/
theorem TriggersTo.fgTurn_of_running {s u : State} {q : Phase} (h : TriggersTo s q) (hs : s.refused = none)
    (ht : trigger s = u) (hu : u.refused = none) (hfg : u.fg = s.fg) : fgTurn s = .next (u.goto q) := by
  subst ht
  obtain ⟨hpc, hw, rfl⟩ | ⟨hpc, hw, rfl⟩ | ⟨hpc, rfl⟩ := h
  · rw [fgTurn_wTrigger hs hpc, wTrigger_spec hu (hfg ▸ hw), if_pos rfl]
  · rw [fgTurn_wTrigger hs hpc, wTrigger_spec hu (hfg ▸ hw), if_neg Bool.false_ne_true]
  · rw [fgTurn_rTrigger hs hpc, rTrigger_spec hu]

/-- R158: after a trigger that raised, FG stays in its phase. -/
theorem TriggersTo.fgTurn_of_refused {s u : State} {q : Phase} {r : RefuseReason} (h : TriggersTo s q)
    (hs : s.refused = none) (ht : trigger s = u) (hu : u.refused = some r) : fgTurn s = .next u := by
  subst ht
  obtain ⟨hpc, -⟩ | ⟨hpc, -⟩ | ⟨hpc, -⟩ := h
  · rw [fgTurn_wTrigger hs hpc, wTrigger, State.andThen_of_refused hu]
  · rw [fgTurn_wTrigger hs hpc, wTrigger, State.andThen_of_refused hu]
  · rw [fgTurn_rTrigger hs hpc, rTrigger, State.andThen_of_refused hu]

/-- Settles O20: a trigger is the control write CW_RESUME or CW_START, by what RS_PENDING and BC's pending action are. -/
theorem triggerConsumesOrStarts : Obligations.TriggerConsumesOrStarts := by
  intro s q hs (hq : TriggersTo s q)
  refine ⟨fun hr => ?_, fun hr hp => ?_, fun hr hp => ?_, fun hr hp => ?_⟩
  · exact hq.fgTurn_of_running hs ((trigger_resume hr).trans (writeControl_eq_afterArm rfl _)) hs rfl
  · exact hq.fgTurn_of_running hs ((trigger_start hr).trans (writeControl_start_of_none hp)) hs rfl
  · exact hq.fgTurn_of_running hs ((trigger_start hr).trans (writeControl_start_of_stop hp)) hs rfl
  · exact hq.fgTurn_of_refused hs ((trigger_start hr).trans (writeControl_overruns rfl hp)) rfl

end Sys2Proof.Machine
end

section
/-! PROOFS. The dispatch family (42_dispatch.md R110 to R117): when an agent takes no step, the rule that an event key
selects, what the rules leave alone, and the transitions of MODE. -/

namespace Sys2Proof.Machine

/-! ## Statements in sequence -/

/-- What holds before a statement and after it holds whether it takes effect or not (R9, R158). -/
theorem State.andThen_induct {P : State → Prop} {s : State} {f : State → State} (h : P s) (hf : P (f s)) :
    P (s.andThen f) := by
  unfold State.andThen
  split
  · exact hf
  · exact h

/-- What holds of the refusal that a read ends in and of the statement that uses its value holds after the read (R41). -/
theorem State.use_induct {P : State → Prop} {α : Type} {s : State} {r : Except RefuseReason α} {f : α → State → State}
    (hraise : ∀ e, P (s.raise e)) (hf : ∀ a, P (f a s)) : P (s.use r f) := by
  cases r with
  | ok a => exact hf a
  | error e => exact hraise e

/-- R138: a control write changes the trace, the refusal mark and BC's control bits, flag and pending action. -/
theorem writeControl_frame (n : CtrlName) (s : State) :
    ∃ trace b r, writeControl n s = { s with trace := trace, bc := b, refused := r } ∧
      b.status = s.bc.status ∧ b.data = s.bc.data ∧ b.wc = s.bc.wc ∧ b.bitrate = s.bc.bitrate ∧
      b.owned = s.bc.owned ∧ b.phase = s.bc.phase :=
  ⟨_, _, _, ctrlWrite_frame _ s, ctrlWrite_bc_frame _ s⟩

@[simp] theorem writeControl_mode (n : CtrlName) (s : State) : (writeControl n s).mode = s.mode := by
  obtain ⟨trace, b, r, heq, -⟩ := writeControl_frame n s
  rw [heq]

/-! ## What a turn of BC runs -/

/-- From `s` to `t` in one step of BC (R142 to R149). -/
inductive BcAction (s : State) : State → Prop
  | start (owned : Bool) : BcAction s (bcStart owned s)
  | address (o : Reply) (dir : Bool) : BcAction s (bcAddress o dir s)
  | dataOut (o : Reply) : BcAction s (bcDataOut o s)
  | dataIn (x : Byte) (ea : Bool) : BcAction s (bcDataIn x ea s)
  | arbitration (x : Byte) : BcAction s (bcArbitration x s)
  | silent : BcAction s (bcSilent s)
  | busError (e : Byte) : BcAction s (bcBusError e s)

/-- Every turn of BC is one of these steps. -/
theorem bcTurn_eq_atomic (e : Ev) (s : State) : ∃ f, bcTurn e s = atomic f s ∧ BcAction s (f s) := by
  cases e with
  | none => exact ⟨_, rfl, .silent⟩
  | status st x =>
    simp only [bcTurn, decode, decodeStatus]
    cases s.cfg.codes.symbolOf (st &&& s.cfg.statusMask) with
    | none => exact ⟨_, rfl, .busError st⟩
    | some sym =>
      cases sym
      case startSent | repeatedStartSent => exact ⟨_, rfl, .start _⟩
      case addressAckedForWrite | addressNackedForWrite | addressAckedForRead | addressNackedForRead =>
        exact ⟨_, rfl, .address _ _⟩
      case dataByteAcked | dataByteNacked => exact ⟨_, rfl, .dataOut _⟩
      case arbitrationLost => exact ⟨_, rfl, .arbitration x⟩
      case dataByteAckedOnReceive | dataByteNackedOnReceive => exact ⟨_, rfl, .dataIn x _⟩

/-! ## Disabled agents -/

/-- R138: with EN = 0 no step of BC is enabled. -/
theorem BcAction.eq_of_disabled {s t : State} (h : BcAction s t) (hen : s.bc.en = false) : t = s := by
  have henabled (p : Pending) : bcEnabled p s = false := by simp [bcEnabled, hen]
  have hshift (f : BcPhase) : shiftEnabled f s = false := by simp [shiftEnabled, henabled]
  cases h with
  | start => simp [bcStart, henabled]
  | address => simp [bcAddress, hshift]
  | dataOut => simp [bcDataOut, hshift]
  | dataIn => simp [bcDataIn, hshift]
  | arbitration => simp [bcArbitration, henabled]
  | silent => simp [bcSilent, henabled, hshift]
  | busError => simp [bcBusError, henabled]

/-- Settles O35: with the line low EH has no rule to run, and every step of BC asks for EN and for its pending action. -/
theorem disabledAgentsTakeNoStep : Obligations.DisabledAgentsTakeNoStep := by
  intro s e hs
  refine ⟨fun h => ehTurn_of_not_irq ?_, fun h => ?_⟩
  · obtain h | h := h <;> simp [irq, h]
  · obtain hen | hp := h
    · obtain ⟨f, heq, hact⟩ := bcTurn_eq_atomic e s
      rw [heq, atomic_of_running hs, hact.eq_of_disabled hen]
    · exact bcTurn_of_none hp hs e

/-! ## The row that an event key selects -/

/-- R112: with the line high, EH's turn runs the row that MODE and the masked status decode to. -/
theorem ehTurn_eq_exec {s : State} (hirq : irq s = true) :
    ehTurn s = exec (decodeEvent s.cfg s.mode (maskedStatus s)) s :=
  ehTurn_of_irq hirq (decode_eventKey _ _ _)

/-- R73, R112: an exact row is taken where the status is its code. -/
theorem ehTurn_of_exactRow {s : State} {m : Mode} {i : Instr} (hc : codesConform s.cfg = true) (hirq : irq s = true)
    (hm : s.mode = m) (x : StatusSymbol) (hrow : exactRow m x = some i) (he : maskedStatus s = s.cfg.codes.code x) :
    ehTurn s = exec i s := by
  rw [ehTurn_eq_exec hirq, hm, he, decodeEvent_exact hc hrow]

/-- R73, R112: the mode's default row is taken where no exact row has the status. -/
theorem ehTurn_of_defaultRow {s : State} {m : Mode} (hirq : irq s = true) (hm : s.mode = m)
    (hrow : ∀ x, s.cfg.codes.code x = maskedStatus s → exactRow m x = none) :
    ehTurn s = exec (defaultRow m (maskedStatus s)) s := by
  rw [ehTurn_eq_exec hirq, hm, decodeEvent_default hrow]

/-- Settles O37: in a master mode the exact rows come first, and a mode without exact rows has its default row alone. -/
theorem eventKeySelectsTheRule : Obligations.EventKeySelectsTheRule := by
  intro s hc hirq c e
  have hexact {m : Mode} {i : Instr} := ehTurn_of_exactRow (m := m) (i := i) hc hirq
  have hdefault {m : Mode} := ehTurn_of_defaultRow (m := m) hirq
  refine ⟨fun hm => ⟨hexact hm .startSent rfl, hexact hm .repeatedStartSent rfl, hexact hm .addressAckedForWrite rfl,
      hexact hm .dataByteAcked rfl, hexact hm .dataByteNacked rfl, hexact hm .addressNackedForWrite rfl,
      hexact hm .arbitrationLost rfl, fun hout => hdefault hm fun x hx => ?_⟩,
    fun hm => ⟨hexact hm .startSent rfl, hexact hm .repeatedStartSent rfl, hexact hm .addressAckedForRead rfl,
      hexact hm .dataByteAckedOnReceive rfl, hexact hm .dataByteNackedOnReceive rfl, hexact hm .addressNackedForRead rfl,
      hexact hm .arbitrationLost rfl, fun hout => hdefault hm fun x hx => ?_⟩,
    fun hm => hdefault hm fun _ _ => rfl, fun hm => hdefault hm fun _ _ => rfl, fun hm => hdefault hm fun _ _ => rfl,
    fun hm => hdefault hm fun _ _ => rfl, fun hm => hdefault hm fun _ _ => rfl, fun hm => hdefault hm fun _ _ => rfl⟩
  · cases x
    case addressAckedForRead | addressNackedForRead | dataByteAckedOnReceive | dataByteNackedOnReceive => rfl
    all_goals exact absurd (by simp [e, ← hx, c, StatusCodes.code]) hout
  · cases x
    case addressAckedForWrite | addressNackedForWrite | dataByteAcked | dataByteNacked => rfl
    all_goals exact absurd (by simp [e, ← hx, c, StatusCodes.code]) hout

/-! ## Outside the master modes -/

/-- Settles O44: these rows run A_RELEASE (R89), or raise and nothing else. -/
theorem otherModesReleaseOrRefuse : Obligations.OtherModesReleaseOrRefuse := by
  intro s e
  refine ⟨fun ⟨hs, _, hp⟩ => ?_, fun hs => ?_⟩
  · have hrelease : atomic aRelease s =
        .next { s.recorded [.ctrl (s.cw .release)] with bc := afterNextAck s.bc } := by
      rw [atomic_of_running hs, aRelease_spec hp]
      rfl
    simpa [exec, execIdleAny, execSlaveTransmitAny, execSlaveReceiveAny] using hrelease
  · simp [exec, execReserved5Any, execReserved6Any, execReserved7Any, atomic_of_running hs, State.raise]

/-! ## What an event row may change -/

/-- R113, R163: what the row `i` leaves alone. Only a storing row writes BUF, at IDX. -/
def EhKeeps (i : Instr) (s t : State) : Prop :=
  t.cfg = s.cfg ∧ t.fg = s.fg ∧ t.initDone = s.initDone ∧ t.sendStop = s.sendStop ∧ t.slaRw = s.slaRw ∧
  t.len = s.len ∧ t.host = s.host ∧ t.sched = s.sched ∧ t.tick = s.tick ∧ t.drop = s.drop ∧ t.bench = s.bench ∧
  t.bc.status = s.bc.status ∧ t.bc.bitrate = s.bc.bitrate ∧ t.bc.owned = s.bc.owned ∧ t.bc.phase = s.bc.phase ∧
  (∀ a, ¬(isStoringRow i = true ∧ a = s.idx.toNat) → t.buf.read a = s.buf.read a)

/-- What the row `i` may change: besides `EhKeeps`, MODE is kept or returns to Idle (R117), LAST_ERR is kept or becomes the
status of the row's key (R88), and with the flag set no data write collides (R139). -/
def RowChanges (i : Instr) (s t : State) : Prop :=
  EhKeeps i s t ∧ (t.mode = s.mode ∨ t.mode = .idle) ∧
  (t.lastErr = s.lastErr ∨ ∃ m, encode s.cfg i = .evt11 (eventKey m t.lastErr)) ∧
  (s.bc.flag = true → s.bc.wc = false → t.bc.wc = false)

section Changes

variable {i : Instr} {s t u : State}

theorem EhKeeps.refl (i : Instr) (s : State) : EhKeeps i s s :=
  ⟨rfl, rfl, rfl, rfl, rfl, rfl, rfl, rfl, rfl, rfl, rfl, rfl, rfl, rfl, rfl, fun _ _ => rfl⟩

theorem RowChanges.refl (i : Instr) (s : State) : RowChanges i s s :=
  ⟨EhKeeps.refl i s, .inl rfl, .inl rfl, fun _ => id⟩

/-- A row runs its statements as one atomic step (R111). -/
theorem RowChanges.of_atomic {f : State → State} (h : atomic f s = .next t) (hf : RowChanges i s (f s)) :
    RowChanges i s t :=
  (atomic_eq_next.mp h).2 ▸ hf

/-- R138. -/
theorem RowChanges.after_writeControl (h : RowChanges i s u) (n : CtrlName) : RowChanges i s (writeControl n u) := by
  obtain ⟨⟨hcfg, hfg, hinit, hstop, hsla, hlen, hhost, hsched, htick, hdrop, hbench, hstatus, hbitrate, howned, hphase,
    hbuf⟩, hmode, hlast, hwc⟩ := h
  obtain ⟨trace, b, r, heq, hstatus', -, hwc', hbitrate', howned', hphase'⟩ := writeControl_frame n u
  rw [heq]
  exact ⟨⟨hcfg, hfg, hinit, hstop, hsla, hlen, hhost, hsched, htick, hdrop, hbench, hstatus'.trans hstatus,
    hbitrate'.trans hbitrate, howned'.trans howned, hphase'.trans hphase, hbuf⟩, hmode, hlast,
    fun hf hw => hwc'.trans (hwc hf hw)⟩

/-- R139: a data write with the flag set is no collision. -/
theorem rowChanges_dataWrite (i : Instr) (s : State) (b : Byte) : RowChanges i s (dataWrite b s) := by
  cases hf : s.bc.flag
  · rw [dataWrite_of_not_flag hf]
    exact ⟨EhKeeps.refl i s, .inl rfl, .inl rfl, fun h => absurd (hf.symm.trans h) Bool.false_ne_true⟩
  · rw [dataWrite_of_flag hf]
    exact ⟨EhKeeps.refl i s, .inl rfl, .inl rfl, fun _ _ => rfl⟩

/-- R87, R88: the last write of a transfer's end. -/
theorem RowChanges.idle (h : RowChanges i s u) : RowChanges i s { u with mode := .idle } := by
  obtain ⟨hkeeps, -, hlast, hwc⟩ := h
  exact ⟨hkeeps, .inr rfl, hlast, hwc⟩

/-- R83. -/
theorem rowChanges_aLoadAddr (i : Instr) (s : State) : RowChanges i s (aLoadAddr s) :=
  State.use_induct (fun _ => RowChanges.refl i s) fun b => (rowChanges_dataWrite i s b).after_writeControl .nextNoack

/-- R84. -/
theorem rowChanges_aTxNext (i : Instr) (s : State) : RowChanges i s (aTxNext s) :=
  State.use_induct (fun _ => RowChanges.refl i s) fun b =>
    RowChanges.after_writeControl (u := { dataWrite b s with idx := (dataWrite b s).idx + 1 })
      (rowChanges_dataWrite i s b) .nextNoack

/-- R85. -/
theorem RowChanges.after_aRxRequest (h : RowChanges i s u) (a : Bool) : RowChanges i s (aRxRequest a u) := by
  cases a
  · exact h.after_writeControl .nextNoack
  · exact h.after_writeControl .nextAck

/-- R86: a storing row writes BUF at IDX. -/
theorem rowChanges_memWrite (hi : isStoringRow i = true) (x : Byte) : RowChanges i s (memWrite s.idx.toNat x s) := by
  unfold memWrite
  split
  · exact RowChanges.refl i s
  · refine ⟨⟨rfl, rfl, rfl, rfl, rfl, rfl, rfl, rfl, rfl, rfl, rfl, rfl, rfl, rfl, rfl, fun a ha => ?_⟩, .inl rfl,
      .inl rfl, fun _ => id⟩
    exact (Memory.read_write _ _ _ a).trans (if_neg fun h => ha ⟨hi, h⟩)

/-- R86. -/
theorem rowChanges_aStore (hi : isStoringRow i = true) : RowChanges i s (aStore s) := by
  unfold aStore
  split
  · exact State.use_induct (fun _ => RowChanges.refl i s) fun x =>
      State.andThen_induct (rowChanges_memWrite hi x) (rowChanges_memWrite hi x)
  · exact RowChanges.refl i s

/-- R87. -/
theorem RowChanges.after_aComplete (h : RowChanges i s u) : RowChanges i s (aComplete u) := by
  refine State.use_induct (fun _ => h) fun stop => ?_
  cases stop
  · have hw := RowChanges.after_writeControl (u := { u with rsPending := true }) h .repstart
    exact State.andThen_induct hw hw.idle
  · have hw := h.after_writeControl .stop
    exact State.andThen_induct hw hw.idle

/-- R88: a failing row captures the status of its key. -/
theorem rowChanges_aFail {m : Mode} {e : Byte} (hkey : encode s.cfg i = .evt11 (eventKey m e)) :
    RowChanges i s (aFail e s) := by
  have hw := (RowChanges.refl i s).after_writeControl .stop
  have ⟨hkeeps, _, _, hwc⟩ := hw
  exact State.andThen_induct hw ⟨hkeeps, .inr rfl, .inr ⟨m, hkey⟩, hwc⟩

/-- R120, R121. -/
theorem rowChanges_txNextOrComplete (i : Instr) (s : State) : RowChanges i s (txNextOrComplete s) := by
  unfold txNextOrComplete
  split
  · exact rowChanges_aTxNext i s
  · exact (RowChanges.refl i s).after_aComplete

/-- R114 to R134: every event row. -/
theorem rowChanges_of_exec (hi : isEventRow i = true) (h : exec i s = .next t) : RowChanges i s t := by
  have hs := RowChanges.refl i s
  cases i
  case mtStartSent | mtRepeatedStartSent | mrStartSent | mrRepeatedStartSent =>
    exact .of_atomic h (rowChanges_aLoadAddr _ s)
  case mtAddressAckedForWrite | mtDataByteAcked => exact .of_atomic h (rowChanges_txNextOrComplete _ s)
  case mrAddressAckedForRead => exact .of_atomic h (hs.after_aRxRequest _)
  case mrDataByteAckedOnReceive =>
    simp only [exec, execMrDataByteAckedOnReceive] at h
    have hstore := rowChanges_aStore (i := .mrDataByteAckedOnReceive) (s := s) rfl
    refine .of_atomic h (State.andThen_induct hstore ?_)
    split
    · exact hstore.after_aComplete
    · exact hstore.after_aRxRequest _
  case mrDataByteNackedOnReceive =>
    simp only [exec, execMrDataByteNackedOnReceive] at h
    have hstore := rowChanges_aStore (i := .mrDataByteNackedOnReceive) (s := s) rfl
    exact .of_atomic h (State.andThen_induct hstore hstore.after_aComplete)
  case mtDataByteNacked | mtAddressNackedForWrite | mtArbitrationLost | mtOther =>
    exact .of_atomic h (rowChanges_aFail (m := .masterTransmit) rfl)
  case mrAddressNackedForRead | mrArbitrationLost | mrOther =>
    exact .of_atomic h (rowChanges_aFail (m := .masterReceive) rfl)
  case idleAny | slaveTransmitAny | slaveReceiveAny => exact .of_atomic h (hs.after_writeControl .release)
  case reserved5Any | reserved6Any | reserved7Any =>
    simp only [exec, execReserved5Any, execReserved6Any, execReserved7Any] at h
    exact .of_atomic h hs
  all_goals exact absurd hi Bool.false_ne_true

end Changes

/-- Settles O47: every action of an event row leaves these registers alone, and only A_STORE writes BUF. -/
theorem ehFrame : Obligations.EhFrame := fun _ _ _ hi h => (rowChanges_of_exec hi h).1

/-! ## What a turn of EH may change -/

/-- R73: an event key decodes to an event row. -/
theorem isEventRow_decodeEvent (c : Config) (m : Mode) (e : Byte) : isEventRow (decodeEvent c m e) = true := by
  unfold decodeEvent
  split <;> rfl

/-- R73: the status of an event key is read back from it. -/
theorem eventKey_status_inj {m m' : Mode} {e e' : Byte} (h : eventKey m e = eventKey m' e') : e = e' := by
  rw [← eventKey_status m e, h, eventKey_status]

/-- R110, R112: a turn of EH changes nothing, or with the line high runs a row that changes what `RowChanges` admits. -/
theorem ehTurn_cases {s t : State} (h : ehTurn s = .next t) :
    t = s ∨ irq s = true ∧ RowChanges (decodeEvent s.cfg s.mode (maskedStatus s)) s t := by
  cases hirq : irq s
  · rw [ehTurn_of_not_irq hirq] at h
    exact .inl (Host.Outcome.next.inj h).symm
  · rw [ehTurn_eq_exec hirq] at h
    exact .inr ⟨rfl, rowChanges_of_exec (isEventRow_decodeEvent _ _ _) h⟩

/-- R88: LAST_ERR is kept, or becomes the status that the turn handled. -/
theorem RowChanges.lastErr_of_decodeEvent {s t : State} {m : Mode} {e : Byte}
    (h : RowChanges (decodeEvent s.cfg m e) s t) : t.lastErr = s.lastErr ∨ t.lastErr = e := by
  obtain ⟨-, -, hlast, -⟩ := h
  refine hlast.imp_right fun ⟨m', hkey⟩ => ?_
  rw [encode_decodeEvent] at hkey
  exact (eventKey_status_inj (Packet.evt11.inj hkey)).symm

/-! ## What a turn of BC may change -/

/-- R136: between `s` and `t` only BC, the trace and the refusal mark changed, and in BC no bit that software writes. -/
def BcKeeps (s t : State) : Prop :=
  t = { s with bc := t.bc, trace := t.trace, refused := t.refused } ∧
  t.bc.en = s.bc.en ∧ t.bc.ea = s.bc.ea ∧ t.bc.sta = s.bc.sta ∧ t.bc.ie = s.bc.ie ∧ t.bc.wc = s.bc.wc ∧
  t.bc.bitrate = s.bc.bitrate

theorem BcKeeps.refl (s : State) : BcKeeps s s := ⟨rfl, rfl, rfl, rfl, rfl, rfl, rfl⟩

/-- A read that raises sets the refusal mark only (R158). -/
theorem BcKeeps.raise (s : State) (r : RefuseReason) : BcKeeps s (s.raise r) := ⟨rfl, rfl, rfl, rfl, rfl, rfl, rfl⟩

/-- What a step of BC writes: the flag, the status, DATA, STO, the bus and the pending action. -/
theorem BcKeeps.updated (s : State) (flag : Bool) (status : Byte) (data : Option Byte) (sto owned : Bool)
    (phase : BcPhase) (pending : Pending) (trace : List Event) :
    BcKeeps s { s with
      bc := { s.bc with
        flag := flag, status := status, data := data, sto := sto, owned := owned, phase := phase, pending := pending },
      trace := trace } :=
  ⟨rfl, rfl, rfl, rfl, rfl, rfl, rfl⟩

/-- R142. -/
theorem bcKeeps_performStart (s : State) : BcKeeps s (performStart s) := by
  cases h : s.bc.owned
  · rw [performStart_free h]
    exact .updated ..
  · rw [performStart_held h]
    exact .updated ..

/-- R144. -/
theorem bcKeeps_performAddress (o : Reply) (b : Byte) (s : State) : BcKeeps s (performAddress o b s) := by
  cases o
  case ack =>
    rw [performAddress_ack]
    exact .updated ..
  case nack =>
    rw [performAddress_nack]
    exact .updated ..
  case arbLost => exact .updated ..

/-- R145. -/
theorem bcKeeps_performDataOut (o : Reply) (b : Byte) (s : State) : BcKeeps s (performDataOut o b s) := by
  cases o <;> exact .updated ..

/-- R146. -/
theorem bcKeeps_performDataIn (x : Byte) (lose : Bool) (s : State) : BcKeeps s (performDataIn x lose s) := by
  cases hea : s.bc.ea
  · cases lose
    · rw [performDataIn_nack x hea]
      exact .updated ..
    · rw [performDataIn_lose x hea]
      exact .updated ..
  · rw [performDataIn_ack x lose hea]
    exact .updated ..

/-- R136 for every step of BC. -/
theorem BcAction.keeps {s t : State} (h : BcAction s t) : BcKeeps s t := by
  have hs := BcKeeps.refl s
  have hraise := BcKeeps.raise s
  cases h with
  | start owned =>
    unfold bcStart
    split
    · exact bcKeeps_performStart s
    · exact hs
  | address o dir =>
    unfold bcAddress
    split
    · refine State.use_induct hraise fun b => ?_
      split
      · exact bcKeeps_performAddress o b s
      · exact hs
    · exact hs
  | dataOut o =>
    unfold bcDataOut
    split
    · exact State.use_induct hraise fun b => bcKeeps_performDataOut o b s
    · exact hs
  | dataIn x ea =>
    unfold bcDataIn
    split
    · exact bcKeeps_performDataIn x false s
    · exact hs
  | arbitration x =>
    unfold bcArbitration
    split
    · split
      · exact State.use_induct hraise fun b => bcKeeps_performAddress .arbLost b s
      · exact State.use_induct hraise fun b => bcKeeps_performDataOut .arbLost b s
      · split
        · exact hs
        · exact bcKeeps_performDataIn x true s
      · exact hs
    · exact hs
  | silent =>
    unfold bcSilent
    split
    · rw [performStop_spec]
      exact .updated ..
    · split <;> exact .updated ..
  | busError e =>
    unfold bcBusError
    split <;> exact .updated ..

/-- R136 for every turn of BC. -/
theorem bcTurn_keeps {e : Ev} {s t : State} (h : bcTurn e s = .next t) : BcKeeps s t := by
  obtain ⟨f, heq, hact⟩ := bcTurn_eq_atomic e s
  rw [heq] at h
  exact (atomic_eq_next.mp h).2 ▸ hact.keeps

theorem BcKeeps.mode_eq {s t : State} (h : BcKeeps s t) : t.mode = s.mode := by
  obtain ⟨heq, -⟩ := h
  rw [heq]

theorem BcKeeps.wc_eq {s t : State} (h : BcKeeps s t) : t.bc.wc = s.bc.wc := by
  obtain ⟨-, -, -, -, -, hwc, -⟩ := h
  exact hwc

/-! ## MODE in a turn of FG -/

/-- R99, R106. -/
@[simp] theorem trigger_mode (s : State) : (trigger s).mode = s.mode := by
  unfold trigger
  split
  · exact writeControl_mode .resume _
  · exact writeControl_mode .start s

/-- R98: the copy-in writes BUF only. -/
@[simp] theorem copyIn_mode (data : List Byte) (n : Nat) (s : State) : (copyIn data n s).mode = s.mode := by
  induction n with
  | zero => rfl
  | succ n ih =>
    refine State.andThen_induct (P := (·.mode = s.mode)) ih
      (State.use_induct (P := (·.mode = s.mode)) (fun _ => ih) fun b => ?_)
    unfold memWrite
    split <;> exact ih

/-- R98: W_SETUP sets MODE before it reads a register. -/
theorem wSetup_mode (s : State) : (wSetup s).mode = .masterTransmit := by
  refine State.use_induct (P := (·.mode = .masterTransmit)) (fun _ => rfl) fun stop =>
    State.use_induct (P := (·.mode = .masterTransmit)) (fun _ => rfl) fun len =>
      State.use_induct (P := (·.mode = .masterTransmit)) (fun _ => rfl) fun data => ?_
  have hcopy := copyIn_mode data len.toNat
    { s with mode := .masterTransmit, sendStop := some stop, lastErr := noErrorYet }
  exact State.andThen_induct (P := (·.mode = .masterTransmit)) hcopy
    (State.use_induct (P := (·.mode = .masterTransmit)) (fun _ => hcopy) fun _ => hcopy)

/-- R105: R_SETUP sets MODE before it reads a register. -/
theorem rSetup_mode (s : State) : (rSetup s).mode = .masterReceive :=
  State.use_induct (P := (·.mode = .masterReceive)) (fun _ => rfl) fun _ =>
    State.use_induct (P := (·.mode = .masterReceive)) (fun _ => rfl) fun _ =>
      State.use_induct (P := (·.mode = .masterReceive)) (fun _ => rfl) fun _ => rfl

/-- R109: MODE is kept, or a setup leaves for the mode of its transfer. -/
def FgMoves (s t : State) : Prop :=
  t.mode = s.mode ∨ (s.fg.pc = .wSetup ∧ t.mode = .masterTransmit) ∨ (s.fg.pc = .rSetup ∧ t.mode = .masterReceive)

/-- R109: only the setups write MODE. -/
theorem fgMoves_fgMicroStep (s : State) : FgMoves s (fgMicroStep s) := by
  have hwait (q : Phase) : (waitIdle q s).mode = s.mode := by
    unfold waitIdle
    split <;> rfl
  have ht := trigger_mode s
  cases hpc : s.fg.pc <;> simp only [fgMicroStep, hpc]
  case ready | wResult => exact .inl rfl
  case wCheck =>
    refine .inl (State.use_induct (P := (·.mode = s.mode)) (fun _ => rfl) fun len => ?_)
    split <;> rfl
  case wWaitIdle | wWaitDone | rWaitIdle | rWaitDone => exact .inl (hwait _)
  case wSetup => exact .inr (.inl ⟨hpc, wSetup_mode s⟩)
  case wTrigger =>
    refine .inl (State.andThen_induct (P := (·.mode = s.mode)) ht
      (State.use_induct (P := (·.mode = s.mode)) (fun _ => ht) fun w => ?_))
    cases w <;> exact ht
  case rSetup => exact .inr (.inr ⟨hpc, rSetup_mode s⟩)
  case rTrigger => exact .inl (State.andThen_induct (P := (·.mode = s.mode)) ht ht)
  case rCopy => exact .inl (State.use_induct (P := (·.mode = s.mode)) (fun _ => rfl) fun _ => rfl)

/-- R93, R95, R103: INIT writes Idle where MODE is Idle, and no other command writes MODE. -/
theorem runCommand_mode {c : Command} {s t : State} (h : runCommand c s = .next t) : t.mode = s.mode := by
  simp only [runCommand, decode] at h
  obtain hd | hd | ⟨a, l, w, p, hd⟩ | ⟨a, l, p, hd⟩ := decodeCommand_cases c.word c.data <;>
    simp only [hd, exec, execInit, execWrite, execRead, atomic_eq_next] at h <;> obtain ⟨-, rfl⟩ := h
  · rfl
  · split
    · rename_i hidle
      split
      · rfl
      · rename_i d _
        have hw := (writeControl_mode .init (bitrateWrite d { s with mode := .idle })).trans hidle.1.symm
        exact State.andThen_induct (P := (·.mode = s.mode)) hw hw
    · rfl
  · split
    · rfl
    · split <;> rfl
  · split
    · rfl
    · split <;> rfl

/-- R109 for every turn of FG. -/
theorem fgMoves_of_fgTurn {s t : State} (h : fgTurn s = .next t) : FgMoves s t := by
  unfold fgTurn at h
  split at h
  · exact Host.Outcome.next.inj h ▸ .inl rfl
  · rename_i c rest _ _
    exact .inl (runCommand_mode (s := { s with host := rest }) h)
  · obtain ⟨-, rfl⟩ := atomic_eq_next.mp h
    exact fgMoves_fgMicroStep s

/-! ## The machine's steps -/

/-- R117: MODE leaves Idle in the setups only; otherwise it is kept, or EH returns it to Idle with LAST_ERR at the sentinel
or at the status it handled. -/
def MovesMode (s t : State) : Prop :=
  (s.mode = .idle → t.mode = .idle ∨ (s.fg.pc = .wSetup ∧ t.mode = .masterTransmit) ∨
    (s.fg.pc = .rSetup ∧ t.mode = .masterReceive)) ∧
  (s.mode ≠ .idle → t.mode = s.mode ∨
    (t.mode = .idle ∧ irq s = true ∧ (t.lastErr = noErrorYet ∨ t.lastErr = maskedStatus s)))

theorem MovesMode.of_mode_eq {s t : State} (h : t.mode = s.mode) : MovesMode s t :=
  ⟨fun hidle => .inl (h.trans hidle), fun _ => .inl h⟩

section Turns

variable {s t : State} (hi : Invariant s)
include hi

/-- R59, R109: FG's setups find MODE Idle. -/
theorem Invariant.movesMode_of_fgTurn (h : fgTurn s = .next t) : MovesMode s t := by
  obtain hm | hset := fgMoves_of_fgTurn h
  · exact .of_mode_eq hm
  · exact ⟨fun _ => .inr hset, fun hne => absurd (hi.setupIdle (hset.imp And.left And.left)) hne⟩

/-- R114, R117: EH moves in a transfer only, whose LAST_ERR is the sentinel. -/
theorem Invariant.movesMode_of_ehTurn (h : ehTurn s = .next t) : MovesMode s t := by
  obtain rfl | ⟨hirq, hrow⟩ := ehTurn_cases h
  · exact .of_mode_eq rfl
  · have hlast := hrow.lastErr_of_decodeEvent
    obtain ⟨-, hm | hm, -⟩ := hrow
    · exact .of_mode_eq hm
    · exact ⟨fun _ => .inl hm,
        fun hne => .inr ⟨hm, hirq, hlast.imp_left fun heq => heq.trans (hi.noErrorInTransfer hne)⟩⟩

/-- R139: EH writes DATA with the flag set only. -/
theorem Invariant.wc_of_ehTurn (h : ehTurn s = .next t) (hwc : s.bc.wc = false) : t.bc.wc = false := by
  obtain rfl | ⟨hirq, -, -, -, hrow⟩ := ehTurn_cases h
  · exact hwc
  · obtain ⟨-, -, hflag, -⟩ := hi.of_irq hirq
    exact hrow hflag hwc

end Turns

/-- Settles O55: FG moves MODE in its setups, EH where it ends a transfer, and BC does not write MODE. -/
theorem modeTransitions : Obligations.ModeTransitions := by
  intro s t hi hstep
  obtain ⟨-, sched, tick, drop, hturn⟩ := step_cases hi.config hi.noBench hstep
  have hi' := hi.inputs s.host sched tick drop s.refused s.trace s.initDone
  obtain h | h | ⟨e, h⟩ := hturn
  · exact hi'.movesMode_of_fgTurn h
  · exact hi'.movesMode_of_ehTurn h
  · exact MovesMode.of_mode_eq (bcTurn_keeps h).mode_eq

/-- Settles O57: the next state has the invariant, in which an Idle run has the line low; of the agents only EH writes
DATA, and it does so with the flag set. -/
theorem noStrayNotificationOrCollision : Obligations.NoStrayNotificationOrCollision := by
  intro s t hi hstep
  refine ⟨fun hidle => ?_, fun hwc => ?_⟩
  · exact Bool.eq_false_iff.mpr fun hirq => (stepKeepsInvariant s t hi hstep).mode_of_irq hirq hidle
  · obtain ⟨-, sched, tick, drop, hturn⟩ := step_cases hi.config hi.noBench hstep
    have hi' := hi.inputs s.host sched tick drop s.refused s.trace s.initDone
    obtain h | h | ⟨e, h⟩ := hturn
    · obtain ⟨-, -, -, hkept, -⟩ := fgFrame _ t h
      exact hkept.trans hwc
    · exact hi'.wc_of_ehTurn h hwc
    · exact (bcTurn_keeps h).wc_eq.trans hwc

end Sys2Proof.Machine
end

section
/-! PROOFS. The master transmit family (43_master_transmit.md R118 to R125): the rows that load the address byte, that send
the next byte or complete, and that fail; with the master receive rows that run the same actions. -/

namespace Sys2Proof.Machine

/-- R87, for both values of SEND_STOP. -/
theorem aComplete_eq_completed {s : State} {stop : Bool} (hs : s.refused = none) (hp : s.bc.pending = .none)
    (hstop : s.sendStop = some stop) : aComplete s = completed stop s := by
  cases stop with
  | true => exact aComplete_stop hs hp hstop
  | false => exact aComplete_repstart hs hp hstop

/-- R88, as one atomic step: SEND_STOP is not read. -/
theorem atomic_aFail {s : State} (hs : s.refused = none) (hp : s.bc.pending = .none) (e : Byte) :
    atomic (aFail e) s = .next (failed e s) := by
  rw [atomic_of_running hs, aFail_spec e hs hp]
  rfl

/-- Settles O38: the four rows run A_LOAD_ADDR (R83). -/
theorem startLoadsTheAddress : Obligations.StartLoadsTheAddress := by
  intro s i b ⟨hs, hflag, hp⟩ hsla hi
  exact exec_loadingRow hs (aLoadAddr_spec hflag hp hsla) i hi

/-- Settles O39: the two rows compare IDX with LEN, and run A_TX_NEXT (R84) or A_COMPLETE (R87). -/
theorem acknowledgeSendsOrCompletes : Obligations.AcknowledgeSendsOrCompletes := by
  intro s i ⟨hs, hflag, hp⟩ hi
  refine ⟨fun b hlt hcap hbyte => exec_sendingRow hs ?_ i hi, fun stop hle hstop => exec_sendingRow hs ?_ i hi⟩
  · rw [txNextOrComplete, if_pos hlt]
    exact aTxNext_spec hflag hp hcap hbyte
  · rw [txNextOrComplete, if_neg (Nat.not_lt.mpr hle)]
    exact aComplete_eq_completed hs hp hstop

/-- Settles O40: each of the seven rows runs A_FAIL (R88) with its status. -/
theorem failuresStopAndCapture : Obligations.FailuresStopAndCapture := by
  intro s e ⟨hs, _, hp⟩
  have hfail := atomic_aFail hs hp
  exact ⟨hfail _, hfail _, hfail _, hfail e, hfail _, hfail _, hfail e⟩

end Sys2Proof.Machine
end

section
/-! PROOFS. The master receive family (44_master_receive.md R129 to R131): the rows that request the next byte, and that
store one. -/

namespace Sys2Proof.Machine

/-- R85, where another byte follows the one requested: it is to be ACKed. -/
theorem aRxRequest_of_more {s : State} (hp : s.bc.pending = .none) (h : s.idx.toNat + 1 < s.len.toNat) :
    aRxRequest (acknowledges s.idx s.len) s =
      { s.recorded [.ctrl (s.cw .nextAck)] with bc := afterNextAck s.bc } := by
  have hack : acknowledges s.idx s.len = true := decide_eq_true h
  rw [hack]
  exact aRxRequest_spec true hp

/-- R85, where no byte follows the one requested: it is to be NACKed. -/
theorem aRxRequest_of_last {s : State} (hp : s.bc.pending = .none) (h : s.len.toNat ≤ s.idx.toNat + 1) :
    aRxRequest (acknowledges s.idx s.len) s =
      { s.recorded [.ctrl (s.cw .nextNoack)] with bc := afterNextNoack s.bc } := by
  have hnoack : acknowledges s.idx s.len = false := decide_eq_false (Nat.not_lt.mpr h)
  rw [hnoack]
  exact aRxRequest_spec false hp

section Rows

variable {s t : State} (hs : s.refused = none)
include hs

/-- R129: the first byte is requested. -/
theorem exec_mrAddressAckedForRead :
    exec .mrAddressAckedForRead s = .next (aRxRequest (acknowledges s.idx s.len) s) :=
  atomic_of_running hs _

/-- R130: a byte is stored; with room for another the next is requested. -/
theorem exec_mrDataByteAckedOnReceive_of_room (h : aStore s = t) (ht : t.refused = none)
    (hroom : t.idx.toNat < t.len.toNat) :
    exec .mrDataByteAckedOnReceive s = .next (aRxRequest (acknowledges t.idx t.len) t) := by
  simp only [exec, execMrDataByteAckedOnReceive, atomic_of_running hs, h, State.andThen_of_running ht,
    if_neg (Nat.not_le.mpr hroom)]

end Rows

/-- Settles O42: the store (R86) advances IDX, and the row compares the new IDX with LEN. -/
theorem ackedByteIsStored : Obligations.AckedByteIsStored := by
  intro s x stop ⟨hs, _, hp⟩ hx hstop hcap
  refine ⟨fun hlt => ⟨_, Memory.read_write s.buf s.idx.toNat x, ?_⟩, fun hle => ?_⟩
  · have hstore := aStore_spec hs hlt (lt_of_lt_of_le hlt hcap) hx
    have hsucc := idx_succ hlt
    split_ifs with hfull hmore
    · have hnoRoom : s.len.toNat ≤ (s.idx + 1).toNat := (hsucc.trans hfull).ge
      exact (exec_mrDataByteAckedOnReceive_of_full hs hstore hs hnoRoom).trans
        (congrArg _ (aComplete_eq_completed hs hp hstop))
    · have hroom : (s.idx + 1).toNat < s.len.toNat := by omega
      have hnext : (s.idx + 1).toNat + 1 < s.len.toNat := by omega
      exact (exec_mrDataByteAckedOnReceive_of_room hs hstore hs hroom).trans
        (congrArg _ (aRxRequest_of_more hp hnext))
    · have hroom : (s.idx + 1).toNat < s.len.toNat := by omega
      have hlast : s.len.toNat ≤ (s.idx + 1).toNat + 1 := by omega
      exact (exec_mrDataByteAckedOnReceive_of_room hs hstore hs hroom).trans
        (congrArg _ (aRxRequest_of_last hp hlast))
  · exact (exec_mrDataByteAckedOnReceive_of_full hs (aStore_full hle) hs hle).trans
      (congrArg _ (aComplete_eq_completed hs hp hstop))

/-- Settles O43: with room or without, A_COMPLETE (R87) follows the store (R86). -/
theorem nackedByteCompletes : Obligations.NackedByteCompletes := by
  intro s x stop ⟨hs, _, hp⟩ hx hstop hcap
  refine ⟨fun hlt => ⟨_, Memory.read_write s.buf s.idx.toNat x, ?_⟩, fun hle => ?_⟩
  · have hstore := aStore_spec hs hlt (lt_of_lt_of_le hlt hcap) hx
    exact (exec_mrDataByteNackedOnReceive hs hstore hs).trans (congrArg _ (aComplete_eq_completed hs hp hstop))
  · exact (exec_mrDataByteNackedOnReceive hs (aStore_full hle) hs).trans
      (congrArg _ (aComplete_eq_completed hs hp hstop))

/-- Settles O41: the row runs A_RX_REQUEST (R85), whose acknowledgement is IDX + 1 < LEN. -/
theorem readAddressRequestsTheFirstByte : Obligations.ReadAddressRequestsTheFirstByte := by
  intro s ⟨hs, _, hp⟩
  have hrow := exec_mrAddressAckedForRead hs
  exact ⟨fun hmore => hrow.trans (congrArg _ (aRxRequest_of_more hp hmore)),
    fun hlast => hrow.trans (congrArg _ (aRxRequest_of_last hp hlast))⟩

end Sys2Proof.Machine
end

section
/-! PROOFS. The bus controller family (45_bus_controller.md R136 to R155): the control write and the other accesses to
BC's registers, the steps of BC, and what a step of BC may report. -/

namespace Sys2Proof.Machine

/-! ## What a turn of BC leaves unchanged -/

/-- Settles O48: every step of BC writes the flag, the status, DATA, STO, the bus and the pending action alone. -/
theorem bcFrame : Obligations.BcFrame :=
  fun _ _ _ h => bcTurn_keeps h

/-! ## The control write (R138, R150, R151) -/

/-- R138: what every control write does before it launches or races: it is recorded, and its bits are latched. -/
def latched (v : Byte) (s : State) : State :=
  { s.recorded [.ctrl v] with bc := s.bc.latch (CtrlBits.ofByte s.cfg.layout v) }

theorem ctrlWrite_of_int {v : Byte} {s : State} (hi : v.getLsbD s.cfg.layout.int.val = true) :
    ctrlWrite v s = launch (CtrlBits.ofByte s.cfg.layout v) (latched v s) :=
  if_pos hi

theorem ctrlWrite_of_not_int {v : Byte} {s : State} (hi : v.getLsbD s.cfg.layout.int.val = false) :
    ctrlWrite v s = noLaunch (latched v s) :=
  if_neg (Bool.eq_false_iff.mp hi)

theorem launch_of_none {b : CtrlBits} {s : State} (hp : s.bc.pending = .none) :
    launch b s = { s with bc := { s.bc with
      flag := false, pending := if b.sta then .start else if b.sto then .stop else .shift } } := by
  simp only [launch, hp]

theorem launch_of_start_on_stop {b : CtrlBits} {s : State} (hp : s.bc.pending = .stop) (hsta : b.sta = true) :
    launch b s = stopRaceOnStart s := by
  simp only [launch, hp, hsta, if_true]

/-- R138: any other pending action is not overtaken. -/
theorem launch_overruns {b : CtrlBits} {s : State} (hp : s.bc.pending ≠ .none)
    (hstop : ¬(s.bc.pending = .stop ∧ b.sta = true)) : launch b s = s.raise .busOverrun := by
  unfold launch
  split
  next hnone => exact absurd hnone hp
  next hpending => exact if_neg fun hsta => hstop ⟨hpending, hsta⟩
  all_goals rfl

theorem noLaunch_of_start {s : State} (hp : s.bc.pending = .start) : noLaunch s = resumeRaceOnWrite s := by
  simp only [noLaunch, hp]

theorem noLaunch_of_stop {s : State} (hp : s.bc.pending = .stop) : noLaunch s = stopRaceOnWrite s := by
  simp only [noLaunch, hp]

/-- R138: a write with INT = 0 races with nothing else. -/
theorem noLaunch_of_no_race {s : State} (hstart : s.bc.pending ≠ .start) (hstop : s.bc.pending ≠ .stop) :
    noLaunch s = s := by
  unfold noLaunch
  split
  next hpending => exact absurd hpending hstart
  next hpending => exact absurd hpending hstop
  all_goals rfl

/-- R151: a stop is dropped where the race parameter and the draw allow. -/
theorem dropsStop_iff {s : State} : dropsStop s = true ↔ s.cfg.stopRace = .mayDrop ∧ s.drop = true := by
  simp [dropsStop]

/-- R150: a start is dropped where the race parameter and the draw allow. -/
theorem dropsStart_iff {s : State} : dropsStart s = true ↔ s.cfg.resumeRace = .mayDrop ∧ s.drop = true := by
  simp [dropsStart]

/-- Settles O23: INT selects `launch` or `noLaunch`, and the pending action selects the clause of each. -/
theorem controlWriteOfAnyByte : Obligations.ControlWriteOfAnyByte := by
  intro s v
  refine ⟨fun hi hp => ?_, fun hi hp hsta => ?_, fun hi hp hstop => ?_, fun hi hp => ?_, fun hi hp => ?_,
    fun hi hstart hstop => ?_⟩
  · rw [ctrlWrite_of_int hi, launch_of_none (by exact hp)]
    rfl
  · rw [ctrlWrite_of_int hi, launch_of_start_on_stop (by exact hp) hsta]
    simp only [stopRaceOnStart, dropsStop_iff]
    rfl
  · rw [ctrlWrite_of_int hi, launch_overruns (by exact hp) (by exact hstop)]
    rfl
  · rw [ctrlWrite_of_not_int hi, noLaunch_of_start (by exact hp)]
    simp only [resumeRaceOnWrite, dropsStart_iff]
    rfl
  · rw [ctrlWrite_of_not_int hi, noLaunch_of_stop (by exact hp)]
    simp only [stopRaceOnWrite, dropsStop_iff]
    rfl
  · rw [ctrlWrite_of_not_int hi, noLaunch_of_no_race (by exact hstart) (by exact hstop)]
    rfl

/-! ## The eight control words -/

/-- R66, R138: the row of a control word is its control write. -/
theorem exec_controlRow {s : State} (hs : s.refused = none) (n : CtrlName) :
    exec (controlRow n) s = .next (writeControl n s) := by
  cases n <;> exact atomic_of_running hs _

/-- R66: the launching words are those with INT = 1. -/
theorem isLaunching_eq_int (n : CtrlName) : isLaunching n = n.bits.int := by
  cases n <;> rfl

/-- R66: every control word sets EN. -/
theorem latch_bits (n : CtrlName) (bc : Bc) : bc.latch n.bits = afterLatch n bc := by
  cases n <;> rfl

/-- R138: a word with INT = 1 launches from its latched bits. -/
theorem writeControl_of_int {n : CtrlName} {s : State} (hi : n.bits.int = true) :
    writeControl n s = launch n.bits { s.recorded [.ctrl (s.cw n)] with bc := afterLatch n s.bc } := by
  simp only [writeControl, ctrlWrite, CtrlName.ofByte_byte, hi, if_true, latch_bits]
  rfl

/-- Settles O27: the launch raises, after the write was recorded and its bits latched. -/
theorem controlWriteOnPendingActionOverruns : Obligations.ControlWriteOnPendingActionOverruns := by
  intro s n hs hn hp hstop
  rw [exec_controlRow hs, writeControl_of_int (isLaunching_eq_int n ▸ hn),
    launch_overruns (by exact hp) (by exact hstop)]
  rfl

/-- Settles O24: each word launches what its bits STA and STO request. -/
theorem controlWordsLaunch : Obligations.ControlWordsLaunch := by
  intro s hs hp
  have hlaunch {n : CtrlName} (hi : n.bits.int = true) :=
    (exec_controlRow hs n).trans (congrArg _ (writeControl_of_none hi hp))
  exact ⟨hlaunch (n := .start) rfl, hlaunch (n := .nextNoack) rfl, hlaunch (n := .nextAck) rfl,
    hlaunch (n := .stop) rfl, hlaunch (n := .repstart) rfl, hlaunch (n := .release) rfl⟩

/-- Settles O25: both words have the bits of CW_INIT, after which only a race acts. -/
theorem controlWordsArm : Obligations.ControlWordsArm := by
  intro s hs
  have harm {n : CtrlName} (hn : n.bits = CtrlName.init.bits) :=
    (exec_controlRow hs n).trans (congrArg _ (writeControl_eq_afterArm hn s))
  exact ⟨harm (n := .init) rfl, harm (n := .resume) rfl⟩

/-- R151: CW_REPSTART on a pending stop is CW_START with IE = 0. -/
theorem writeControl_repstart_of_stop {s : State} (hp : s.bc.pending = .stop) :
    writeControl .repstart s =
      { s.recorded [.ctrl (s.cw .repstart)] with bc := { afterStartOnStop s with ie := false } } := by
  have hdrop (b : Bc) : dropsStop { s.recorded [.ctrl (s.cw .repstart)] with bc := b } = dropsStop s := rfl
  rw [writeControl_of_int rfl, launch_of_start_on_stop (by exact hp) rfl, stopRaceOnStart, afterStartOnStop, hdrop]
  cases dropsStop s <;> rfl

/-- Settles O26: both words have STA = 1, so the start is sequenced or drops the stop. -/
theorem startOnPendingStop : Obligations.StartOnPendingStop := fun _ hs hp =>
  ⟨(exec_controlRow hs .start).trans (congrArg _ (writeControl_start_of_stop hp)),
    (exec_controlRow hs .repstart).trans (congrArg _ (writeControl_repstart_of_stop hp))⟩

/-! ## DATA, STATUS, CTRL and BITRATE (R139 to R141) -/

/-- R63: the default mask clears the bits 2:0. -/
theorem extractLsb'_of_defaultMask {b : Byte} (h : b &&& 0xF8#8 = b) : b.extractLsb' 0 3 = 0 := by
  have hmask : (0xF8#8).extractLsb' 0 3 = 0#3 := by decide
  rw [← h, BitVec.extractLsb'_and, hmask]
  exact BitVec.and_zero

/-- R140: STATUS is inside the default mask, also after a stop and at reset. -/
theorem Invariant.status_masked {s : State} (hi : Invariant s) (hm : s.cfg.statusMask = 0xF8) :
    s.bc.status &&& 0xF8#8 = s.bc.status := by
  obtain h | h := hi.statusBits
  · rwa [hm] at h
  · rw [h]
    decide

/-- R31, R140: a CTRL read under the default layout; bit 1 is the reserved one. -/
theorem ctrlRead_avr {s : State} (h : s.cfg.layout = .avr) :
    ctrlRead s = byteOfBits s.bc.flag s.bc.ea s.bc.sta s.bc.sto s.bc.wc s.bc.en false s.bc.ie := by
  simp [ctrlRead, h, ctrlReadBit, CtrlLayout.avr]

/-- R140: DATA with a value. -/
theorem dataRead_of_some {s : State} {b : Byte} (h : s.bc.data = some b) : dataRead s = .ok b := by
  rw [dataRead, h, valued_some]

/-- Settles O28: each access is its rule; STATUS bits 2:0 come from the invariant. -/
theorem registerAccesses : Obligations.RegisterAccesses := by
  intro s
  exact ⟨fun b hf => dataWrite_of_flag hf b, fun b hf => dataWrite_of_not_flag hf b, rfl,
    fun hi hm => extractLsb'_of_defaultMask (hi.status_masked hm), fun _ => dataRead_of_some, dataRead_of_none,
    ctrlRead_avr, fun _ => rfl⟩

/-! ## The steps of BC that report a listed status (R142, R144 to R146) -/

/-- A status that keeps the phase. -/
theorem reports_of_phase {bc : Bc} {f : BcPhase} (h : bc.phase = f) (st : Byte) :
    reports st f bc = { bc with status := st, pending := .none, flag := true } := by
  subst h
  rfl

/-- R142: the enabled start is the one of the bus's state. -/
theorem bcStart_of_enabled {s : State} (h : bcEnabled .start s = true) {owned : Bool} (ho : s.bc.owned = owned) :
    bcStart owned s = performStart s := by
  simp only [bcStart, h, ho, beq_self_eq_true, Bool.and_self, if_true]

/-- Settles O29: the start on a free bus, and the one on a held bus. -/
theorem startIsReported : Obligations.StartIsReported := by
  intro s hs hen hp
  have henabled : bcEnabled .start s = true := bcEnabled_iff.mpr ⟨hen, hp⟩
  refine ⟨fun ho => atomic_eq_next.mpr ⟨hs, ?_⟩, fun ho => atomic_eq_next.mpr ⟨hs, ?_⟩⟩
  · rw [bcStart_of_enabled henabled ho, performStart_free ho]
    rfl
  · rw [bcStart_of_enabled henabled ho, performStart_held ho]
    rfl

section ShiftSteps

variable {s : State} {b : Byte}

section Address

variable (h : shiftEnabled .addr s = true) (hb : s.bc.data = some b) {dir : Bool} (hdir : directionBit b = dir)
include h hb hdir

/-- R144: the reply to the address byte in DATA. -/
theorem bcAddress_of_some (o : Reply) : bcAddress o dir s = performAddress o b s := by
  simp only [bcAddress, h, dataRead_of_some hb, State.use_ok, hdir, beq_self_eq_true, if_true]

theorem bcAddress_ack :
    bcAddress .ack dir s = { s.recorded [.busByte b true] with
      bc := reports (if dir then s.cfg.codes.addressAckedForRead else s.cfg.codes.addressAckedForWrite)
        (if dir then .rxData else .txData) s.bc } := by
  rw [bcAddress_of_some h hb hdir, performAddress_ack, hdir]
  rfl

theorem bcAddress_nack :
    bcAddress .nack dir s = { s.recorded [.busByte b false] with
      bc := reports (if dir then s.cfg.codes.addressNackedForRead else s.cfg.codes.addressNackedForWrite) .none
        s.bc } := by
  rw [bcAddress_of_some h hb hdir, performAddress_nack, hdir]
  rfl

end Address

/-- R144: no address byte in DATA. -/
theorem bcAddress_of_no_data (h : shiftEnabled .addr s = true) (hn : s.bc.data = none) (o : Reply) (dir : Bool) :
    bcAddress o dir s = s.raise .unwrittenRead := by
  simp only [bcAddress, h, dataRead_of_none hn, State.use_error, if_true]

/-- R145: the reply to the data byte in DATA. -/
theorem bcDataOut_of_some (h : shiftEnabled .txData s = true) (hb : s.bc.data = some b) (o : Reply) :
    bcDataOut o s = performDataOut o b s := by
  simp only [bcDataOut, h, dataRead_of_some hb, State.use_ok, if_true]

/-- R146: the acknowledge bit is the master's. -/
theorem bcDataIn_of_ea (h : shiftEnabled .rxData s = true) {ea : Bool} (hea : s.bc.ea = ea) (x : Byte) :
    bcDataIn x ea s = performDataIn x false s := by
  simp only [bcDataIn, h, hea, beq_self_eq_true, Bool.and_self, if_true]

section Arbitration

variable (hadm : s.cfg.arbLossAdmitted = true) (hen : bcEnabled .shift s = true) (x : Byte)
include hadm hen

/-- R144, R145: arbitration is lost in the byte in DATA. -/
theorem bcArbitration_of_byteOut (hphase : s.bc.phase = .addr ∨ s.bc.phase = .txData) (hb : s.bc.data = some b) :
    bcArbitration x s = bcDone (bcArbLost s) := by
  simp only [bcArbitration, hadm, hen, Bool.and_self, if_true]
  obtain h | h := hphase <;> simp only [h, dataRead_of_some hb, State.use_ok] <;> rfl

/-- R146: arbitration is lost in the master's NACK bit. -/
theorem bcArbitration_of_nack (hphase : s.bc.phase = .rxData) (hea : s.bc.ea = false) :
    bcArbitration x s = performDataIn x true s := by
  simp [bcArbitration, hadm, hen, hphase, hea]

end Arbitration

/-- R146: in an ACKed receive arbitration is not lost (log entry 13). -/
theorem bcArbitration_of_ack (hphase : s.bc.phase = .rxData) (hea : s.bc.ea = true) (x : Byte) :
    bcArbitration x s = s := by
  simp [bcArbitration, hphase, hea]

end ShiftSteps

/-- Settles O31: a reply is reported by the direction bit of the byte in DATA, and DATA without a value raises. -/
theorem addressShiftIsReported : Obligations.AddressShiftIsReported := by
  intro s ⟨hs, hen, hp, hphase⟩
  have hshift : shiftEnabled .addr s = true := shiftEnabled_iff.mpr ⟨hen, hp, hphase⟩
  refine ⟨fun b hb hdir => ?_, fun b hb hdir => ?_, fun b x hb hadm => ?_, fun hn => ?_⟩
  · exact ⟨atomic_eq_next.mpr ⟨hs, bcAddress_ack hshift hb hdir⟩,
      atomic_eq_next.mpr ⟨hs, bcAddress_nack hshift hb hdir⟩⟩
  · exact ⟨atomic_eq_next.mpr ⟨hs, bcAddress_ack hshift hb hdir⟩,
      atomic_eq_next.mpr ⟨hs, bcAddress_nack hshift hb hdir⟩⟩
  · refine atomic_eq_next.mpr ⟨hs, ?_⟩
    rw [bcArbitration_of_byteOut hadm (bcEnabled_iff.mpr ⟨hen, hp⟩) x (.inl hphase) hb, bcDone_bcArbLost]
    rfl
  · have hraise (o : Reply) (dir : Bool) : atomic (bcAddress o dir) s = .next (s.raise .unwrittenRead) :=
      atomic_eq_next.mpr ⟨hs, bcAddress_of_no_data hshift hn o dir⟩
    exact ⟨hraise _ _, hraise _ _, hraise _ _, hraise _ _⟩

/-- Settles O32: the two replies to the byte in DATA, and the loss of arbitration. -/
theorem dataByteOutIsReported : Obligations.DataByteOutIsReported := by
  intro s b ⟨hs, hen, hp, hphase⟩ hb
  have hreply := bcDataOut_of_some (shiftEnabled_iff.mpr ⟨hen, hp, hphase⟩) hb
  refine ⟨atomic_eq_next.mpr ⟨hs, ?_⟩, atomic_eq_next.mpr ⟨hs, ?_⟩, fun x hadm => atomic_eq_next.mpr ⟨hs, ?_⟩⟩
  · rw [hreply, performDataOut_ack, reports_of_phase hphase]
    rfl
  · rw [hreply, performDataOut_nack]
    rfl
  · rw [bcArbitration_of_byteOut hadm (bcEnabled_iff.mpr ⟨hen, hp⟩) x (.inr hphase) hb, bcDone_bcArbLost]
    rfl

/-- Settles O33: `bc.ea` decides the acknowledge bit, and arbitration is lost only where it is a NACK. -/
theorem dataByteInIsReported : Obligations.DataByteInIsReported := by
  intro s x ⟨hs, hen, hp, hphase⟩
  have hshift : shiftEnabled .rxData s = true := shiftEnabled_iff.mpr ⟨hen, hp, hphase⟩
  refine ⟨fun hea => ⟨atomic_eq_next.mpr ⟨hs, ?_⟩, atomic_eq_next.mpr ⟨hs, bcArbitration_of_ack hphase hea x⟩⟩,
    fun hea => ⟨atomic_eq_next.mpr ⟨hs, ?_⟩, fun hadm => atomic_eq_next.mpr ⟨hs, ?_⟩⟩⟩
  · rw [bcDataIn_of_ea hshift hea, performDataIn_ack x false hea, reports_of_phase hphase]
    rfl
  · rw [bcDataIn_of_ea hshift hea, performDataIn_nack x hea]
    rfl
  · rw [bcArbitration_of_nack hadm (bcEnabled_iff.mpr ⟨hen, hp⟩) x hphase hea, performDataIn_lose x hea]
    rfl

/-! ## The steps that report no listed status (R143, R147, R149) -/

/-- Settles O30: the silent step is the stop, or the shift with nothing to shift. -/
theorem silentSteps : Obligations.SilentSteps := by
  intro s hs hen
  refine ⟨fun hp => atomic_eq_next.mpr ⟨hs, ?_⟩, fun hp hphase => atomic_eq_next.mpr ⟨hs, ?_⟩⟩
  · have hstop : bcEnabled .stop s = true ∨ bcEnabled .stopStart s = true :=
      hp.imp (fun h => bcEnabled_iff.mpr ⟨hen, h⟩) (fun h => bcEnabled_iff.mpr ⟨hen, h⟩)
    rw [bcSilent, if_pos (Bool.or_eq_true_iff.mpr hstop), performStop_spec]
    rfl
  · have hshift : shiftEnabled .none s = true := shiftEnabled_iff.mpr ⟨hen, hp, hphase⟩
    simp [bcSilent, bcEnabled, hp, hshift]

/-- R149: where a bus error may come in place of a shift. -/
def BusErrorEnabled (s : State) : Prop :=
  s.cfg.busErrorAdmitted = true ∧ s.bc.en = true ∧ s.bc.pending = .shift ∧ s.bc.phase ≠ .none

/-- R149: the statuses that a bus error may draw. -/
theorem busErrorStatus_iff {c : Config} {e : Byte} :
    busErrorStatus c e = true ↔ e &&& c.statusMask = e ∧ ∀ sym : StatusSymbol, c.codes.code sym ≠ e := by
  simp [busErrorStatus, StatusCodes.symbolOf_eq_none]

theorem bcBusError_of_enabled {e : Byte} {s : State} (h : BusErrorEnabled s) (he : busErrorStatus s.cfg e = true) :
    bcBusError e s = { s.recorded [.busError e] with
      bc := { reports e .none s.bc with owned := false, sto := false } } := by
  obtain ⟨hadm, hen, hp, hphase⟩ := h
  simp [bcBusError, hadm, bcEnabled_iff.mpr ⟨hen, hp⟩, hphase, he, reports, State.record, State.recorded]

/-- R149: a bus error that acts was enabled, with a status that it may draw. -/
theorem bcBusError_eq_or_enabled (e : Byte) (s : State) :
    bcBusError e s = s ∨ BusErrorEnabled s ∧ busErrorStatus s.cfg e = true := by
  unfold bcBusError
  split
  next h =>
    simp only [Bool.and_eq_true, bcEnabled_iff, Bool.not_eq_true', decide_eq_false_iff_not] at h
    obtain ⟨⟨⟨hadm, hen, hp⟩, hphase⟩, he⟩ := h
    exact .inr ⟨⟨hadm, hen, hp, hphase⟩, he⟩
  next => exact .inl rfl

/-- R149: an unlisted status inside the mask is a bus error. -/
theorem bcTurn_of_unlisted {e x : Byte} {s : State} (hs : s.refused = none) (he : e &&& s.cfg.statusMask = e)
    (hu : ∀ sym : StatusSymbol, s.cfg.codes.code sym ≠ e) : bcTurn (.status e x) s = .next (bcBusError e s) := by
  simp only [bcTurn, decode, decodeStatus, he, StatusCodes.symbolOf_eq_none.mpr hu, atomic_of_running hs]

/-- Settles O34: the turn is the bus error, which acts exactly where it is enabled. -/
theorem busErrorTakesTheShiftsPlace : Obligations.BusErrorTakesTheShiftsPlace := by
  intro s e x hs he hu
  rw [bcTurn_of_unlisted hs he hu]
  refine ⟨fun hadm hen hp hphase => ?_, fun hnot => ?_⟩
  · rw [bcBusError_of_enabled ⟨hadm, hen, hp, hphase⟩ (busErrorStatus_iff.mpr ⟨he, hu⟩)]
  · rw [(bcBusError_eq_or_enabled e s).resolve_right fun h => hnot h.1]

/-! ## What a turn of BC may report (R155)

A step that sets the flag was enabled; what it reports is then the report of its pending action. -/

/-- BC's turn is a silent step, a bus error or the row of a listed status. -/
theorem bcTurn_cases {e : Ev} {s t : State} (h : bcTurn e s = .next t) :
    t = bcSilent s ∨ (∃ st, t = bcBusError st s) ∨
      ∃ (sym : StatusSymbol) (x : Byte), exec (sym.instr x) s = .next t := by
  cases e with
  | none => exact .inl (atomic_eq_next.mp h).2.symm
  | status st x =>
    simp only [bcTurn, decode, decodeStatus] at h
    split at h
    next i hi =>
      split at hi
      next sym _ => exact .inr (.inr ⟨sym, x, Except.ok.inj hi ▸ h⟩)
      next => exact nomatch hi
    next => exact .inr (.inl ⟨st, (atomic_eq_next.mp h).2.symm⟩)

/-- R143, R147: these steps notify nobody. -/
theorem bcSilent_flag (s : State) : (bcSilent s).bc.flag = s.bc.flag := by
  unfold bcSilent
  split
  · rw [performStop_spec]
  · split <;> rfl

/-- R142: the status of a start, by the bus's state. -/
theorem performStart_status (s : State) :
    (performStart s).bc.status =
      if s.bc.owned then s.cfg.codes.repeatedStartSent else s.cfg.codes.startSent := by
  cases ho : s.bc.owned
  · rw [performStart_free ho]
    rfl
  · rw [performStart_held ho]
    rfl

/-- R145: the status of a reply to a data byte. -/
theorem performDataOut_status {o : Reply} (ho : o ≠ .arbLost) (b : Byte) (s : State) :
    (performDataOut o b s).bc.status ∈ [s.cfg.codes.dataByteAcked, s.cfg.codes.dataByteNacked] := by
  cases o with
  | ack => exact List.mem_cons_self
  | nack => exact List.mem_cons_of_mem _ List.mem_cons_self
  | arbLost => exact absurd rfl ho

/-- R146: the status of a receive, by the master's acknowledge. -/
theorem performDataIn_status (x : Byte) (s : State) :
    (performDataIn x false s).bc.status =
      if s.bc.ea then s.cfg.codes.dataByteAckedOnReceive else s.cfg.codes.dataByteNackedOnReceive := by
  cases hea : s.bc.ea
  · rw [performDataIn_nack x hea]
    rfl
  · rw [performDataIn_ack x false hea]
    rfl

section Reporting

variable {s : State} (hf : s.bc.flag = false)
include hf

/-- A turn that leaves BC as it is sets no flag. -/
theorem not_flag_of_bc_eq {t : State} (h : t.bc = s.bc) : ¬t.bc.flag = true := by
  rw [h, hf]
  exact Bool.false_ne_true

/-- R142. -/
theorem bcStart_of_flag {owned : Bool} : (bcStart owned s).bc.flag = true →
    bcEnabled .start s = true ∧ s.bc.owned = owned := by
  unfold bcStart
  split
  next h =>
    simp only [Bool.and_eq_true, beq_iff_eq] at h
    exact fun _ => h
  next => exact fun ht => absurd ht (not_flag_of_bc_eq hf rfl)

/-- R140: a read of DATA that raises sets no flag. -/
theorem use_dataRead_of_flag {f : Byte → State → State} (ht : (s.use (dataRead s) f).bc.flag = true) :
    ∃ b, s.bc.data = some b ∧ s.use (dataRead s) f = f b s := by
  cases hb : s.bc.data with
  | none =>
    rw [dataRead_of_none hb] at ht
    exact absurd ht (not_flag_of_bc_eq hf rfl)
  | some b => exact ⟨b, rfl, by rw [dataRead_of_some hb, State.use_ok]⟩

/-- R144. -/
theorem bcAddress_of_flag {o : Reply} {dir : Bool} : (bcAddress o dir s).bc.flag = true →
    shiftEnabled .addr s = true ∧ ∃ b, s.bc.data = some b ∧ directionBit b = dir := by
  unfold bcAddress
  split
  next h =>
    intro ht
    obtain ⟨b, hb, heq⟩ := use_dataRead_of_flag hf ht
    rw [heq] at ht
    split at ht
    next hdir => exact ⟨h, b, hb, beq_iff_eq.mp hdir⟩
    next => exact absurd ht (not_flag_of_bc_eq hf rfl)
  next => exact fun ht => absurd ht (not_flag_of_bc_eq hf rfl)

/-- R144: the report of a reply to an address byte of direction `dir`. -/
theorem bcAddress_report {o : Reply} {dir : Bool} (ho : o ≠ .arbLost) (ht : (bcAddress o dir s).bc.flag = true) :
    shiftEnabled .addr s = true ∧ ∃ b, s.bc.data = some b ∧ directionBit b = dir ∧
      (((bcAddress o dir s).bc.status =
            (if dir then s.cfg.codes.addressAckedForRead else s.cfg.codes.addressAckedForWrite) ∧
          (bcAddress o dir s).bc.phase = (if dir then .rxData else .txData) ∧
          (bcAddress o dir s).trace = s.trace ++ [.busByte b true]) ∨
        ((bcAddress o dir s).bc.status =
            (if dir then s.cfg.codes.addressNackedForRead else s.cfg.codes.addressNackedForWrite) ∧
          (bcAddress o dir s).bc.phase = .none ∧ (bcAddress o dir s).trace = s.trace ++ [.busByte b false])) := by
  obtain ⟨hshift, b, hb, hdir⟩ := bcAddress_of_flag hf ht
  refine ⟨hshift, b, hb, hdir, ?_⟩
  cases o with
  | ack =>
    rw [bcAddress_ack hshift hb hdir]
    exact .inl ⟨rfl, rfl, rfl⟩
  | nack =>
    rw [bcAddress_nack hshift hb hdir]
    exact .inr ⟨rfl, rfl, rfl⟩
  | arbLost => exact absurd rfl ho

/-- R145. -/
theorem bcDataOut_of_flag {o : Reply} : (bcDataOut o s).bc.flag = true →
    shiftEnabled .txData s = true ∧ ∃ b, s.bc.data = some b := by
  unfold bcDataOut
  split
  next h =>
    intro ht
    obtain ⟨b, hb, -⟩ := use_dataRead_of_flag hf ht
    exact ⟨h, b, hb⟩
  next => exact fun ht => absurd ht (not_flag_of_bc_eq hf rfl)

/-- R146. -/
theorem bcDataIn_of_flag {x : Byte} {ea : Bool} : (bcDataIn x ea s).bc.flag = true →
    shiftEnabled .rxData s = true ∧ s.bc.ea = ea := by
  unfold bcDataIn
  split
  next h =>
    simp only [Bool.and_eq_true, beq_iff_eq] at h
    exact fun _ => h
  next => exact fun ht => absurd ht (not_flag_of_bc_eq hf rfl)

/-- R144 to R146: arbitration is lost in a shift, where admitted, but not in an ACKed receive. -/
theorem bcArbitration_of_flag {x : Byte} : (bcArbitration x s).bc.flag = true →
    s.cfg.arbLossAdmitted = true ∧ bcEnabled .shift s = true ∧ s.bc.phase ≠ .none ∧
      ¬(s.bc.phase = .rxData ∧ s.bc.ea = true) ∧ (bcArbitration x s).bc.status = s.cfg.codes.arbitrationLost := by
  unfold bcArbitration
  split
  next h =>
    obtain ⟨hadm, hen⟩ := Bool.and_eq_true_iff.mp h
    intro ht
    refine ⟨hadm, hen, ?_⟩
    cases hphase : s.bc.phase <;> simp only [hphase] at ht ⊢
    case none => exact absurd ht (not_flag_of_bc_eq hf rfl)
    case addr | txData =>
      obtain ⟨b, -, heq⟩ := use_dataRead_of_flag hf ht
      rw [heq]
      exact ⟨nofun, nofun, rfl⟩
    case rxData =>
      cases hea : s.bc.ea
      · rw [if_neg Bool.false_ne_true, performDataIn_lose x hea]
        exact ⟨nofun, nofun, rfl⟩
      · rw [if_pos hea] at ht
        exact absurd ht (not_flag_of_bc_eq hf rfl)
  next => exact fun ht => absurd ht (not_flag_of_bc_eq hf rfl)

/-- R149. -/
theorem bcBusError_of_flag {e : Byte} (ht : (bcBusError e s).bc.flag = true) :
    BusErrorEnabled s ∧ busErrorStatus s.cfg e = true :=
  (bcBusError_eq_or_enabled e s).resolve_left fun h => not_flag_of_bc_eq hf (congrArg State.bc h) ht

end Reporting

/-- Settles O36: each step that sets the flag was enabled, and reports what its pending action admits. -/
theorem bcReportsOnlyAdmittedStatuses : Obligations.BcReportsOnlyAdmittedStatuses := by
  intro s t e hf h ht
  obtain rfl | ⟨st, rfl⟩ | ⟨sym, x, hrow⟩ := bcTurn_cases h
  · exact absurd (bcSilent_flag s ▸ ht) (not_flag_of_bc_eq hf rfl)
  · obtain ⟨henabled, hst⟩ := bcBusError_of_flag hf ht
    rw [bcBusError_of_enabled henabled hst]
    obtain ⟨hadm, hen, hp, hphase⟩ := henabled
    obtain ⟨-, hunlisted⟩ := busErrorStatus_iff.mp hst
    exact ⟨hen, .inr (.inr (.inr (.inr (.inr ⟨hp, hphase, hadm, hunlisted⟩))))⟩
  · cases sym <;> obtain ⟨-, rfl⟩ := atomic_eq_next.mp hrow
    case startSent | repeatedStartSent =>
      obtain ⟨henabled, ho⟩ := bcStart_of_flag hf ht
      obtain ⟨hen, hp⟩ := bcEnabled_iff.mp henabled
      rw [bcStart_of_enabled henabled ho]
      exact ⟨hen, .inl ⟨hp, performStart_status s⟩⟩
    case addressAckedForWrite | addressNackedForWrite =>
      obtain ⟨hshift, b, hb, hdir, hreport⟩ := bcAddress_report hf (by decide) ht
      obtain ⟨hen, hp, hphase⟩ := shiftEnabled_iff.mp hshift
      exact ⟨hen, .inr (.inl ⟨hp, hphase, b, hb, fun _ => hreport,
        fun hread => absurd (hdir.symm.trans hread) Bool.false_ne_true⟩)⟩
    case addressAckedForRead | addressNackedForRead =>
      obtain ⟨hshift, b, hb, hdir, hreport⟩ := bcAddress_report hf (by decide) ht
      obtain ⟨hen, hp, hphase⟩ := shiftEnabled_iff.mp hshift
      exact ⟨hen, .inr (.inl ⟨hp, hphase, b, hb,
        fun hwrite => absurd (hwrite.symm.trans hdir) Bool.false_ne_true, fun _ => hreport⟩)⟩
    case dataByteAcked | dataByteNacked =>
      obtain ⟨hshift, b, hb⟩ := bcDataOut_of_flag hf ht
      obtain ⟨hen, hp, hphase⟩ := shiftEnabled_iff.mp hshift
      rw [bcDataOut_of_some hshift hb]
      exact ⟨hen, .inr (.inr (.inl ⟨hp, hphase, performDataOut_status (by decide) b s⟩))⟩
    case dataByteAckedOnReceive | dataByteNackedOnReceive =>
      obtain ⟨hshift, hea⟩ := bcDataIn_of_flag hf ht
      obtain ⟨hen, hp, hphase⟩ := shiftEnabled_iff.mp hshift
      rw [bcDataIn_of_ea hshift hea]
      exact ⟨hen, .inr (.inr (.inr (.inl ⟨hp, hphase, performDataIn_status x s⟩)))⟩
    case arbitrationLost =>
      obtain ⟨hadm, henabled, hphase, hnotAcked, hstatus⟩ := bcArbitration_of_flag hf ht
      obtain ⟨hen, hp⟩ := bcEnabled_iff.mp henabled
      exact ⟨hen, .inr (.inr (.inr (.inr (.inl ⟨hp, hphase, hnotAcked, hadm, hstatus⟩))))⟩

end Sys2Proof.Machine
end

section
/-! PROOFS. The exceptions family (60_exceptions.md R158, R159, R172): the run that was refused, the refusals that a step
may raise, and the hang. -/

namespace Sys2Proof.Machine

/-! ## A refused run -/

/-- R158: every meaning is one atomic step, which a marked run does not take. -/
theorem exec_of_refused {s : State} {r : RefuseReason} (hr : s.refused = some r) (i : Instr) :
    exec i s = .fault (.runStopped r) := by
  cases i <;> dsimp only [exec] <;> exact atomic_of_refused hr _

/-- Settles O9: the step and each meaning read the mark before anything else, and R13 asks for a run without it. -/
theorem refusedRunTakesNoStep : Obligations.RefusedRunTakesNoStep := by
  intro s r hr
  refine ⟨by simp only [step, nextStep, hr], exec_of_refused hr, fun ⟨hs, _⟩ => ?_⟩
  exact nomatch hr.symm.trans hs

/-! ## BC performs its pending action, or changes nothing -/

/-- From `s` to `t` BC performed its pending action: another is pending or none, and no refusal was taken. -/
def Performs (s t : State) : Prop := t.refused = s.refused ∧ t.bc.pending ≠ s.bc.pending

/-- R142. -/
theorem performs_performStart {s : State} (hp : s.bc.pending = .start) : Performs s (performStart s) := by
  cases ho : s.bc.owned
  · rw [performStart_free ho]
    exact ⟨rfl, by simp [hp]⟩
  · rw [performStart_held ho]
    exact ⟨rfl, by simp [hp]⟩

/-- R143: a stop leaves nothing pending, or the start behind it. -/
theorem performs_performStop {s : State} (hp : s.bc.pending = .stop ∨ s.bc.pending = .stopStart) :
    Performs s (performStop s) := by
  rw [performStop_spec]
  refine ⟨rfl, ?_⟩
  obtain hp | hp := hp <;> simp [hp]

section Shift

variable {s : State} (hp : s.bc.pending = .shift)
include hp

/-- A step that leaves nothing pending performs the shift. -/
theorem performs_of_done {b : Bc} (hb : b.pending = .none) (trace : List Event) :
    Performs s { s with bc := b, trace := trace } :=
  ⟨rfl, by simp [hb, hp]⟩

/-- R144. -/
theorem performs_performAddress (o : Reply) (b : Byte) : Performs s (performAddress o b s) := by
  cases o
  case ack =>
    rw [performAddress_ack]
    exact performs_of_done hp rfl _
  case nack =>
    rw [performAddress_nack]
    exact performs_of_done hp rfl _
  case arbLost => exact performs_of_done hp rfl _

/-- R145. -/
theorem performs_performDataOut (o : Reply) (b : Byte) : Performs s (performDataOut o b s) := by
  cases o <;> exact performs_of_done hp rfl _

/-- R146. -/
theorem performs_performDataIn (x : Byte) (lose : Bool) : Performs s (performDataIn x lose s) := by
  cases hea : s.bc.ea
  · cases lose
    · rw [performDataIn_nack x hea]
      exact performs_of_done hp rfl _
    · rw [performDataIn_lose x hea]
      exact performs_of_done hp rfl _
  · rw [performDataIn_ack x lose hea]
    exact performs_of_done hp rfl _

end Shift

/-- R140, R152: in a sound state a step of BC finds a value in DATA where it reads it, so it raises nothing: it performs
the pending action, or changes nothing. -/
theorem BcAction.eq_or_performs {s t : State} (h : BcAction s t) (hi : Invariant s) : t = s ∨ Performs s t := by
  cases h with
  | start owned =>
    unfold bcStart
    split
    next hen =>
      simp only [Bool.and_eq_true, bcEnabled_iff] at hen
      obtain ⟨⟨-, hp⟩, -⟩ := hen
      exact .inr (performs_performStart hp)
    next => exact .inl rfl
  | address o dir =>
    unfold bcAddress
    split
    next hen =>
      obtain ⟨-, hp, -⟩ := shiftEnabled_iff.mp hen
      obtain ⟨b, hb⟩ := hi.dataRead_of_shift hp
      rw [hb, State.use_ok]
      split
      · exact .inr (performs_performAddress hp o b)
      · exact .inl rfl
    next => exact .inl rfl
  | dataOut o =>
    unfold bcDataOut
    split
    next hen =>
      obtain ⟨-, hp, -⟩ := shiftEnabled_iff.mp hen
      obtain ⟨b, hb⟩ := hi.dataRead_of_shift hp
      rw [hb, State.use_ok]
      exact .inr (performs_performDataOut hp o b)
    next => exact .inl rfl
  | dataIn x ea =>
    unfold bcDataIn
    split
    next hen =>
      simp only [Bool.and_eq_true, shiftEnabled_iff] at hen
      obtain ⟨⟨-, hp, -⟩, -⟩ := hen
      exact .inr (performs_performDataIn hp x false)
    next => exact .inl rfl
  | arbitration x =>
    unfold bcArbitration
    split
    next hen =>
      simp only [Bool.and_eq_true, bcEnabled_iff] at hen
      obtain ⟨-, -, hp⟩ := hen
      obtain ⟨b, hb⟩ := hi.dataRead_of_shift hp
      rw [hb]
      cases s.bc.phase with
      | none => exact .inl rfl
      | addr => exact .inr (performs_performAddress hp .arbLost b)
      | txData => exact .inr (performs_performDataOut hp .arbLost b)
      | rxData =>
        dsimp only
        split
        · exact .inl rfl
        · exact .inr (performs_performDataIn hp x true)
    next => exact .inl rfl
  | silent =>
    unfold bcSilent
    split
    next hen =>
      simp only [Bool.or_eq_true, bcEnabled_iff] at hen
      exact .inr (performs_performStop (hen.imp And.right And.right))
    next =>
      split
      next hen =>
        obtain ⟨-, hp, -⟩ := shiftEnabled_iff.mp hen
        exact .inr (performs_of_done hp rfl s.trace)
      next => exact .inl rfl
  | busError e =>
    obtain h | ⟨henabled, he⟩ := bcBusError_eq_or_enabled e s
    · exact .inl h
    · have ⟨_, _, hp, _⟩ := henabled
      rw [bcBusError_of_enabled henabled he]
      exact .inr (performs_of_done hp rfl _)

/-- R140, R152 for every turn of BC. -/
theorem Invariant.bcTurn_eq_or_performs {s t : State} (hi : Invariant s) {e : Ev} (h : bcTurn e s = .next t) :
    t = s ∨ Performs s t := by
  obtain ⟨f, heq, hact⟩ := bcTurn_eq_atomic e s
  rw [heq] at h
  exact (atomic_eq_next.mp h).2 ▸ hact.eq_or_performs hi

/-! ## EH's turn raises nothing -/

/-- R73: an event key decodes to the exact row of a symbol of its status, or to the default row of its mode. -/
theorem decodeEvent_cases (c : Config) (m : Mode) (e : Byte) :
    (∃ x, c.codes.code x = e ∧ exactRow m x = some (decodeEvent c m e)) ∨ decodeEvent c m e = defaultRow m e := by
  rw [decodeEvent_eq]
  cases hsym : c.codes.symbolOf e with
  | none => exact .inr rfl
  | some x =>
    cases hrow : exactRow m x with
    | none => exact .inr (by simp [hrow])
    | some i => exact .inl ⟨x, StatusCodes.code_of_symbolOf hsym, by simp [hrow]⟩

section EventRows

variable {s : State} (hi : Invariant s) (hirq : irq s = true) (hs : s.refused = none)
include hi hirq hs

/-- R24, R83: in a transfer SLA_RW has been written. -/
theorem Invariant.aLoadAddr_refused : (aLoadAddr s).refused = none := by
  obtain ⟨-, -, hf, -, hp⟩ := hi.of_irq hirq
  obtain ⟨hsla, -⟩ := hi.operands (hi.mode_of_irq hirq)
  obtain ⟨b, hb⟩ := Option.isSome_iff_exists.mp hsla
  rw [aLoadAddr_spec hf hp hb]
  exact hs

/-- R85: nothing is pending. -/
theorem Invariant.aRxRequest_refused (a : Bool) : (aRxRequest a s).refused = none := by
  obtain ⟨-, -, -, -, hp⟩ := hi.of_irq hirq
  rw [aRxRequest_spec a hp]
  exact hs

/-- R21, R87: in a transfer SEND_STOP has been written. -/
theorem Invariant.aComplete_refused : (aComplete s).refused = none := by
  obtain ⟨-, -, -, -, hp⟩ := hi.of_irq hirq
  obtain ⟨-, hsend⟩ := hi.operands (hi.mode_of_irq hirq)
  obtain ⟨stop, hstop⟩ := Option.isSome_iff_exists.mp hsend
  cases stop
  · rw [aComplete_repstart hs hp hstop]
    exact hs
  · rw [aComplete_stop hs hp hstop]
    exact hs

/-- R88: nothing is pending. -/
theorem Invariant.aFail_refused (e : Byte) : (aFail e s).refused = none := by
  obtain ⟨-, -, -, -, hp⟩ := hi.of_irq hirq
  rw [aFail_spec e hs hp]
  exact hs

/-- R98, R120, R121: the bytes that a transmit is to send have been written. -/
theorem Invariant.txNextOrComplete_refused (hm : s.mode = .masterTransmit) : (txNextOrComplete s).refused = none := by
  unfold txNextOrComplete
  split
  next hlt =>
    obtain ⟨-, -, hf, -, hp⟩ := hi.of_irq hirq
    obtain ⟨b, hb⟩ := Option.isSome_iff_exists.mp (hi.toSend hm _ hlt)
    rw [aTxNext_spec hf hp (lt_of_lt_of_le hlt hi.bounds.2) hb]
    exact hs
  next => exact hi.aComplete_refused hirq hs

/-- R118 to R124, R158: an exact row of MasterTransmit raises nothing. -/
theorem Invariant.transmitRow_refused {t : State} {i : Instr} {x : StatusSymbol} (hm : s.mode = .masterTransmit)
    (hrow : exactRow .masterTransmit x = some i) (h : exec i s = .next t) : t.refused = none := by
  cases x <;> simp only [exactRow, Option.some.injEq, reduceCtorEq] at hrow <;> subst hrow <;>
    obtain ⟨-, rfl⟩ := atomic_eq_next.mp h
  case startSent | repeatedStartSent => exact hi.aLoadAddr_refused hirq hs
  case addressAckedForWrite | dataByteAcked => exact hi.txNextOrComplete_refused hirq hs hm
  case dataByteNacked | addressNackedForWrite | arbitrationLost => exact hi.aFail_refused hirq hs _

/-- R127 to R133, R158: an exact row of MasterReceive raises nothing; a row that stores finds the byte in DATA. -/
theorem Invariant.receiveRow_refused {t : State} {i : Instr} {x : StatusSymbol}
    (hx : s.cfg.codes.code x = s.bc.status) (hrow : exactRow .masterReceive x = some i) (h : exec i s = .next t) :
    t.refused = none := by
  cases x <;> simp only [exactRow, Option.some.injEq, reduceCtorEq] at hrow <;> subst hrow <;>
    simp only [exec, execMrDataByteAckedOnReceive, execMrDataByteNackedOnReceive] at h <;>
    obtain ⟨-, rfl⟩ := atomic_eq_next.mp h
  case startSent | repeatedStartSent => exact hi.aLoadAddr_refused hirq hs
  case addressAckedForRead => exact hi.aRxRequest_refused hirq hs _
  case dataByteAckedOnReceive =>
    obtain ⟨m, i, hthen, hi'⟩ := hi.after_aStore hs (hi.data_of_status hirq hx (by decide))
    rw [hthen]
    split
    · exact hi'.aComplete_refused hirq hs
    · exact hi'.aRxRequest_refused hirq hs _
  case dataByteNackedOnReceive =>
    obtain ⟨m, i, hthen, hi'⟩ := hi.after_aStore hs (hi.data_of_status hirq hx (by decide))
    rw [hthen]
    exact hi'.aComplete_refused hirq hs
  case addressNackedForRead | arbitrationLost => exact hi.aFail_refused hirq hs _

/-- R28, R158: in a transfer MODE is a master mode, whose exact rows and default row raise nothing. -/
theorem Invariant.eventRow_refused {t : State} (h : exec (decodeEvent s.cfg s.mode s.bc.status) s = .next t) :
    t.refused = none := by
  have hrow := decodeEvent_cases s.cfg s.mode s.bc.status
  obtain hm | hm | hm := hi.modes
  · exact absurd hm (hi.mode_of_irq hirq)
  · rw [hm] at h hrow
    obtain ⟨x, -, hexact⟩ | hdefault := hrow
    · exact hi.transmitRow_refused hirq hs hm hexact h
    · rw [hdefault] at h
      obtain ⟨-, rfl⟩ := atomic_eq_next.mp h
      exact hi.aFail_refused hirq hs _
  · rw [hm] at h hrow
    obtain ⟨x, hx, hexact⟩ | hdefault := hrow
    · exact hi.receiveRow_refused hirq hs hx hexact h
    · rw [hdefault] at h
      obtain ⟨-, rfl⟩ := atomic_eq_next.mp h
      exact hi.aFail_refused hirq hs _

end EventRows

/-- R158: in a sound state EH's turn raises nothing. -/
theorem Invariant.ehTurn_refused {s t : State} (hi : Invariant s) (hs : s.refused = none) (h : ehTurn s = .next t) :
    t.refused = none := by
  cases hirq : irq s
  · rw [ehTurn_of_not_irq hirq] at h
    exact Host.Outcome.next.inj h ▸ hs
  · rw [ehTurn_eq_exec hirq, hi.maskedStatus_eq hirq] at h
    exact hi.eventRow_refused hirq hs h

/-! ## FG's micro-steps raise nothing, and its commands what an input causes -/

/-- R92, R158: in a sound state FG holds the registers that its micro-step reads, and a trigger finds nothing pending or a
stop. -/
theorem Invariant.fgMicroStep_refused {s : State} (hi : Invariant s) (hs : s.refused = none) :
    (fgMicroStep s).refused = none := by
  have hwait (q : Phase) : (waitIdle q s).refused = none := by
    unfold waitIdle
    split <;> exact hs
  have htrigger (hat : atTrigger s) : (trigger s).refused = none ∧ (trigger s).fg = s.fg := by
    obtain ⟨trace, b, heq, -⟩ := hi.trigger_cases (.inr hat)
    rw [heq]
    exact ⟨hs, rfl⟩
  have hholds := hi.foreground
  cases hpc : s.fg.pc <;> simp only [fgMicroStep, hpc] <;> simp only [FgHolds, hpc] at hholds
  case ready | wResult => exact hs
  case wWaitIdle | wWaitDone | rWaitIdle | rWaitDone => exact hwait _
  case wCheck =>
    obtain ⟨len, -, hlen, -⟩ := hholds
    rw [wCheck, hlen, valued_some, State.use_ok]
    split <;> exact hs
  case wSetup =>
    obtain ⟨len, data, hlen, hdata, hlength, hcap, haddr, -, hstop⟩ := hholds
    obtain ⟨a, ha⟩ := Option.isSome_iff_exists.mp haddr
    obtain ⟨stop, hstop⟩ := Option.isSome_iff_exists.mp hstop
    obtain ⟨m, heq, -⟩ := wSetup_spec hs ha hlen hstop hdata hlength hcap
    rw [heq]
    exact hs
  case wTrigger =>
    obtain ⟨hr, hfg⟩ := htrigger (.inl hpc)
    obtain ⟨w, hw⟩ := Option.isSome_iff_exists.mp hholds
    rw [wTrigger_spec hr (hfg ▸ hw)]
    exact hr
  case rSetup =>
    obtain ⟨len, hlen, -, -, haddr, hstop⟩ := hholds
    obtain ⟨a, ha⟩ := Option.isSome_iff_exists.mp haddr
    obtain ⟨stop, hstop⟩ := Option.isSome_iff_exists.mp hstop
    rw [rSetup_spec ha hlen hstop]
    exact hs
  case rTrigger =>
    obtain ⟨hr, -⟩ := htrigger (.inr hpc)
    rw [rTrigger_spec hr]
    exact hr
  case rCopy =>
    obtain ⟨out, -, -, heq⟩ := rCopy_spec (hi.bounds.1.trans hi.bounds.2) hi.written
    rw [heq]
    exact hs

/-- R159: the refusal taken, if any, is one that an input causes. -/
def RefusedByInput (t : State) : Prop := ∀ r, t.refused = some r → r.byInput = true

theorem refusedByInput_of_running {t : State} (h : t.refused = none) : RefusedByInput t :=
  fun _ hr => nomatch h.symm.trans hr

theorem refusedByInput_raise {r : RefuseReason} (h : r.byInput = true) (s : State) : RefusedByInput (s.raise r) :=
  fun _ hr => Option.some.inj hr ▸ h

/-- R93, R95, R103, R159: what a command may raise; these steps read no register that may hold no value. -/
theorem runCommand_refusedByInput {s t : State} {c : Command} (h : runCommand c s = .next t) : RefusedByInput t := by
  simp only [runCommand, decode] at h
  obtain hd | hd | ⟨a, l, w, p, hd⟩ | ⟨a, l, p, hd⟩ := decodeCommand_cases c.word c.data <;>
    simp only [hd, exec, execInit, execWrite, execRead, atomic_eq_next] at h <;> obtain ⟨hs, rfl⟩ := h
  · exact refusedByInput_raise rfl s
  · split
    · split
      · exact refusedByInput_raise rfl s
      · rename_i d _
        obtain ⟨b, hb, -⟩ := writeControl_arms (n := .init) (s := bitrateWrite d { s with mode := .idle }) rfl
        rw [hb, State.andThen_of_running (by exact hs)]
        exact refusedByInput_of_running hs
    · exact refusedByInput_raise rfl s
  · split
    · exact refusedByInput_raise rfl s
    · split
      · exact refusedByInput_raise rfl s
      · exact refusedByInput_of_running hs
  · split
    · exact refusedByInput_raise rfl s
    · split
      · exact refusedByInput_raise rfl s
      · exact refusedByInput_of_running hs

/-- R159 for every turn of FG. -/
theorem Invariant.fgTurn_refusedByInput {s t : State} (hi : Invariant s) (hs : s.refused = none)
    (h : fgTurn s = .next t) : RefusedByInput t := by
  unfold fgTurn at h
  split at h
  · exact refusedByInput_of_running (Host.Outcome.next.inj h ▸ hs)
  · exact runCommand_refusedByInput h
  · obtain ⟨-, rfl⟩ := atomic_eq_next.mp h
    exact refusedByInput_of_running (hi.fgMicroStep_refused hs)

/-- Settles O54: of the agents only FG raises, where it takes a command; EH and BC find every register that they read with
a value, an index below CAP, and no action pending that a control write would overrun. -/
theorem noUnreachableRefusal : Obligations.NoUnreachableRefusal := by
  intro s t r hi hstep
  obtain ⟨hs, sched, tick, drop, hturn⟩ := step_cases hi.config hi.noBench hstep
  have hi' := hi.inputs s.host sched tick drop s.refused s.trace s.initDone
  suffices h : RefusedByInput t from h r
  obtain h | h | ⟨e, h⟩ := hturn
  · exact hi'.fgTurn_refusedByInput hs h
  · exact refusedByInput_of_running (hi'.ehTurn_refused hs h)
  · obtain rfl | ⟨hr, -⟩ := hi'.bcTurn_eq_or_performs h
    · exact refusedByInput_of_running hs
    · exact refusedByInput_of_running (hr.trans hs)

/-! ## The hang -/

/-- R172 reads no field of the schedule. -/
theorem Waiting.withSchedule {s : State} (h : Waiting s) (sched : List Turn) (tick : Nat) (drop : Bool) :
    Waiting { s with sched := sched, tick := tick, drop := drop } := h

/-- R97, R100, R104, R107: FG only repeats its wait step. -/
theorem Waiting.fgTurn_eq {s : State} (h : Waiting s) : fgTurn s = .next s := by
  obtain ⟨hs, hphase, hmode, -, -⟩ := h
  have hwait (q : Phase) : waitIdle q s = s := if_neg hmode
  cases hpc : s.fg.pc <;> rw [hpc] at hphase
  case wWaitIdle | wWaitDone | rWaitIdle | rWaitDone =>
    exact fgTurn_of_microStep hs hpc nofun (by simp only [fgMicroStep, hpc, hwait])
  all_goals exact absurd hphase Bool.false_ne_true

/-- R13: a waiting state is not final. -/
theorem Waiting.not_ended {s : State} (h : Waiting s) : ¬Ended s := by
  rintro ⟨-, -, -, hidle, -, -⟩
  obtain ⟨-, -, hmode, -, -⟩ := h
  exact hmode hidle

/-- R152, R172: a step from a waiting state changes the schedule only, or it performs a pending action of BC. -/
theorem Waiting.step_cases {s t : State} (hw : Waiting s) (hi : Invariant s) (hstep : step s = .next t) :
    (∃ sched tick drop, t = { s with sched := sched, tick := tick, drop := drop }) ∨
      s.bc.pending ≠ .none ∧ t.bc.pending ≠ s.bc.pending := by
  obtain ⟨hs, sched, tick, drop, hturn⟩ := Machine.step_cases hi.config hi.noBench hstep
  have ⟨_, _, _, hirq, _⟩ := hw
  obtain h | h | ⟨e, h⟩ := hturn
  · rw [(hw.withSchedule sched tick drop).fgTurn_eq] at h
    exact .inl ⟨sched, tick, drop, (Host.Outcome.next.inj h).symm⟩
  · rw [ehTurn_of_not_irq (by exact hirq)] at h
    exact .inl ⟨sched, tick, drop, (Host.Outcome.next.inj h).symm⟩
  · have hi' := hi.inputs s.host sched tick drop s.refused s.trace s.initDone
    obtain heq | ⟨-, hne⟩ := hi'.bcTurn_eq_or_performs h
    · exact .inl ⟨sched, tick, drop, heq⟩
    · refine .inr ⟨fun hp => ?_, hne⟩
      rw [bcTurn_of_none (by exact hp) (by exact hs) e] at h
      exact hne (Host.Outcome.next.inj h ▸ rfl)

/-- R172: while BC's pending action stays, the machine waits and records nothing. -/
theorem Waiting.after_step {s t : State} (hw : Waiting s) (hi : Invariant s) (hstep : step s = .next t)
    (hp : t.bc.pending = s.bc.pending) : Waiting t ∧ t.trace = s.trace := by
  obtain ⟨sched, tick, drop, rfl⟩ | ⟨-, hne⟩ := hw.step_cases hi hstep
  · exact ⟨hw.withSchedule sched tick drop, rfl⟩
  · exact absurd hp hne

/-- R147, R150, R172: with nothing pending, nothing is ever pending again. -/
theorem Hung.pending_after_step {s t : State} (hh : Hung s) (hi : Invariant s) (hstep : step s = .next t) :
    t.bc.pending = .none := by
  obtain ⟨hw, hp⟩ := hh
  obtain ⟨sched, tick, drop, rfl⟩ | ⟨hne, -⟩ := hw.step_cases hi hstep
  · exact hp
  · exact absurd hp hne

/-- R152: a run waits from a step on, if its pending action never changes from there. -/
theorem waiting_of_pending_stays {run : Nat → State} {n : Nat} (hrun : IsRun run) (hi : Invariant (run n))
    (hw : Waiting (run n)) (hp : ∀ m, n ≤ m → (run m).bc.pending = (run n).bc.pending) :
    ∀ m, n ≤ m → Invariant (run m) ∧ Waiting (run m) := by
  intro m hm
  induction m, hm using Nat.le_induction with
  | base => exact ⟨hi, hw⟩
  | succ m hm ih =>
    obtain ⟨him, hwm⟩ := ih
    obtain ⟨hnext, -⟩ := hwm.after_step him (hrun m) ((hp (m + 1) (by omega)).trans (hp m hm).symm)
    exact ⟨stepKeepsInvariant _ _ him (hrun m), hnext⟩

/-- A turn of FG. -/
def fgOnly : Turn := { agent := .fg, drop := false, ev := .none }

/-- A run of one step more begins with that step. -/
theorem core_run_succ {s t : State} (h : step s = .next t) (k : Nat) :
    Host.Core.run Sys2Proof.core (k + 1) s = Host.Core.run Sys2Proof.core k t := by
  have hstep : Sys2Proof.core.step s = .next t := h
  simp only [Host.Core.run, hstep]

/-- R152: FG's turns in a row, as many as the schedule lists, change nothing. -/
theorem Waiting.run_fgOnly {s : State} (hw : Waiting s) (hc : configOk s.cfg = true) (hd : s.drop = false) (k : Nat) :
    Host.Core.run Sys2Proof.core k { s with sched := List.replicate k fgOnly } = .next { s with sched := [] } := by
  induction k with
  | zero => rfl
  | succ k ih =>
    have hstep : step { s with sched := List.replicate (k + 1) fgOnly } =
        .next { s with sched := List.replicate k fgOnly } := by
      have ⟨hs, _, _, _, hbench⟩ := hw
      rw [step_of_sched (by exact hs) (by exact hc) (by exact hbench) rfl, runTurn_fg rfl]
      show fgTurn { s with sched := List.replicate k fgOnly, drop := false } = _
      rw [← hd]
      exact (hw.withSchedule (List.replicate k fgOnly) s.tick s.drop).fgTurn_eq
    exact (core_run_succ hstep k).trans ih

/-- Settles O59: FG repeats its wait, EH is not enabled, and BC performs its pending action or changes nothing. -/
theorem hangPersists : Obligations.HangPersists := by
  refine ⟨fun s hw => ⟨hw.fgTurn_eq, hw.not_ended⟩, fun s t hi hw hstep hp => hw.after_step hi hstep hp,
    fun s t hi hh hstep => ?_, fun run n hrun hi hw hp => ⟨hrun, n, fun m hm => ?_⟩,
    fun s k hc hw hd => hw.run_fgOnly hc hd k⟩
  · have hp := hh.pending_after_step hi hstep
    obtain ⟨hw, hnone⟩ := hh
    obtain ⟨hw', htrace⟩ := hw.after_step hi hstep (hp.trans hnone.symm)
    exact ⟨⟨hw', hp⟩, htrace⟩
  · obtain ⟨-, hwm⟩ := waiting_of_pending_stays hrun hi hw hp m hm
    exact hwm

end Sys2Proof.Machine
end

section
/-! PROOFS. The reset and hazards family (70_reset_and_hazards.md R177, R182, R185): the configuration's check, what
EH's turn leaves of a transfer, and the agents that write RS_PENDING. -/

namespace Sys2Proof.Machine

/-! ## The configuration's check -/

/-- R177: CAP, the clocks and the divisor in their bounds, and a conforming STATUS_CODE (R64). -/
theorem configOk_iff (c : Config) : configOk c = true ↔
    1 ≤ c.cap ∧ c.cap ≤ 255 ∧ 1 ≤ c.fScl ∧ 16 ≤ c.fClk / c.fScl ∧ (c.fClk / c.fScl - 16) / 2 ≤ 255 ∧
      (codeList c.codes).Nodup ∧ ∀ v ∈ codeList c.codes, v &&& c.statusMask = v ∧ v ≠ 0xFF := by
  have hdivisor : (divisor c.fClk c.fScl).isSome = true ↔
      1 ≤ c.fScl ∧ 16 ≤ c.fClk / c.fScl ∧ (c.fClk / c.fScl - 16) / 2 ≤ 255 := by
    rw [divisor_eq]
    split <;> simp only [Option.isSome_none, Option.isSome_some, Bool.false_eq_true, true_iff, false_iff] <;> omega
  simp only [configOk, codesConform, Bool.and_eq_true, decide_eq_true_eq, hdivisor, allDistinct_iff_nodup,
    List.all_eq_true, beq_iff_eq, bne_iff_ne, and_assoc]

/-- R177: no agent moves under an invalid configuration. -/
theorem step_of_not_configOk {s : State} (hs : s.refused = none) (hc : ¬configOk s.cfg = true) :
    step s = .next (s.raise .badConfig) := by
  simp only [step, nextStep, hs, if_neg hc]

/-- Settles O10: the check that a step makes first is R177's list. -/
theorem badConfigurationIsRefused : Obligations.BadConfigurationIsRefused :=
  fun s hs hbad => step_of_not_configOk hs (mt (configOk_iff s.cfg).mp hbad)

/-! ## What EH's turn leaves of the transfer -/

/-- R126(d), R135, R182, R185: between `s` and `t` the transfer goes on with a shift requested, or it ends; RS_PENDING
is kept, or the end was the control write CW_REPSTART. -/
def EndsOrShifts (s t : State) : Prop :=
  (t.mode = s.mode ∧ t.rsPending = s.rsPending ∧ t.bc.pending = .shift ∧ t.bc.flag = false) ∨
  (t.mode = .idle ∧ t.rsPending = s.rsPending) ∨
  (t.mode = .idle ∧ s.sendStop = some false ∧ t.trace = s.trace ++ [.ctrl (s.cw .repstart)])

/-- R158: what follows a statement takes no effect unless the statement took no refusal. -/
theorem State.not_refused_of_andThen {s : State} {f : State → State} (h : (s.andThen f).refused = none) :
    s.refused = none := by
  cases hs : s.refused with
  | none => rfl
  | some r => rwa [State.andThen_of_refused hs, hs] at h

/-- R48, R52: a BUF write writes BUF only, or raises. -/
theorem memWrite_frame (i : Nat) (v : Byte) (s : State) :
    ∃ m r, memWrite i v s = { s with buf := m, refused := r } := by
  unfold memWrite
  split <;> exact ⟨_, _, rfl⟩

/-- R86: A_STORE writes BUF and IDX only, or raises. -/
theorem aStore_frame (s : State) : ∃ m i r, aStore s = { s with buf := m, idx := i, refused := r } := by
  unfold aStore
  split
  · cases dataRead s with
    | error r => exact ⟨_, _, _, rfl⟩
    | ok x =>
      obtain ⟨m, r, heq⟩ := memWrite_frame s.idx.toNat x s
      rw [State.use_ok, heq]
      unfold State.andThen
      split <;> exact ⟨_, _, _, rfl⟩
  · exact ⟨_, _, _, rfl⟩

/-- R66, R138: CW_NEXT_NOACK, CW_NEXT_ACK and CW_RELEASE request a shift. -/
theorem endsOrShifts_writeControl {n : CtrlName} {s u : State} (hn : n ∈ [CtrlName.nextNoack, .nextAck, .release])
    (hp : u.bc.pending = .none) (hmode : u.mode = s.mode) (hrs : u.rsPending = s.rsPending) :
    EndsOrShifts s (writeControl n u) := by
  obtain ⟨hint, hsta, hsto⟩ : n.bits.int = true ∧ n.bits.sta = false ∧ n.bits.sto = false := by
    revert n
    decide
  rw [writeControl_of_none hint hp]
  exact .inl ⟨hmode, hrs, by simp [hsta, hsto], rfl⟩

section Actions

variable {s t : State} (hp : s.bc.pending = .none)
include hp

/-- R83. -/
theorem endsOrShifts_aLoadAddr (hf : s.bc.flag = true) (h : (aLoadAddr s).refused = none) :
    EndsOrShifts s (aLoadAddr s) := by
  obtain ⟨b, heq⟩ := State.use_eq_of_not_refused h
  rw [aLoadAddr, heq, dataWrite_of_flag hf]
  exact endsOrShifts_writeControl (by decide) hp rfl rfl

/-- R84. -/
theorem endsOrShifts_aTxNext (hf : s.bc.flag = true) (h : (aTxNext s).refused = none) :
    EndsOrShifts s (aTxNext s) := by
  obtain ⟨b, heq⟩ := State.use_eq_of_not_refused h
  rw [aTxNext, heq, dataWrite_of_flag hf]
  exact endsOrShifts_writeControl (by decide) hp rfl rfl

/-- R85. -/
theorem endsOrShifts_aRxRequest (a : Bool) : EndsOrShifts s (aRxRequest a s) := by
  cases a
  · exact endsOrShifts_writeControl (n := .nextNoack) (by decide) hp rfl rfl
  · exact endsOrShifts_writeControl (n := .nextAck) (by decide) hp rfl rfl

/-- R130, R131: A_STORE leaves to the action after it whether the transfer ends. -/
theorem endsOrShifts_after_aStore {f : State → State} (h : ((aStore s).andThen f).refused = none)
    (hf : ∀ u, u.bc.pending = .none → u.refused = none → (f u).refused = none → EndsOrShifts u (f u)) :
    EndsOrShifts s ((aStore s).andThen f) := by
  have hstored := State.not_refused_of_andThen h
  rw [State.andThen_of_running hstored] at h ⊢
  obtain ⟨m, i, r, heq⟩ := aStore_frame s
  rw [heq] at hstored h ⊢
  exact hf _ hp hstored h

variable (hs : s.refused = none)
include hs

/-- R87: SEND_STOP says which end it is. -/
theorem endsOrShifts_aComplete (h : (aComplete s).refused = none) : EndsOrShifts s (aComplete s) := by
  cases hstop : s.sendStop with
  | none =>
    rw [aComplete_of_none hstop] at h
    exact absurd h (Option.some_ne_none _)
  | some stop =>
    rw [aComplete_eq_completed hs hp hstop]
    cases stop
    · exact .inr (.inr ⟨rfl, hstop, rfl⟩)
    · exact .inr (.inl ⟨rfl, rfl⟩)

/-- R88. -/
theorem endsOrShifts_aFail (e : Byte) : EndsOrShifts s (aFail e s) := by
  rw [aFail_spec e hs hp]
  exact .inr (.inl ⟨rfl, rfl⟩)

/-- R126(d), R135: an action of EH that raises nothing ends the transfer or requests a shift. -/
theorem EventAction.endsOrShifts (h : EventAction s t) (hf : s.bc.flag = true) (ht : t.refused = none) :
    EndsOrShifts s t := by
  cases h with
  | loadAddr => exact endsOrShifts_aLoadAddr hp hf ht
  | sendOrComplete =>
    revert ht
    unfold txNextOrComplete
    split
    · exact endsOrShifts_aTxNext hp hf
    · exact endsOrShifts_aComplete hp hs
  | request a => exact endsOrShifts_aRxRequest hp a
  | storeThenGoOn =>
    refine endsOrShifts_after_aStore hp ht fun u hpu hu => ?_
    split
    · exact endsOrShifts_aComplete hpu hu
    · exact fun _ => endsOrShifts_aRxRequest hpu _
  | storeThenComplete => exact endsOrShifts_after_aStore hp ht fun u => endsOrShifts_aComplete
  | fail e => exact endsOrShifts_aFail hp hs e
  | release => exact endsOrShifts_writeControl (n := .release) (by decide) hp rfl rfl
  | refuse => exact absurd ht (Option.some_ne_none _)

end Actions

/-- R185: in a sound state EH's turn, with the line high, ends the transfer or requests a shift. -/
theorem Invariant.endsOrShifts_of_ehTurn {s t : State} (hi : Invariant s) (hirq : irq s = true) (hs : s.refused = none)
    (h : ehTurn s = .next t) : EndsOrShifts s t := by
  have ht := hi.ehTurn_refused hs h
  obtain ⟨-, -, hf, -, hp⟩ := hi.of_irq hirq
  rw [ehTurn_eq_exec hirq] at h
  exact (eventAction_of_exec (isEventRow_decodeEvent _ _ _) h).endsOrShifts hp hs hf ht

/-- Settles O58: the invariant excludes a refusal, and then every action of EH ends the transfer or requests a shift. -/
theorem ehEndsOrShifts : Obligations.EhEndsOrShifts := by
  intro s t hi _ hirq hs h
  refine ⟨hi.ehTurn_refused hs h, ?_⟩
  obtain ⟨hmode, -, hp, hf⟩ | ⟨hidle, -⟩ | ⟨hidle, -⟩ := hi.endsOrShifts_of_ehTurn hirq hs h
  · exact .inr ⟨hmode, hp, hf⟩
  · exact .inl hidle
  · exact .inl hidle

/-! ## RS_PENDING in a turn of FG -/

/-- R82, R99, R106: RS_PENDING is clear after a trigger, which wrote CW_RESUME if it was set. -/
def Consumes (s t : State) : Prop :=
  t.rsPending = false ∧ (s.rsPending = true → t.trace = s.trace ++ [.ctrl (s.cw .resume)])

@[simp] theorem writeControl_rsPending (n : CtrlName) (s : State) : (writeControl n s).rsPending = s.rsPending := by
  obtain ⟨trace, b, r, heq, -⟩ := writeControl_frame n s
  rw [heq]

theorem consumes_trigger (s : State) : Consumes s (trigger s) := by
  cases hr : s.rsPending
  · rw [trigger_start hr]
    exact ⟨(writeControl_rsPending .start s).trans hr, fun h => absurd (hr.symm.trans h) Bool.false_ne_true⟩
  · rw [trigger_resume hr]
    exact ⟨writeControl_rsPending .resume _, fun _ => writeControl_trace .resume _⟩

/-- R98: the copy-in writes BUF only, or raises. -/
theorem copyIn_frame (data : List Byte) (n : Nat) (s : State) :
    ∃ m r, copyIn data n s = { s with buf := m, refused := r } := by
  induction n with
  | zero => exact ⟨_, _, rfl⟩
  | succ n ih =>
    obtain ⟨m, r, heq⟩ := ih
    rw [copyIn, heq]
    unfold State.andThen
    split
    · cases data[n]? with
      | none => exact ⟨m, _, rfl⟩
      | some b =>
        obtain ⟨m', r', hwrite⟩ := memWrite_frame n b { s with buf := m, refused := r }
        exact ⟨m', r', hwrite⟩
    · exact ⟨m, r, rfl⟩

/-- RS_PENDING is in `t` as it is in `s`. -/
def KeepsRs (s t : State) : Prop := t.rsPending = s.rsPending

/-- R98. -/
theorem keepsRs_wSetup (s : State) : KeepsRs s (wSetup s) := by
  refine State.use_induct (P := KeepsRs s) (fun _ => rfl) fun stop =>
    State.use_induct (P := KeepsRs s) (fun _ => rfl) fun len =>
      State.use_induct (P := KeepsRs s) (fun _ => rfl) fun data => ?_
  obtain ⟨m, r, heq⟩ := copyIn_frame data len.toNat
    { s with mode := .masterTransmit, sendStop := some stop, lastErr := noErrorYet }
  rw [heq]
  exact State.andThen_induct (P := KeepsRs s) rfl (State.use_induct (P := KeepsRs s) (fun _ => rfl) fun _ => rfl)

/-- R182: of FG's micro-steps the triggers alone write RS_PENDING. -/
theorem fgMicroStep_keepsRs_or_consumes (s : State) :
    KeepsRs s (fgMicroStep s) ∨ atTrigger s ∧ Consumes s (fgMicroStep s) := by
  have hwait (q : Phase) : KeepsRs s (waitIdle q s) := by
    unfold waitIdle
    split <;> rfl
  have ht := consumes_trigger s
  cases hpc : s.fg.pc <;> simp only [fgMicroStep, hpc]
  case ready | wResult => exact .inl rfl
  case wCheck =>
    refine .inl (State.use_induct (P := KeepsRs s) (fun _ => rfl) fun len => ?_)
    split <;> rfl
  case wWaitIdle | wWaitDone | rWaitIdle | rWaitDone => exact .inl (hwait _)
  case wSetup => exact .inl (keepsRs_wSetup s)
  case wTrigger =>
    refine .inr ⟨.inl hpc, State.andThen_induct (P := Consumes s) ht
      (State.use_induct (P := Consumes s) (fun _ => ht) fun w => ?_)⟩
    cases w <;> exact ht
  case rSetup =>
    exact .inl (State.use_induct (P := KeepsRs s) (fun _ => rfl) fun _ =>
      State.use_induct (P := KeepsRs s) (fun _ => rfl) fun _ =>
        State.use_induct (P := KeepsRs s) (fun _ => rfl) fun _ => rfl)
  case rTrigger => exact .inr ⟨.inr hpc, State.andThen_induct (P := Consumes s) ht ht⟩
  case rCopy => exact .inl (State.use_induct (P := KeepsRs s) (fun _ => rfl) fun _ => rfl)

/-- R93, R95, R103: no command writes RS_PENDING. -/
theorem runCommand_keepsRs {c : Command} {s t : State} (h : runCommand c s = .next t) : KeepsRs s t := by
  simp only [runCommand, decode] at h
  obtain hd | hd | ⟨a, l, w, p, hd⟩ | ⟨a, l, p, hd⟩ := decodeCommand_cases c.word c.data <;>
    simp only [hd, exec, execInit, execWrite, execRead, atomic_eq_next] at h <;> obtain ⟨-, rfl⟩ := h
  · rfl
  · split
    · split
      · rfl
      · rename_i d _
        have hw := writeControl_rsPending .init (bitrateWrite d { s with mode := .idle })
        exact State.andThen_induct (P := KeepsRs s) hw hw
    · rfl
  · split
    · rfl
    · split <;> rfl
  · split
    · rfl
    · split <;> rfl

/-- R182 for every turn of FG. -/
theorem fgTurn_keepsRs_or_consumes {s t : State} (h : fgTurn s = .next t) :
    KeepsRs s t ∨ atTrigger s ∧ Consumes s t := by
  unfold fgTurn at h
  split at h
  · exact .inl (Host.Outcome.next.inj h ▸ rfl)
  · rename_i c rest _ _
    exact .inl (runCommand_keepsRs (s := { s with host := rest }) h)
  · obtain ⟨-, rfl⟩ := atomic_eq_next.mp h
    exact fgMicroStep_keepsRs_or_consumes s

/-! ## RS_PENDING in a step -/

/-- R182: RS_PENDING rises only with CW_REPSTART of EH, and falls only with CW_RESUME of a trigger. -/
def ConsumesOnce (s t : State) : Prop :=
  (s.rsPending = false → t.rsPending = true →
    irq s = true ∧ s.sendStop = some false ∧ ∃ pre, t.trace = s.trace ++ pre ++ [.ctrl (s.cw .repstart)]) ∧
  (s.rsPending = true → t.rsPending = false → atTrigger s ∧ t.trace = s.trace ++ [.ctrl (s.cw .resume)])

theorem KeepsRs.consumesOnce {s t : State} (h : KeepsRs s t) : ConsumesOnce s t := by
  unfold KeepsRs at h
  exact ⟨fun hs ht => by simp [h, hs] at ht, fun hs ht => by simp [h, hs] at ht⟩

theorem consumesOnce_of_fgTurn {s t : State} (h : fgTurn s = .next t) : ConsumesOnce s t := by
  obtain hkeeps | ⟨hat, hclear, hresume⟩ := fgTurn_keepsRs_or_consumes h
  · exact hkeeps.consumesOnce
  · exact ⟨fun _ hset => absurd (hclear.symm.trans hset) Bool.false_ne_true, fun hset _ => ⟨hat, hresume hset⟩⟩

/-- R110, R182: with the line high no repeated start is held, so that EH's turn does not consume one. -/
theorem Invariant.consumesOnce_of_ehTurn {s t : State} (hi : Invariant s) (hs : s.refused = none)
    (h : ehTurn s = .next t) : ConsumesOnce s t := by
  cases hirq : irq s
  · rw [ehTurn_of_not_irq hirq] at h
    exact KeepsRs.consumesOnce (Host.Outcome.next.inj h ▸ rfl)
  · obtain ⟨-, hkeeps, -⟩ | ⟨-, hkeeps⟩ | ⟨-, hstop, htrace⟩ := hi.endsOrShifts_of_ehTurn hirq hs h
    · exact KeepsRs.consumesOnce hkeeps
    · exact KeepsRs.consumesOnce hkeeps
    · obtain ⟨-, hclear, -⟩ := hi.of_irq hirq
      exact ⟨fun _ _ => ⟨hirq, hstop, [], by rw [htrace, List.append_nil]⟩,
        fun hset _ => absurd (hclear.symm.trans hset) Bool.false_ne_true⟩

/-- R136: BC does not write RS_PENDING. -/
theorem BcKeeps.keepsRs {s t : State} (h : BcKeeps s t) : KeepsRs s t := by
  obtain ⟨heq, -⟩ := h
  unfold KeepsRs
  rw [heq]

/-- Settles O56: EH sets RS_PENDING where it completes without a stop, and FG's triggers clear it. -/
theorem repeatedStartIsConsumedOnce : Obligations.RepeatedStartIsConsumedOnce := by
  intro s t hi hstep
  obtain ⟨hs, sched, tick, drop, hturn⟩ := step_cases hi.config hi.noBench hstep
  have hi' := hi.inputs s.host sched tick drop s.refused s.trace s.initDone
  obtain h | h | ⟨e, h⟩ := hturn
  · have honce := consumesOnce_of_fgTurn h
    exact honce
  · exact hi'.consumesOnce_of_ehTurn hs h
  · exact (bcTurn_keeps h).keepsRs.consumesOnce

end Sys2Proof.Machine
end

section
/-! PROOFS. The machine as a whole (00_scope.md R5, R6, 60_exceptions.md R158): every turn of a run without the mark answers
a next state under the same configuration; and BC's reset values (10_state.md R42). -/

namespace Sys2Proof.Machine

/-! ## A run without the mark has a next state -/

section Answers

variable {s : State} (hs : s.refused = none)
include hs

/-- R57, R111: every meaning is one atomic step, which an unmarked run takes. -/
theorem exec_answers (i : Instr) : ∃ t, exec i s = .next t := by
  cases i <;> dsimp only [exec] <;> exact ⟨_, atomic_of_running hs _⟩

/-- R69, R91: a command is run, and a reserved word raises. -/
theorem runCommand_answers (c : Command) : ∃ t, runCommand c s = .next t := by
  unfold runCommand
  split
  · exact exec_answers hs _
  · exact ⟨_, atomic_of_running hs _⟩

/-- R91, R92: in Ready FG takes the next command or has no step; elsewhere it takes a micro-step. -/
theorem fgTurn_answers : ∃ t, fgTurn s = .next t := by
  unfold fgTurn
  split
  · exact ⟨s, rfl⟩
  · exact runCommand_answers (by exact hs) _
  · exact ⟨_, atomic_of_running hs _⟩

/-- R110, R112: EH runs the row of the event key, or has no step. -/
theorem ehTurn_answers : ∃ t, ehTurn s = .next t := by
  cases hirq : irq s
  · exact ⟨s, ehTurn_of_not_irq hirq⟩
  · rw [ehTurn_eq_exec hirq]
    exact exec_answers hs _

/-- R142 to R149: BC's turn is silent, reports a listed status, or takes a bus error. -/
theorem bcTurn_answers (e : Ev) : ∃ t, bcTurn e s = .next t := by
  cases e with
  | none => exact ⟨_, atomic_of_running hs _⟩
  | status st x =>
    simp only [bcTurn]
    split
    · exact exec_answers hs _
    · exact ⟨_, atomic_of_running hs _⟩

end Answers

/-! ## The configuration is never written -/

/-- R33: FG's turn. -/
theorem fgTurn_cfg {s t : State} (h : fgTurn s = .next t) : t.cfg = s.cfg := by
  obtain ⟨hcfg, -⟩ := fgFrame s t h
  exact hcfg

/-- R113: EH's turn. -/
theorem ehTurn_cfg {s t : State} (h : ehTurn s = .next t) : t.cfg = s.cfg := by
  obtain rfl | ⟨-, ⟨hcfg, -⟩, -⟩ := ehTurn_cases h
  · rfl
  · exact hcfg

/-- R136: BC's turn. -/
theorem bcTurn_cfg {e : Ev} {s t : State} (h : bcTurn e s = .next t) : t.cfg = s.cfg := by
  obtain ⟨heq, -⟩ := bcTurn_keeps h
  rw [heq]

/-! ## Every kind of step -/

/-- The outcome is a next state with the configuration `c`. -/
def AnswersUnder (c : Config) (o : Host.Outcome State Fault Refusal) : Prop := ∃ t, o = .next t ∧ t.cfg = c

/-- An outcome that is a next state, from a step that keeps the configuration. -/
theorem AnswersUnder.of_answers {c : Config} {o : Host.Outcome State Fault Refusal} (ho : ∃ t, o = .next t)
    (hcfg : ∀ {t}, o = .next t → t.cfg = c) : AnswersUnder c o :=
  ho.imp fun _ h => ⟨h, hcfg h⟩

/-- R5, R6: the turn of any agent. -/
theorem runTurn_answersUnder {s : State} (hs : s.refused = none) (turn : Turn) :
    AnswersUnder s.cfg (runTurn turn s) := by
  cases ha : turn.agent
  · rw [runTurn_fg ha]
    exact .of_answers (fgTurn_answers hs) fgTurn_cfg
  · rw [runTurn_eh ha]
    exact .of_answers (ehTurn_answers hs) ehTurn_cfg
  · rw [runTurn_bc ha]
    exact .of_answers (bcTurn_answers hs turn.ev) bcTurn_cfg

/-- R138, log entry 11: a bench write is the control write of its byte, whether the byte is a named word or not. -/
theorem runBench_answersUnder {s : State} (hs : s.refused = none) (w : Byte) : AnswersUnder s.cfg (runBench w s) := by
  have hcfg (v : Byte) : (ctrlWrite v s).cfg = s.cfg := by rw [ctrlWrite_frame]
  cases hd : decode s.cfg (.ctrl8 w) with
  | ok i =>
    obtain ⟨n, -, rfl⟩ := decodeControl_eq_ok hd
    exact ⟨_, (runBench_of_word hd).trans (exec_controlRow hs n), hcfg _⟩
  | error e =>
    refine ⟨ctrlWrite w s, ?_, hcfg w⟩
    simp only [runBench, hd, atomic_of_running hs]

/-- R5, R6, log entry 11: a bench write, the next turn of the schedule, or a free turn. -/
theorem runNext_answersUnder {s : State} (hs : s.refused = none) : AnswersUnder s.cfg (runNext s) := by
  cases hb : s.bench with
  | cons w ws =>
    rw [runNext_of_bench hb]
    exact runBench_answersUnder (by exact hs) w.word
  | nil =>
    cases hsched : s.sched with
    | cons turn turns =>
      rw [runNext_of_sched hb hsched]
      exact runTurn_answersUnder (by exact hs) turn
    | nil =>
      rw [runNext_of_free hb hsched]
      exact runTurn_answersUnder (by exact hs) _

/-- Settles O11: an invalid configuration answers the marked state, and any other unmarked state runs its next step. -/
theorem stepAnswersNext : Obligations.StepAnswersNext := by
  intro s hs
  by_cases hc : configOk s.cfg = true
  · rw [step_eq_runNext hs hc]
    exact runNext_answersUnder hs
  · exact ⟨_, step_of_not_configOk hs hc, rfl⟩

/-! ## BC at reset -/

/-- R140: with no bit set, CTRL reads 0 under every layout. -/
theorem ctrlRead_of_clear {s : State} (hflag : s.bc.flag = false) (hea : s.bc.ea = false) (hsta : s.bc.sta = false)
    (hsto : s.bc.sto = false) (hwc : s.bc.wc = false) (hen : s.bc.en = false) (hie : s.bc.ie = false) :
    ctrlRead s = 0 := by
  simp only [ctrlRead, ctrlReadBit, hflag, hea, hsta, hsto, hwc, hen, hie, Bool.and_false, Bool.or_false]
  rfl

/-- Settles O51: each register of `Bc.reset` holds the value of R42, so CTRL reads 0 and the line is low. -/
theorem bcResetValues : Obligations.BcResetValues :=
  ⟨ctrlRead_of_clear rfl rfl rfl rfl rfl rfl rfl, rfl, rfl, rfl, rfl, rfl, rfl, rfl, rfl, rfl, rfl, rfl, rfl, rfl, rfl⟩

end Sys2Proof.Machine
end
